-- ==== Sys2Proof/Word.lean ====
section
/-! DEFINITION. The word types of the codec: a byte of a byte space and a 32-bit command register (spec/00_scope.md R9,
spec/10_state.md R21). -/

namespace Sys2Proof

/-- A byte: 8 bits (R9). -/
abbrev Byte := BitVec 8

/-- A nibble of a token: 4 bits (R73). -/
abbrev Nibble := BitVec 4

/-- A command register: 32 bits (R21). -/
abbrev Word32 := BitVec 32

end Sys2Proof
end

