-- ==== Sys2Proof/Config.lean ====
section
/-! DEFINITION. What an implementation fixes: the format constants of spec/00_scope.md R6, the open parameters of R7 with the
defaults of spec/92_eei_decisions.md, the requirements R8 on them, and the free values (constants without a body) for what
spec/93_implementation_defined.md section 1 calls `any value`. -/

namespace Sys2Proof.Config

/-! ## Format constants (R6) -/

/-- Minimum match length in bytes, also the number of bytes hashed (R6). -/
def minMatch : Nat := 4

/-- The 64 KiB span behind the current position (R6). -/
def window : Nat := 65536

/-- The largest legal offset (R6; spec/90_conflicts.md C6). -/
def maxOffset : Nat := 65535

/-- The nibble value that announces extension bytes (R6). -/
def nibEsc : Nat := 15

/-- The extension byte that continues (R6; spec/90_conflicts.md C9). -/
def extCont : Nat := 255

/-- No match is sought in the last 12 bytes of the input (R6, R119). -/
def mfLimit : Nat := 12

/-- The final 5 bytes of the input are literals (R6, R116). -/
def lastLiterals : Nat := 5

/-- The smallest supported HC level (R6). -/
def levelMin : Int := 0

/-- The largest supported HC level (R6). -/
def levelMax : Int := 16

/-! ## Open parameters (R7, R8) -/

/-- The parameters the source leaves to the implementation (R7). The algorithms take them as an argument, so that a claim can
quantify over them. POS_W and LEN_W do not appear: positions and lengths are natural numbers (D22). -/
structure Params where
  /-- MAX_INPUT_SIZE (D5). -/
  maxInputSize : Nat
  /-- HASH_MULT (D8). -/
  hashMult : Nat
  /-- FAST_HASH_LOG (D8). -/
  fastHashLog : Nat
  /-- HC_HASH_LOG (D8). -/
  hcHashLog : Nat
  /-- CHAIN_SIZE (D9). -/
  chainSize : Nat
  /-- DEPTH, of a clamped level (D17). -/
  depth : Nat → Nat

/-- The defaults of R7. PRESUMED (the spec's own mark: from general knowledge, not in source) for MAX_INPUT_SIZE, HASH_MULT
and the two hash logs; log entry 7. -/
def params : Params where
  maxInputSize := 0x7E000000
  hashMult := 2654435761
  fastHashLog := 12
  hcHashLog := 15
  chainSize := 65536
  depth := fun lvl => 2 ^ lvl

/-- The requirements of R8 (and I4 for CHAIN_SIZE) on any values the parameters are given. -/
structure Params.Ok (P : Params) : Prop where
  fastLow : 1 ≤ P.fastHashLog
  fastHigh : P.fastHashLog ≤ 32
  hcLow : 1 ≤ P.hcHashLog
  hcHigh : P.hcHashLog ≤ 32
  multFits : P.hashMult < 2 ^ 32
  depthPos : ∀ lvl, lvl ≤ 16 → 1 ≤ P.depth lvl
  depthMono : ∀ l m, l ≤ m → m ≤ 16 → P.depth l ≤ P.depth m
  sizeFits : P.maxInputSize < 2 ^ 31
  boundFits : P.maxInputSize + P.maxInputSize / 255 + 16 < 2 ^ 32
  chainBig : window ≤ P.chainSize

/-! ## The platform -/

/-- CR_BASE: where the command registers sit in a host's address space. OPEN, no default, no rule reads it (R21, D1, I1). -/
opaque crBase : Nat

/-- The default layout of D1: register `k` at CR_BASE + 4k. No rule depends on it. -/
def crAddress (k : Nat) : Nat := crBase + 4 * k

/-! ## Free values (spec/93_implementation_defined.md: `any value`). No proof can see what they are. -/

/-- What a byte of SRC reads as that nothing has written since draw number `d`: of the power-on contents (`d = 0`) or of a
later hardware reset (I8; log entry 2). First argument the draw, second the address. -/
opaque freeSrcByte : Nat → Nat → Byte

/-- What a byte of DST reads as that nothing has written since draw number `d`: the power-on contents (`d = 0`), a failed
operation or a hardware reset (R238, R261, I6, I8; log entry 2). First argument the draw, second the address. -/
opaque freeDstByte : Nat → Nat → Byte

/-- What the host's `k`-th early look at DST while BUSY returns (R266, I7; log entry 4). -/
opaque freeRead : Nat → Byte

end Sys2Proof.Config
end

