-- ==== Sys2Proof/Syntax.lean ====
section
/-! DEFINITION. The instructions: one constructor per row of spec/opcode_table.json (spec/30_encoding.md R82). The four CMD rows
are the operations of R70; the seven WIRE rows are the elements of a block, R72 to R75. -/

namespace Sys2Proof

/-- One constructor per row of spec/opcode_table.json. -/
inductive Instr where
  /-- BOUND (OP = 0): the operand is in SRC_LEN (R140). -/
  | bound
  /-- COMPRESS (OP = 1): operands in SRC_LEN, DST_CAP and SRC (R110). -/
  | compress
  /-- COMPRESS_HC (OP = 2): operands in SRC_LEN, DST_CAP, LEVEL and SRC (R150). -/
  | compressHc
  /-- DECOMPRESS (OP = 3): operands in SRC_LEN, DST_CAP and SRC (R180). -/
  | decompress
  /-- TOKEN: bits 7:4 the literal-length nibble, bits 3:0 the match-length nibble (R73). -/
  | token (lnib mnib : Nibble)
  /-- LENEXT.CONT: the extension byte 255 (R75). -/
  | lenextCont
  /-- LENEXT.TERM: an extension byte 0 to 254 (R75). -/
  | lenextTerm (v : Byte)
  /-- OFFSET: two bytes, low byte first (R74). -/
  | offset (d : BitVec 16)
  /-- LITERAL: one byte, copied verbatim (R72, R184). -/
  | literal (b : Byte)
  /-- SEQ.MATCH: literal bytes, then a match of `mlen` bytes at distance `d` (R72, R132). -/
  | seqMatch (lits : List Byte) (d : BitVec 16) (mlen : Nat)
  /-- SEQ.LAST: literal bytes and the end of the block; `mnib` is the token's unused nibble (R72, R80, R133). -/
  | seqLast (lits : List Byte) (mnib : Nibble)
  deriving DecidableEq, Repr

end Sys2Proof
end

