-- ==== Sys2Proof/WellFormed.lean ====
section
/-! DEFINITION. Which terms of Instr stand for something the wire format can hold (spec/30_encoding.md R75, R76, R79,
spec/42_sequence_encoder.md R130). -/

namespace Sys2Proof

/-- The operand conditions: an extension byte that terminates is below 255 (R75); a match sequence has offset 1 to 65535 and
length at least 4 (R130). OFFSET may hold any 16-bit value, because 0 is an encoding the decoder meets and reports (R79). -/
def WellFormed : Instr → Bool
  | .bound => true
  | .compress => true
  | .compressHc => true
  | .decompress => true
  | .token _ _ => true
  | .lenextCont => true
  | .lenextTerm v => v != 255
  | .offset _ => true
  | .literal _ => true
  | .seqMatch _ d mlen => d != 0 && decide (Config.minMatch ≤ mlen)
  | .seqLast _ _ => true

end Sys2Proof
end

