-- ==== Sys2Proof/Decode.lean ====
section
/-! DEFINITION. The decoder from bits to an instruction and the encoder back, from the encodings of spec/30_encoding.md R70 to
R77 and spec/42_sequence_encoder.md R131 to R133. What a byte of a block is depends on where it stands (R78, R82), so the decoder
is asked for what stands at a given place. -/

namespace Sys2Proof

/-- What is due at the place that is decoded: the command held in OP (R70) or a part of a block (R72). -/
inductive Slot where
  | command
  | token
  | extension
  | offset
  | literal
  | sequence
  deriving DecidableEq, Repr

/-- Why bytes do not decode (R79). -/
inductive DecodeError where
  /-- No byte where an element is due. -/
  | noByte
  /-- The bytes end inside a run of extension bytes. -/
  | extensionCut
  /-- Fewer bytes are left than the literal length. -/
  | literalsCut
  /-- One byte only where two offset bytes are due. -/
  | offsetCut
  /-- A match sequence with offset 0. -/
  | offsetZero
  deriving DecidableEq, Repr

/-! ## Fields -/

/-- The literal-length nibble of a token, bits 7:4 (R73, D6). -/
def tokenLit (t : Byte) : Nibble := t.extractLsb' 4 4

/-- The match-length nibble of a token, bits 3:0 (R73, D6). -/
def tokenMatch (t : Byte) : Nibble := t.extractLsb' 0 4

/-- A token byte from its nibbles: `16 * lnib + mnib` (R73). -/
def tokenByte (l m : Nibble) : Byte := BitVec.ofNat 8 (16 * l.toNat + m.toNat)

/-- Two bytes, the first the less significant (R10 `LE16`, R52, R74). -/
def le16 (b0 b1 : Byte) : BitVec 16 := BitVec.ofNat 16 (b0.toNat + 256 * b1.toNat)

/-- The byte `d mod 256` of an offset (R52). -/
def lowByte (d : BitVec 16) : Byte := BitVec.ofNat 8 (d.toNat % 256)

/-- The byte `d div 256` of an offset (R52). -/
def highByte (d : BitVec 16) : Byte := BitVec.ofNat 8 (d.toNat / 256)

/-- The nibble of a length field of value `v`: `min(v, 15)` (R75). -/
def lenNibble (v : Nat) : Nibble := BitVec.ofNat 4 (min v Config.nibEsc)

/-- `ext(r)`: `r div 255` bytes 255 followed by the byte `r mod 255` (R75, R131). -/
def ext (r : Nat) : List Byte := List.replicate (r / Config.extCont) 255 ++ [BitVec.ofNat 8 (r % Config.extCont)]

/-- The extension bytes of a length field of value `v`: none below 15 (R75). -/
def lenExt (v : Nat) : List Byte := if Config.nibEsc ≤ v then ext (v - Config.nibEsc) else []

/-! ## Decoding -/

/-- The 4-way case on OP (R22, R82). -/
def decodeOp (op : BitVec 2) : Instr :=
  if op = 0 then .bound else if op = 1 then .compress else if op = 2 then .compressHc else .decompress

/-- Every byte value is a legal token (R79). -/
def decodeToken (t : Byte) : Instr := .token (tokenLit t) (tokenMatch t)

/-- 255 continues, every other byte terminates (R75). -/
def decodeExt (b : Byte) : Instr := if b = 255 then .lenextCont else .lenextTerm b

/-- Two offset bytes in address order (R74). -/
def decodeOffset (b0 b1 : Byte) : Instr := .offset (le16 b0 b1)

/-- The extension bytes of a length field: the value they add up to with what was read before them, and the bytes that follow
them; none where the bytes end before a terminating byte (R75). -/
def readExt : Nat → List Byte → Option (Nat × List Byte)
  | _, [] => none
  | acc, b :: rest => if b = 255 then readExt (acc + Config.extCont) rest else some (acc + b.toNat, rest)

/-- A length field: the nibble, and the extension bytes when it is 15 (R75). -/
def readLen (nib : Nibble) (bytes : List Byte) : Option (Nat × List Byte) :=
  if nib.toNat = Config.nibEsc then readExt Config.nibEsc bytes else some (nib.toNat, bytes)

/-- What follows the literals of a sequence: nothing (a last sequence), or the offset and the match length (R72, R78). -/
def decodeTail (lits : List Byte) (mnib : Nibble) : List Byte → Except DecodeError (Instr × List Byte)
  | [] => .ok (.seqLast lits mnib, [])
  | [_] => .error .offsetCut
  | b0 :: b1 :: rest =>
    if le16 b0 b1 = 0 then .error .offsetZero
    else match readLen mnib rest with
      | none => .error .extensionCut
      | some (v, rest') => .ok (.seqMatch lits (le16 b0 b1) (v + Config.minMatch), rest')

/-- One whole sequence from the front of a block (R72, R76, R78). -/
def decodeSeq : List Byte → Except DecodeError (Instr × List Byte)
  | [] => .error .noByte
  | t :: rest =>
    match readLen (tokenLit t) rest with
    | none => .error .extensionCut
    | some (len, rest1) =>
      if rest1.length < len then .error .literalsCut
      else decodeTail (rest1.take len) (tokenMatch t) (rest1.drop len)

/-- The decoder: the instruction at the front of the bytes, for what is due there, and the bytes after it. Total on any bytes;
what it rejects it rejects by name. A command is its two OP bits (R70, mask 0x3 of the table). -/
def decode (slot : Slot) (bytes : List Byte) : Except DecodeError (Instr × List Byte) :=
  match slot, bytes with
  | .sequence, bs => decodeSeq bs
  | _, [] => .error .noByte
  | .command, b :: rest => .ok (decodeOp (b.extractLsb' 0 2), rest)
  | .token, b :: rest => .ok (decodeToken b, rest)
  | .extension, b :: rest => .ok (decodeExt b, rest)
  | .literal, b :: rest => .ok (.literal b, rest)
  | .offset, [_] => .error .offsetCut
  | .offset, b0 :: b1 :: rest => .ok (decodeOffset b0 b1, rest)

/-! ## Encoding -/

/-- Where an instruction stands: the slot its encoding is decoded at. -/
def slotOf : Instr → Slot
  | .bound => .command
  | .compress => .command
  | .compressHc => .command
  | .decompress => .command
  | .token _ _ => .token
  | .lenextCont => .extension
  | .lenextTerm _ => .extension
  | .offset _ => .offset
  | .literal _ => .literal
  | .seqMatch _ _ _ => .sequence
  | .seqLast _ _ => .sequence

/-- `encode_match` (R132): token, literal extension, literals, offset low byte first, match extension. -/
def encodeMatch (lits : List Byte) (d : BitVec 16) (mlen : Nat) : List Byte :=
  tokenByte (lenNibble lits.length) (lenNibble (mlen - Config.minMatch)) :: (lenExt lits.length ++ lits
    ++ [lowByte d, highByte d] ++ lenExt (mlen - Config.minMatch))

/-- `encode_last` (R133): token, literal extension, literals. The encoder passes match nibble 0 (D7). -/
def encodeLast (lits : List Byte) (mnib : Nibble) : List Byte :=
  tokenByte (lenNibble lits.length) mnib :: (lenExt lits.length ++ lits)

/-- The bytes of an instruction, from the encoding tables of spec/30_encoding.md. A command is one byte that holds OP in its
bits 1:0. -/
def encode : Instr → List Byte
  | .bound => [0x00]
  | .compress => [0x01]
  | .compressHc => [0x02]
  | .decompress => [0x03]
  | .token l m => [tokenByte l m]
  | .lenextCont => [0xFF]
  | .lenextTerm v => [v]
  | .offset d => [lowByte d, highByte d]
  | .literal b => [b]
  | .seqMatch lits d mlen => encodeMatch lits d mlen
  | .seqLast lits mnib => encodeLast lits mnib

/-! ## The host's question about one table row -/

/-- The slot at which a bare word of `nbits` bits is read. The table's rows overlap, because a byte of a block means what its
place makes it (R78); a bare word has no place, so the model names one: 16 bits are an offset; of the bytes, those with a zero
bits 7:2 are commands, 255 is an extension byte, and the others are the first byte of a block. DESIGN CHOICE, log entry 8. -/
def tableSlot (nbits w : Nat) : Option Slot :=
  if nbits = 16 then some .offset
  else if 8 < nbits then none
  else if w < 4 then some .command
  else if w = 255 then some .extension
  else if w < 256 then some .token
  else none

/-- The bytes of a word, the first byte the least significant. -/
def wordBytes : Nat → Nat → List Byte
  | 0, _ => []
  | k + 1, w => BitVec.ofNat 8 (w % 256) :: wordBytes k (w / 256)

/-- The instruction the decoder reads from a word that is numbered as spec/opcode_table.json numbers it. -/
def decodeTableWord (nbits w : Nat) : Option Instr :=
  match tableSlot nbits w with
  | none => none
  | some slot =>
    match decode slot (wordBytes ((nbits + 7) / 8) w) with
    | .ok (i, _) => some i
    | .error _ => none

end Sys2Proof
end

