-- ==== Sys2Proof/Machine/State.lean ====
section
/-! DEFINITION. The state of the codec as plain data (spec/10_state.md), the reasons a step can stop, and the state after
reset (R35). -/

namespace Sys2Proof.Machine

/-- A table of values by index, in one canonical form: indexes strictly rising. An index that is not listed holds `none`. The
three tables HT, HEAD, PREV (R30 to R32) and the listed bytes of a byte space are kept in this form. -/
abbrev Table (α : Type) := List (Nat × α)

/-- A byte space (R33, R50). `cells` lists the bytes that hold a value of their own. A byte that is not listed holds `any value`
(I6, I8): the free value of the newest draw that covers its address. `draws` is the record of these draws, newest first: an
entry `n` says that the bytes below `n` were left unspecified at that point (R238, R261). The model's own field; log entry 2. -/
structure Memory where
  cells : Table (BitVec 8)
  draws : List Nat
  deriving DecidableEq, Repr

/-- The nine command registers, CR0 to CR8 (R21). -/
inductive CReg where
  | op
  | srcLen
  | dstCap
  | level
  | start
  | phase
  | status
  | count
  | produced
  deriving DecidableEq, Repr

/-- The phases of R210. PHASE = 3 never occurs (R21, I16). -/
inductive Phase where
  | idle
  | busy
  | done
  deriving DecidableEq, Repr

/-- The result kinds of R231. STATUS 6 and 7 are never written (I16). -/
inductive ResultKind where
  | ok
  | insufficientOutputSpace
  | outputOverrun
  | inputTruncated
  | corruptOffset
  | inputTooLarge
  deriving DecidableEq, Repr

/-- The eight decoder states of R28. Their binary encoding is not specified (I18). -/
inductive DState where
  | readToken
  | readLiteralExtension
  | copyLiterals
  | readOffset
  | readMatchExtension
  | copyMatch
  | done
  | failed
  deriving DecidableEq, Repr

/-- What the host can do to the codec (R20, R217), as plain data; log entry 1. -/
inductive HostAction where
  /-- Write a command register (R211, R214). -/
  | writeReg (r : CReg) (v : Word32)
  /-- Read a command register (R215). -/
  | readReg (r : CReg)
  /-- Place a byte in SRC (R50, R262). -/
  | writeSrc (a : Word32) (b : Byte)
  /-- Place a byte in DST (R262, R266). -/
  | writeDst (a : Word32) (b : Byte)
  /-- Read a byte of DST (R50, R266). -/
  | readDst (a : Word32)
  /-- A hardware reset (R35, R261). -/
  | reset
  /-- Wait for PHASE = DONE (R269). -/
  | await
  /-- Do nothing while the codec makes one elementary step: one step of the decoder (R182 to R188), or one sequence of a
  compressor. -/
  | tick
  deriving DecidableEq, Repr

/-- Everything the spec gives the machine (spec/10_state.md), then the model's own fields. -/
structure State where
  /-- OP, CR0 (R22). -/
  crOp : BitVec 2
  /-- SRC_LEN, CR1 (R24). -/
  srcLen : Word32
  /-- DST_CAP, CR2 (R24). -/
  dstCap : Word32
  /-- LEVEL, CR3, signed (R23). -/
  level : Word32
  /-- PHASE, CR5 (R210). START, CR4, stores nothing (R215). -/
  phase : Phase
  /-- STATUS, CR6 (R25). -/
  status : ResultKind
  /-- COUNT, CR7 (R25). -/
  count : Word32
  /-- PRODUCED, CR8 (R25). -/
  produced : Word32
  /-- Input cursor (R26, R27). -/
  ip : Nat
  /-- First input byte not yet emitted (R26). -/
  anchor : Nat
  /-- Output cursor (R26). -/
  op : Nat
  /-- Next position to insert into the chained index (R26). -/
  nti : Nat
  /-- Literal length being accumulated (R26). -/
  litlen : Nat
  /-- Match length being accumulated (R26). -/
  mlen : Nat
  /-- Offset of the current match (R26). -/
  offset : BitVec 16
  /-- Match-length nibble of the current token (R26). -/
  mnib : Nibble
  /-- Decoder state (R28). -/
  dstate : DState
  /-- Fast hash table (R30). -/
  ht : Table Nat
  /-- HC head table (R31). -/
  head : Table Nat
  /-- HC chain table (R32). -/
  prev : Table Nat
  /-- The source byte space (R33, R50). -/
  src : Memory
  /-- The destination byte space (R33, R50). -/
  dst : Memory
  /-- The host agent's remaining actions, first first. The model's own field; log entry 1. -/
  host : List HostAction
  /-- What the host's last read returned. The model's own field; log entry 4. -/
  rdata : Word32
  /-- How many free values the host has read. The model's own field; log entry 4. -/
  freeReads : Nat
  deriving DecidableEq, Repr

/-- The faults. The spec knows none (spec/93_implementation_defined.md section 1); the one below is raised by `step` only, in
a state that no run reaches. -/
inductive Fault where
  /-- CopyMatch with `offset > op`: the byte to copy would lie below address 0 of DST, an address that does not exist (R51, R188).
  Raised by the elementary step in CopyMatch. Safe: the machine stops. The offset check of R186 rules it out in every run. -/
  | copyBelowStart
  /-- The decoder is Done or Failed while PHASE is still BUSY: the terminal states have no step (R191). Raised by the elementary
  step. Safe: the machine stops. No run reaches it, because the transition into Done or Failed sets PHASE to DONE. -/
  | decoderEnded
  deriving DecidableEq, Repr

/-- The refusals. -/
inductive Refusal where
  /-- An instruction that has no meaning yet, by its mnemonic. Raised by `exec` only, for an arm not yet written; safe. No arm
  of this model raises it. -/
  | notModelled (mnemonic : String)
  /-- A WIRE instruction where the codec is not at such an element: the decoder is not running or its state calls for another
  element, or no compressor is running (R78, R182 to R188). Raised by the meanings of the WIRE rows; safe. `step` never makes
  it happen: it takes the element the decoder state calls for. -/
  | wireOutOfPlace
  /-- The host writes SRC[0..SRC_LEN) while BUSY: the manual gives it no meaning (R265, I10 `refuse`). Raised by the host's
  action; safe. -/
  | srcWriteWhileBusy
  /-- The host writes DST[0..DST_CAP) while BUSY: the manual gives it no meaning (R266, I10 `refuse`). Raised by the host's
  action; safe. -/
  | dstWriteWhileBusy
  deriving DecidableEq, Repr

/-- After power-on (R35, R260): command and working registers 0, `dstate` ReadToken. The tables are unspecified there; the model
takes every entry `none` (DESIGN CHOICE, log entry 3). SRC and DST list nothing, so every byte is a free value (I8, log
entry 2). -/
def State.reset : State where
  crOp := 0
  srcLen := 0
  dstCap := 0
  level := 0
  phase := .idle
  status := .ok
  count := 0
  produced := 0
  ip := 0
  anchor := 0
  op := 0
  nti := 0
  litlen := 0
  mlen := 0
  offset := 0
  mnib := 0
  dstate := .readToken
  ht := []
  head := []
  prev := []
  src := { cells := [], draws := [] }
  dst := { cells := [], draws := [] }
  host := []
  rdata := 0
  freeReads := 0

end Sys2Proof.Machine
end

