-- ==== Sys2Proof/Machine/Flags.lean ====
section
/-! DEFINITION. The codec has no arithmetic flags (spec/10_state.md R29). The only status a host can test is STATUS and PHASE; this
file gives their codes. -/

namespace Sys2Proof.Machine

/-- The number STATUS shows for a result kind (R25, R231). -/
def statusCode : ResultKind → BitVec 3
  | .ok => 0
  | .insufficientOutputSpace => 1
  | .outputOverrun => 2
  | .inputTruncated => 3
  | .corruptOffset => 4
  | .inputTooLarge => 5

/-- The number PHASE shows (R21). -/
def phaseCode : Phase → BitVec 2
  | .idle => 0
  | .busy => 1
  | .done => 2

end Sys2Proof.Machine
end

