-- ==== Sys2Proof/Machine/Ops.lean ====
section
/-! DEFINITION. The named operations over tables, byte spaces and registers, and the two ends of an operation: `raise`
(spec/60_exceptions.md R236) and the normal end (R237). -/

namespace Sys2Proof.Machine

/-! ## Tables -/

/-- The entry at index `a`, `none` where nothing is listed. -/
def Table.get {α : Type} : Table α → Nat → Option α
  | [], _ => none
  | (k, v) :: rest, a => if k = a then some v else Table.get rest a

/-- Writes `some v` at index `a`, keeping the indexes strictly rising. -/
def Table.set {α : Type} : Table α → Nat → α → Table α
  | [], a, v => [(a, v)]
  | (k, w) :: rest, a, v =>
    if a < k then (a, v) :: (k, w) :: rest
    else if k = a then (a, v) :: rest
    else (k, w) :: Table.set rest a v

/-- Drops every entry at an index below `n`. -/
def Table.dropBelow {α : Type} (t : Table α) (n : Nat) : Table α := t.filter (fun c => decide (n ≤ c.1))

/-- The canonical form: indexes strictly rising. -/
abbrev Table.rising {α : Type} (t : Table α) : Prop := t.Pairwise (fun x y => x.1 < y.1)

/-! ## Byte spaces (R50, R57) -/

/-- How many addresses a byte space has: addresses are 32-bit byte indices (R50). -/
def addressCount : Nat := 2 ^ 32

/-- The number of the newest draw that covers address `a`; 0 stands for the power-on contents. -/
def Memory.drawAt : List Nat → Nat → Nat
  | [], _ => 0
  | n :: older, a => if a < n then older.length + 1 else Memory.drawAt older a

/-- One byte: its own value where one is listed, else the free value of the newest draw that covers it (I6, I8). -/
def Memory.read (free : Nat → Nat → Byte) (m : Memory) (a : Nat) : Byte :=
  match Table.get m.cells a with
  | some b => b
  | none => free (Memory.drawAt m.draws a) a

/-- Writes one byte; a byte holds the last value written to it (R57). -/
def Memory.write (m : Memory) (a : Nat) (b : Byte) : Memory := { m with cells := Table.set m.cells a b }

/-- Writes bytes at `a`, `a + 1`, ... in increasing address order. -/
def Memory.writeList (m : Memory) (a : Nat) : List Byte → Memory
  | [] => m
  | b :: bs => Memory.writeList (Memory.write m a b) (a + 1) bs

/-- Every byte below `n` takes `any value` (R238). Bytes at or above `n` keep theirs. -/
def Memory.forget (m : Memory) (n : Nat) : Memory :=
  { cells := Table.dropBelow m.cells n, draws := n :: m.draws }

/-- The byte-serial copy of R56: `k` bytes to `o`, `o + 1`, ..., each read `off` below the byte written, each read seeing the
earlier writes. -/
def Memory.copySerial (free : Nat → Nat → Byte) (m : Memory) (o off : Nat) : Nat → Memory
  | 0 => m
  | k + 1 =>
    let m' := Memory.copySerial free m o off k
    Memory.write m' (o + k) (Memory.read free m' (o + k - off))

/-- The canonical form of a byte space: addresses strictly rising and inside the space. No entry equals what an unlisted
address holds, because that is no value of its own. -/
abbrev Memory.wf (m : Memory) : Prop := Table.rising m.cells ∧ ∀ c ∈ m.cells, c.1 < addressCount

/-! ## The two byte spaces of a state -/

/-- `SRC[a]` (R10). -/
def State.srcByte (s : State) (a : Nat) : Byte := Memory.read Config.freeSrcByte s.src a

/-- `DST[a]` (R10). -/
def State.dstByte (s : State) (a : Nat) : Byte := Memory.read Config.freeDstByte s.dst a

/-- `n`, the value of SRC_LEN (R24, R71). -/
def State.n (s : State) : Nat := s.srcLen.toNat

/-- `cap`, the value of DST_CAP (R24, R71). -/
def State.cap (s : State) : Nat := s.dstCap.toNat

/-! ## Ends of an operation -/

/-- `raise K` (R236, R242): the kind in STATUS, COUNT and PRODUCED 0, PHASE DONE; nothing is saved and control goes nowhere. Every
byte of DST[0..DST_CAP) then holds any value (R238). -/
def State.raise (s : State) (kind : ResultKind) : State :=
  { s with
    status := kind
    count := 0
    produced := 0
    phase := .done
    dst := Memory.forget s.dst s.cap }

/-- `raise K` inside DECOMPRESS: the decoder goes to Failed as well (R190, R236). -/
def State.failDecode (s : State) (kind : ResultKind) : State := State.raise { s with dstate := .failed } kind

/-- The normal end (R237, R213): STATUS Ok, COUNT and PRODUCED as the operation says, PHASE DONE. -/
def State.finish (s : State) (count produced : Nat) : State :=
  { s with
    status := .ok
    count := BitVec.ofNat 32 count
    produced := BitVec.ofNat 32 produced
    phase := .done }

/-! ## The command interface (spec/46_command_interface.md) -/

/-- The working registers at START and after reset: all 0, `dstate` ReadToken (R211, R35). -/
def State.clearWorking (s : State) : State :=
  { s with
    ip := 0
    anchor := 0
    op := 0
    nti := 0
    litlen := 0
    mlen := 0
    offset := 0
    mnib := 0
    dstate := .readToken }

/-- START while PHASE is not BUSY (R211): PHASE BUSY, result registers, working registers and tables cleared. -/
def State.start (s : State) : State :=
  { State.clearWorking s with
    phase := .busy
    status := .ok
    count := 0
    produced := 0
    ht := []
    head := []
    prev := [] }

/-- A host write to a command register. While BUSY it is ignored (R214). START starts an operation when its one bit is 1 (R211).
PHASE, STATUS, COUNT and PRODUCED are read-only (R21): a write to one changes nothing, and a register narrower than the written
word takes the word's low bits (DEDUCED, log entry 6). -/
def State.writeReg (s : State) (r : CReg) (v : Word32) : State :=
  if s.phase = .busy then s
  else match r with
    | .op => { s with crOp := v.setWidth 2 }
    | .srcLen => { s with srcLen := v }
    | .dstCap => { s with dstCap := v }
    | .level => { s with level := v }
    | .start => if v.getLsbD 0 then State.start s else s
    | .phase => s
    | .status => s
    | .count => s
    | .produced => s

/-- A host read of a command register (R215): START reads as 0. -/
def State.readReg (s : State) : CReg → Word32
  | .op => s.crOp.setWidth 32
  | .srcLen => s.srcLen
  | .dstCap => s.dstCap
  | .level => s.level
  | .start => 0
  | .phase => (phaseCode s.phase).setWidth 32
  | .status => (statusCode s.status).setWidth 32
  | .count => s.count
  | .produced => s.produced

/-- A hardware reset of a machine that has run (R35, R260, R261): the registers as after power-on; the tables, SRC and DST
unspecified, so both spaces take any value. The host agent and what it has read are not the codec's and stay. -/
def State.hardReset (s : State) : State :=
  { State.reset with
    src := Memory.forget s.src addressCount
    dst := Memory.forget s.dst addressCount
    host := s.host
    rdata := s.rdata
    freeReads := s.freeReads }

end Sys2Proof.Machine
end

