-- ==== Sys2Proof/Machine/Bound.lean ====
section
/-! DEFINITION. The Bound Calculator and BOUND (spec/43_bound.md). -/

namespace Sys2Proof.Machine

/-- `bound(n)` (R141). -/
def bound (P : Config.Params) (n : Nat) : Nat := if n ≤ P.maxInputSize then n + n / 255 + 16 else 0

/-- BOUND (R140) for any parameters (R7): always a normal end; touches neither SRC, DST nor a table. -/
def State.boundWith (P : Config.Params) (s : State) : State := State.finish s (bound P s.n) 0

/-- BOUND (R140) at the default parameters. -/
def execBound (s : State) : Host.Outcome State Fault Refusal := .next (State.boundWith Config.params s)

end Sys2Proof.Machine
end

