-- ==== Sys2Proof/Machine/Operands.lean ====
section
/-! DEFINITION. How the operations read their operands: the clamped LEVEL (spec/30_encoding.md R71), runs of source bytes
(spec/00_scope.md R10), the hashed word (spec/20_memory.md R53) and the forward match length (R11). The source space is passed
as the function from an address to its byte. -/

namespace Sys2Proof.Machine

/-- The clamped level: `max(0, min(16, LEVEL))` of the signed LEVEL (R23, R71, R153). -/
def clampLevel (level : Word32) : Nat := (max Config.levelMin (min Config.levelMax level.toInt)).toNat

/-- `SRC[a..a+k)` (R10). -/
def slice (src : Nat → Byte) (a : Nat) : Nat → List Byte
  | 0 => []
  | k + 1 => src a :: slice src (a + 1) k

/-- `MemRead(SRC, p, 4)`: four bytes, the first the least significant (R53, R10 `LE32`). -/
def word4 (src : Nat → Byte) (p : Nat) : Nat :=
  (src p).toNat + 2 ^ 8 * (src (p + 1)).toNat + 2 ^ 16 * (src (p + 2)).toNat + 2 ^ 24 * (src (p + 3)).toNat

/-- How many of the next `k` bytes at `a` and at `b` are equal before the first difference. -/
def equalRun (src : Nat → Byte) : Nat → Nat → Nat → Nat
  | 0, _, _ => 0
  | k + 1, a, b => if src a = src b then equalRun src k (a + 1) (b + 1) + 1 else 0

/-- `common(a, b, lim)`: the largest `k` with `b + k ≤ lim` and `k` equal bytes at `a` and at `b` (R11). -/
def common (src : Nat → Byte) (a b lim : Nat) : Nat := equalRun src (lim - b) a b

/-- `backlen(q, ip, anchor)`: how far a match at `ip` with candidate `q` extends backward, not before `anchor` nor before position
0 (R115). -/
def backlen (src : Nat → Byte) : Nat → Nat → Nat → Nat
  | 0, _, _ => 0
  | q + 1, ip, anchor =>
    if anchor < ip ∧ src (ip - 1) = src q then backlen src q (ip - 1) anchor + 1 else 0

end Sys2Proof.Machine
end

