-- ==== Sys2Proof/Machine/Decoder.lean ====
section
/-! DEFINITION. The Block Decoder (spec/45_block_decoder.md): one operation per decoder state, the meanings of the WIRE elements,
and DECOMPRESS. -/

namespace Sys2Proof.Machine

/-! ## The states (R182 to R189) -/

/-- ReadToken with the nibbles of the token (R182). -/
def State.readToken (s : State) (lnib mnib : Nibble) : State :=
  if s.n ≤ s.ip then State.failDecode s .inputTruncated
  else
    { s with
      ip := s.ip + 1
      litlen := lnib.toNat
      mnib := mnib
      dstate := if lnib.toNat = Config.nibEsc then .readLiteralExtension else .copyLiterals }

/-- One extension byte `b` in ReadLiteralExtension (R183) or ReadMatchExtension (R187); no step in another state. -/
def State.readExtension (s : State) (b : Byte) : State :=
  match s.dstate with
  | .readLiteralExtension =>
    if s.n ≤ s.ip then State.failDecode s .inputTruncated
    else
      { s with
        ip := s.ip + 1
        litlen := s.litlen + b.toNat
        dstate := if b.toNat = Config.extCont then .readLiteralExtension else .copyLiterals }
  | .readMatchExtension =>
    if s.n ≤ s.ip then State.failDecode s .inputTruncated
    else
      { s with
        ip := s.ip + 1
        mlen := s.mlen + b.toNat
        dstate := if b.toNat = Config.extCont then .readMatchExtension else .copyMatch }
  | .readToken => s
  | .copyLiterals => s
  | .readOffset => s
  | .copyMatch => s
  | .done => s
  | .failed => s

/-- The end of a literal run (R185): Done, with the normal end of DECOMPRESS (R189, R237), when the input is used up; else the
offset is due. -/
def State.endLiterals (s : State) : State :=
  if s.ip = s.n then State.finish { s with dstate := .done } s.ip s.op
  else { s with dstate := .readOffset }

/-- CopyLiterals with the bytes of the run (R184): both checks before any byte, the destination check first (D19). -/
def State.copyLiterals (s : State) (lits : List Byte) : State :=
  if s.cap - s.op < s.litlen then State.failDecode s .outputOverrun
  else if s.n - s.ip < s.litlen then State.failDecode s .inputTruncated
  else
    State.endLiterals
      { s with
        dst := Memory.writeList s.dst s.op lits
        ip := s.ip + s.litlen
        op := s.op + s.litlen }

/-- One literal byte of the run, with the checks of R184 on what is left of the run. `litlen` then counts the literals still to
copy (DESIGN CHOICE, log entry 9). -/
def State.copyLiteral (s : State) (b : Byte) : State :=
  if s.cap - s.op < s.litlen then State.failDecode s .outputOverrun
  else if s.n - s.ip < s.litlen then State.failDecode s .inputTruncated
  else
    let s' := { s with
      dst := Memory.write s.dst s.op b
      ip := s.ip + 1
      op := s.op + 1
      litlen := s.litlen - 1 }
    if s'.litlen = 0 then State.endLiterals s' else s'

/-- ReadOffset with the offset (R186): two bytes must be left; 0 and an offset beyond what is written are CorruptOffset. -/
def State.readOffset (s : State) (d : BitVec 16) : State :=
  if s.n - s.ip < 2 then State.failDecode s .inputTruncated
  else
    let s' := { s with ip := s.ip + 2, offset := d }
    if d = 0 then State.failDecode s' .corruptOffset
    else if s.op < d.toNat then State.failDecode s' .corruptOffset
    else
      { s' with
        mlen := s.mnib.toNat + Config.minMatch
        dstate := if s.mnib.toNat = Config.nibEsc then .readMatchExtension else .copyMatch }

/-- CopyMatch (R188): the check on the whole length, then the byte-serial copy of R56. -/
def State.copyMatch (s : State) : State :=
  if s.cap - s.op < s.mlen then State.failDecode s .outputOverrun
  else
    { s with
      dst := Memory.copySerial Config.freeDstByte s.dst s.op s.offset.toNat s.mlen
      op := s.op + s.mlen
      dstate := .readToken }

/-! ## One step of the decoder (R180, R191) -/

/-- What the decoder finds for its state: an element of the block, a literal run, a match copy, no input, or nothing because it
has ended. -/
inductive WireFetch where
  | element (i : Instr)
  | literals
  | matchCopy
  | noInput
  | ended
  deriving DecidableEq, Repr

/-- The element the decoder state calls for, decoded from the bytes at `ip` (R27, R78). -/
def State.fetchWire (s : State) : WireFetch :=
  match s.dstate with
  | .readToken => if s.n ≤ s.ip then .noInput else .element (decodeToken (s.srcByte s.ip))
  | .readLiteralExtension => if s.n ≤ s.ip then .noInput else .element (decodeExt (s.srcByte s.ip))
  | .copyLiterals => .literals
  | .readOffset =>
    if s.n - s.ip < 2 then .noInput else .element (decodeOffset (s.srcByte s.ip) (s.srcByte (s.ip + 1)))
  | .readMatchExtension => if s.n ≤ s.ip then .noInput else .element (decodeExt (s.srcByte s.ip))
  | .copyMatch => .matchCopy
  | .done => .ended
  | .failed => .ended

/-- The effect of an element on the decoder (R182, R183, R184, R186, R187). A command or a composite is no element. -/
def State.wireEffect (s : State) : Instr → State
  | .token l m => State.readToken s l m
  | .lenextCont => State.readExtension s 255
  | .lenextTerm v => State.readExtension s v
  | .offset d => State.readOffset s d
  | .literal b => State.copyLiteral s b
  | .bound => s
  | .compress => s
  | .compressHc => s
  | .decompress => s
  | .seqMatch _ _ _ => s
  | .seqLast _ _ => s

/-- The step of the current decoder state (R182 to R188); no step in Done or Failed (R191). -/
def State.decoderStep (s : State) : State :=
  match State.fetchWire s with
  | .element i => State.wireEffect s i
  | .literals => State.copyLiterals s (slice s.srcByte s.ip s.litlen)
  | .matchCopy => State.copyMatch s
  | .noInput => State.failDecode s .inputTruncated
  | .ended => s

/-- Whether the decoder is in a terminal state (R28). -/
def DState.terminal : DState → Bool
  | .done => true
  | .failed => true
  | .readToken => false
  | .readLiteralExtension => false
  | .copyLiterals => false
  | .readOffset => false
  | .readMatchExtension => false
  | .copyMatch => false

/-- At most `fuel` steps, until Done or Failed (R180). -/
def State.runDecoder : Nat → State → State
  | 0, s => s
  | fuel + 1, s => if s.dstate.terminal then s else State.runDecoder fuel (State.decoderStep s)

/-- The initial configuration of the decoder (R180, R181). -/
def State.enterDecoder (s : State) : State :=
  { s with ip := 0, op := 0, litlen := 0, mlen := 0, offset := 0, mnib := 0, dstate := .readToken }

/-- DECOMPRESS (R180): the machine runs until Done or Failed, which takes at most `2n + 2` steps (R192). -/
def execDecompress (s : State) : Host.Outcome State Fault Refusal :=
  .next (State.runDecoder (2 * s.n + 2) (State.enterDecoder s))

/-! ## The meanings of the WIRE elements -/

/-- Whether the decoder runs and is in state `d`: BUSY with OP = 3 (R212, R78). -/
def State.decoderAt (s : State) (d : DState) : Bool := s.phase == .busy && s.crOp == 3 && s.dstate == d

/-- Whether an extension byte is due (R183, R187). -/
def State.extensionDue (s : State) : Bool :=
  State.decoderAt s .readLiteralExtension || State.decoderAt s .readMatchExtension

/-- TOKEN (R182). -/
def execToken (lnib mnib : Nibble) (s : State) : Host.Outcome State Fault Refusal :=
  if State.decoderAt s .readToken then .next (State.readToken s lnib mnib) else .refused .wireOutOfPlace

/-- LENEXT.CONT (R183, R187): adds 255, another extension byte follows. -/
def execLenextCont (s : State) : Host.Outcome State Fault Refusal :=
  if State.extensionDue s then .next (State.readExtension s 255) else .refused .wireOutOfPlace

/-- LENEXT.TERM (R183, R187): adds `v` and ends the extension. The byte 255 is LENEXT.CONT (R75). -/
def execLenextTerm (v : Byte) (s : State) : Host.Outcome State Fault Refusal :=
  if State.extensionDue s then .next (State.readExtension s v) else .refused .wireOutOfPlace

/-- OFFSET (R186). -/
def execOffset (d : BitVec 16) (s : State) : Host.Outcome State Fault Refusal :=
  if State.decoderAt s .readOffset then .next (State.readOffset s d) else .refused .wireOutOfPlace

/-- LITERAL (R184): one byte of a literal run that is not used up. -/
def execLiteral (b : Byte) (s : State) : Host.Outcome State Fault Refusal :=
  if State.decoderAt s .copyLiterals && s.litlen != 0 then .next (State.copyLiteral s b) else .refused .wireOutOfPlace

end Sys2Proof.Machine
end

