-- ==== Sys2Proof/Machine/HashIndex.lean ====
section
/-! DEFINITION. The Hash Index (spec/40_hash_index.md R100 to R105) and the chained index (spec/44_hc_compress.md R154 to R156). -/

namespace Sys2Proof.Machine

/-- `hash(p, log)` (R100): the top `log` bits of the low 32 bits of the word times HASH_MULT. -/
def hash (P : Config.Params) (src : Nat → Byte) (p log : Nat) : Nat :=
  ((word4 src p * P.hashMult % 2 ^ 32) >>> (32 - log)) &&& (2 ^ log - 1)

/-! ## The Fast index -/

/-- `insert(p)` (R101): the bucket holds the most recent position only. -/
def insertFast (P : Config.Params) (src : Nat → Byte) (ht : Table Nat) (p : Nat) : Table Nat :=
  Table.set ht (hash P src p P.fastHashLog) p

/-- `lookup(p)` (R102). -/
def lookupFast (P : Config.Params) (src : Nat → Byte) (ht : Table Nat) (p : Nat) : Option Nat :=
  Table.get ht (hash P src p P.fastHashLog)

/-- Inserts `k` positions from `p` on, in increasing order (R118). -/
def insertRun (P : Config.Params) (src : Nat → Byte) : Nat → Table Nat → Nat → Table Nat
  | 0, ht, _ => ht
  | k + 1, ht, p => insertRun P src k (insertFast P src ht p) (p + 1)

/-! ## The chained index -/

/-- The chained index: HEAD and PREV (R31, R32), with `nti`, the next position to insert (R26, R156). -/
structure Chains where
  head : Table Nat
  prev : Table Nat
  nti : Nat
  deriving DecidableEq, Repr

/-- `hc(p)` (R154). -/
def hcHash (P : Config.Params) (src : Nat → Byte) (p : Nat) : Nat := hash P src p P.hcHashLog

/-- An entry of a table set to an optional position; `none` leaves no entry. -/
def Table.put {α : Type} (t : Table α) (a : Nat) : Option α → Table α
  | none => t.filter (fun c => c.1 != a)
  | some v => Table.set t a v

/-- `insert_hc(p)` (R155): PREV takes the bucket's head, HEAD takes `p`. -/
def insertHc (P : Config.Params) (src : Nat → Byte) (c : Chains) (p : Nat) : Chains :=
  { c with
    prev := Table.put c.prev (p % P.chainSize) (Table.get c.head (hcHash P src p))
    head := Table.set c.head (hcHash P src p) p }

/-- Inserts the next `k` positions (R156). -/
def insertNext (P : Config.Params) (src : Nat → Byte) : Nat → Chains → Chains
  | 0, c => c
  | k + 1, c => insertNext P src k { insertHc P src c c.nti with nti := c.nti + 1 }

/-- `insert_upto(q)` (R156): every position not yet inserted before `q`; nothing when `q ≤ nti`. -/
def insertUpto (P : Config.Params) (src : Nat → Byte) (c : Chains) (q : Nat) : Chains :=
  insertNext P src (q - c.nti) c

end Sys2Proof.Machine
end

