-- ==== Sys2Proof/Machine/SeqEncoder.lean ====
section
/-! DEFINITION. The Sequence Encoder (spec/42_sequence_encoder.md R130 to R137): the two match finders hand it sequences, it writes
their bytes. -/

namespace Sys2Proof.Machine

/-- What a match finder hands over (R130): literals at `litStart`, and for all but the last sequence a match. -/
inductive SeqDesc where
  | matchSeq (litStart litLen offset mlen : Nat)
  | lastSeq (litStart litLen : Nat)
  deriving DecidableEq, Repr

/-- The WIRE instruction of a sequence, its literals taken from SRC (R132, R133). The last token's match nibble is 0 (D7). -/
def SeqDesc.toInstr (src : Nat → Byte) : SeqDesc → Instr
  | .matchSeq a l d m => .seqMatch (slice src a l) (BitVec.ofNat 16 d) m
  | .lastSeq a l => .seqLast (slice src a l) 0

/-- `encode_block(seqs)` (R134). -/
def encodeBlock (src : Nat → Byte) (seqs : List SeqDesc) : List Byte :=
  seqs.flatMap (fun q => encode (SeqDesc.toInstr src q))

/-- The end of COMPRESS and COMPRESS_HC with a whole block (R110, R150): InsufficientOutputSpace exactly when it is longer than
DST_CAP (R120, R167), else the block at DST[0..) and its length in COUNT and PRODUCED. -/
def State.emitBlock (s : State) (block : List Byte) : State :=
  if s.cap < block.length then State.raise s .insufficientOutputSpace
  else
    State.finish { s with dst := Memory.writeList s.dst 0 block, op := block.length } block.length block.length

/-- Appends the bytes of one sequence at `op` (R137), or InsufficientOutputSpace where they do not fit (R120). -/
def State.emitSeq (s : State) (bytes : List Byte) : State :=
  if s.cap < s.op + bytes.length then State.raise s .insufficientOutputSpace
  else { s with dst := Memory.writeList s.dst s.op bytes, op := s.op + bytes.length }

/-- Whether a compressor is running: BUSY with OP = 1 or 2 (R212). -/
def State.encoding (s : State) : Bool := s.phase == .busy && (s.crOp == 1 || s.crOp == 2)

/-- The Sequence Encoder's part of SEQ.MATCH: `encode_match` written at `op` (R132, R137). -/
def State.putMatch (s : State) (lits : List Byte) (d : BitVec 16) (mlen : Nat) : State :=
  State.emitSeq s (encodeMatch lits d mlen)

/-- The Sequence Encoder's part of SEQ.LAST: `encode_last` written at `op`, its unused match nibble as 0 (R133, R137, D7), then
the normal end of the compressor (R110, R134). -/
def State.putLast (s : State) (lits : List Byte) : State :=
  let s' := State.emitSeq s (encodeLast lits 0)
  if s'.phase = .busy then State.finish s' s'.op s'.op else s'

end Sys2Proof.Machine
end

