-- ==== Sys2Proof/Machine/FastFinder.lean ====
section
/-! DEFINITION. The Fast match finder and COMPRESS (spec/41_fast_compress.md). -/

namespace Sys2Proof.Machine

/-- The cursors and the table of the Fast match finder (R26, R30). -/
structure FastFinder where
  ip : Nat
  anchor : Nat
  ht : Table Nat
  deriving DecidableEq, Repr

/-- The finder at the start of a parse (R113). -/
def FastFinder.init : FastFinder := { ip := 0, anchor := 0, ht := [] }

/-- `valid(q, ip)` (R114): within the window, and four equal bytes. -/
def validCand (src : Nat → Byte) (q ip : Nat) : Bool :=
  decide (ip - q ≤ Config.maxOffset) && word4 src q == word4 src ip

/-- The forward length of a verified candidate (R116, R160): 4, and the further equal bytes up to `n - 5`. -/
def fwdLen (src : Nat → Byte) (n q ip : Nat) : Nat :=
  Config.minMatch + common src (q + Config.minMatch) (ip + Config.minMatch) (n - Config.lastLiterals)

/-- The candidate at `ip`, when there is one and it is valid (R102, R114). -/
def fastCand (P : Config.Params) (src : Nat → Byte) (f : FastFinder) : Option Nat :=
  match lookupFast P src f.ht f.ip with
  | some q => if validCand src q f.ip then some q else none
  | none => none

/-- What a valid candidate `q` at `ip` makes of the finder (R113, R115 to R118): the sequence, the positions inside the match
inserted, both cursors at the end of the match. -/
def fastTake (P : Config.Params) (src : Nat → Byte) (n : Nat) (f : FastFinder) (q : Nat) : SeqDesc × FastFinder :=
  let back := backlen src q f.ip f.anchor
  let fwd := fwdLen src n q f.ip
  (.matchSeq f.anchor (f.ip - back - f.anchor) (f.ip - q) (back + fwd),
    { ip := f.ip + fwd
      anchor := f.ip + fwd
      ht := insertRun P src fwd f.ht f.ip })

/-- The loop of R113 up to its next match, at most `fuel` passes. `insertRun` at a match covers the insertion of `ip` in the loop
head and of `ip + 1 .. e - 1` (R118). -/
def fastScan (P : Config.Params) (src : Nat → Byte) (n : Nat) : Nat → FastFinder → Option SeqDesc × FastFinder
  | 0, f => (none, f)
  | fuel + 1, f =>
    if f.ip + Config.mfLimit < n then
      match fastCand P src f with
      | some q => ((fastTake P src n f q).1, (fastTake P src n f q).2)
      | none => fastScan P src n fuel { f with ip := f.ip + 1, ht := insertFast P src f.ht f.ip }
    else (none, f)

/-- The sequences of a parse (R113): what `scan` finds, match by match, then the last sequence. At most `fuel` matches. -/
def parseWith {F : Type} (scan : F → Option SeqDesc × F) (anchor : F → Nat) (n : Nat) : Nat → F → List SeqDesc × F
  | 0, f => ([.lastSeq (anchor f) (n - anchor f)], f)
  | fuel + 1, f =>
    match scan f with
    | (some q, f') =>
      let r := parseWith scan anchor n fuel f'
      (q :: r.1, r.2)
    | (none, f') => ([.lastSeq (anchor f') (n - anchor f')], f')

/-- `parse_fast()` (R113): every pass moves `ip` by at least 1, so `n + 1` passes and matches are enough (R123). -/
def parseFast (P : Config.Params) (src : Nat → Byte) (n : Nat) : List SeqDesc × FastFinder :=
  parseWith (fastScan P src n (n + 1)) FastFinder.anchor n (n + 1) FastFinder.init

/-- A state with the Fast finder's cursors and table. -/
def State.withFast (s : State) (f : FastFinder) : State := { s with ip := f.ip, anchor := f.anchor, ht := f.ht }

/-- COMPRESS below the size test (R110): parse, encode, write. -/
def State.compressFast (P : Config.Params) (s : State) : State :=
  let r := parseFast P s.srcByte s.n
  State.emitBlock (State.withFast s r.2) (encodeBlock s.srcByte r.1)

/-- COMPRESS (R110) for any parameters (R7): InputTooLarge before anything else (R112, R241). -/
def State.compressWith (P : Config.Params) (s : State) : State :=
  if P.maxInputSize < s.n then State.raise s .inputTooLarge else State.compressFast P s

/-- COMPRESS (R110) at the default parameters. -/
def execCompress (s : State) : Host.Outcome State Fault Refusal := .next (State.compressWith Config.params s)

end Sys2Proof.Machine
end

