-- ==== Sys2Proof/Machine/HcFinder.lean ====
section
/-! DEFINITION. The HC match finder and COMPRESS_HC (spec/44_hc_compress.md). -/

namespace Sys2Proof.Machine

/-- The cursors and tables of the HC match finder (R26, R31, R32). -/
structure HcFinder where
  ip : Nat
  anchor : Nat
  chains : Chains
  deriving DecidableEq, Repr

/-- The finder at the start of a parse (R163). -/
def HcFinder.init : HcFinder := { ip := 0, anchor := 0, chains := { head := [], prev := [], nti := 0 } }

/-- A match found by a search (R159): it starts at `start` and copies from `offset` before. -/
structure Found where
  start : Nat
  offset : Nat
  len : Nat
  deriving DecidableEq, Repr

/-- The match a candidate `cp` gives at `q` (R160): forward and backward extension; none where the four bytes differ. -/
def candidate (src : Nat → Byte) (n q anchor cp : Nat) : Option Found :=
  if word4 src cp = word4 src q then
    let back := backlen src cp q anchor
    some { start := q - back, offset := q - cp, len := back + fwdLen src n cp q }
  else none

/-- The longer of the best match so far and a new one; the older one where they are equal (R161). -/
def better : Option Found → Option Found → Option Found
  | best, none => best
  | none, some m => some m
  | some best, some m => if best.len < m.len then some m else some best

/-- The walk of R159 from candidate `c`: at most `depth` candidates (R162), none more than 65535 behind (R158). -/
def walk (P : Config.Params) (src : Nat → Byte) (n q anchor : Nat) (prev : Table Nat) :
    Nat → Option Nat → Option Found → Option Found
  | 0, _, best => best
  | _ + 1, none, best => best
  | depth + 1, some cp, best =>
    if q - cp ≤ Config.maxOffset then
      walk P src n q anchor prev depth (Table.get prev (cp % P.chainSize)) (better best (candidate src n q anchor cp))
    else best

/-- `find(q, anchor, depth)` (R159): inserts every position before `q`, then walks the chain of `q`'s bucket. -/
def find (P : Config.Params) (src : Nat → Byte) (n depth : Nat) (c : Chains) (q anchor : Nat) : Option Found × Chains :=
  let c' := insertUpto P src c q
  (walk P src n q anchor c'.prev depth (Table.get c'.head (hcHash P src q)) none, c')

/-- Lazy matching (R164): while a search one position later finds a strictly longer match, it replaces the match. -/
def lazyMatch (P : Config.Params) (src : Nat → Byte) (n depth : Nat) : Nat → HcFinder → Found → Found × HcFinder
  | 0, f, m => (m, f)
  | fuel + 1, f, m =>
    if f.ip + 1 + Config.mfLimit < n then
      let r := find P src n depth f.chains (f.ip + 1) f.anchor
      match r.1 with
      | some m2 =>
        if m.len < m2.len then lazyMatch P src n depth fuel { f with ip := f.ip + 1, chains := r.2 } m2
        else (m, { f with chains := r.2 })
      | none => (m, { f with chains := r.2 })
    else (m, f)

/-- The sequence of a match and the cursors behind it (R163). -/
def hcTake (f : HcFinder) (m : Found) : SeqDesc × HcFinder :=
  (.matchSeq f.anchor (m.start - f.anchor) m.offset m.len, { f with ip := m.start + m.len, anchor := m.start + m.len })

/-- The loop of R163 up to its next match, at most `fuel` passes. -/
def hcScan (P : Config.Params) (src : Nat → Byte) (n depth : Nat) : Nat → HcFinder → Option SeqDesc × HcFinder
  | 0, f => (none, f)
  | fuel + 1, f =>
    if f.ip + Config.mfLimit < n then
      let r := find P src n depth f.chains f.ip f.anchor
      match r.1 with
      | none => hcScan P src n depth fuel { f with ip := f.ip + 1, chains := r.2 }
      | some m =>
        let l := lazyMatch P src n depth n { f with chains := r.2 } m
        ((hcTake l.2 l.1).1, (hcTake l.2 l.1).2)
    else (none, f)

/-- `parse_hc(depth)` (R163); `n + 1` passes and matches are enough (R169). -/
def parseHc (P : Config.Params) (src : Nat → Byte) (n depth : Nat) : List SeqDesc × HcFinder :=
  parseWith (hcScan P src n depth (n + 1)) HcFinder.anchor n (n + 1) HcFinder.init

/-- A state with the HC finder's cursors and tables. -/
def State.withHc (s : State) (f : HcFinder) : State :=
  { s with ip := f.ip, anchor := f.anchor, nti := f.chains.nti, head := f.chains.head, prev := f.chains.prev }

/-- The empty input or the empty output buffer, for which COMPRESS_HC does no search (R152). -/
def State.hcBypass (s : State) : Bool := s.n == 0 || s.cap == 0

/-- COMPRESS_HC below the tests (R150): parse at the depth of the clamped level, encode, write. -/
def State.compressChained (P : Config.Params) (s : State) : State :=
  let r := parseHc P s.srcByte s.n (P.depth (clampLevel s.level))
  State.emitBlock (State.withHc s r.2) (encodeBlock s.srcByte r.1)

/-- COMPRESS_HC (R150) for any parameters (R7): InputTooLarge first (R112); the degenerate operands as COMPRESS (R152). -/
def State.compressHcWith (P : Config.Params) (s : State) : State :=
  if P.maxInputSize < s.n then State.raise s .inputTooLarge
  else if State.hcBypass s then State.compressFast P s
  else State.compressChained P s

/-- COMPRESS_HC (R150) at the default parameters. -/
def execCompressHc (s : State) : Host.Outcome State Fault Refusal := .next (State.compressHcWith Config.params s)

end Sys2Proof.Machine
end

