-- ==== Sys2Proof/Machine/Sequences.lean ====
section
/-! DEFINITION. The composite WIRE rows SEQ.MATCH and SEQ.LAST. While a compressor runs, the Sequence Encoder writes them
(spec/42_sequence_encoder.md R132, R133). While the decoder runs, it reads them part by part (spec/45_block_decoder.md R182 to
R189; spec/30_encoding.md R72). Log entry 10. -/

namespace Sys2Proof.Machine

/-- Runs `f` when the decoder is in state `d`. An earlier part that failed or ended the block leaves it elsewhere. -/
def State.whenAt (s : State) (d : DState) (f : State → State) : State := if s.dstate = d then f s else s

/-- The first three parts of a sequence: token, literal extension, literals (R182 to R185). -/
def State.readLiteralPart (s : State) (lits : List Byte) (mnib : Nibble) : State :=
  let s1 := State.readToken s (lenNibble lits.length) mnib
  let s2 := (lenExt lits.length).foldl State.readExtension s1
  State.whenAt s2 .copyLiterals (fun t => State.copyLiterals t lits)

/-- All parts of a match sequence: the first three, offset, match extension, match copy (R182 to R188). -/
def State.readMatchSeq (s : State) (lits : List Byte) (d : BitVec 16) (mlen : Nat) : State :=
  let s1 := State.readLiteralPart s lits (lenNibble (mlen - Config.minMatch))
  let s2 := State.whenAt s1 .readOffset (fun t => State.readOffset t d)
  let s3 := (lenExt (mlen - Config.minMatch)).foldl State.readExtension s2
  State.whenAt s3 .copyMatch State.copyMatch

/-- SEQ.MATCH: written by the Sequence Encoder under COMPRESS and COMPRESS_HC (R132), read by the decoder under DECOMPRESS (R182
to R188). -/
def execSeqMatch (lits : List Byte) (d : BitVec 16) (mlen : Nat) (s : State) : Host.Outcome State Fault Refusal :=
  if State.encoding s then .next (State.putMatch s lits d mlen)
  else if State.decoderAt s .readToken then .next (State.readMatchSeq s lits d mlen)
  else .refused .wireOutOfPlace

/-- SEQ.LAST: written by the Sequence Encoder, which writes the match nibble as 0 and ends the compression (R133, R134), or read by the decoder (R182 to R185,
R189). -/
def execSeqLast (lits : List Byte) (mnib : Nibble) (s : State) : Host.Outcome State Fault Refusal :=
  if State.encoding s then .next (State.putLast s lits)
  else if State.decoderAt s .readToken then .next (State.readLiteralPart s lits mnib)
  else .refused .wireOutOfPlace

end Sys2Proof.Machine
end

