-- ==== Sys2Proof/Machine/Dispatch.lean ====
section
/-! DEFINITION. One arm per constructor of Instr, one call of its meaning (spec/30_encoding.md R82, spec/46_command_interface.md
R212). -/

namespace Sys2Proof.Machine

def exec (i : Instr) (s : State) : Host.Outcome State Fault Refusal :=
  match i with
  | .bound => Sys2Proof.Machine.execBound s
  | .compress => Sys2Proof.Machine.execCompress s
  | .compressHc => Sys2Proof.Machine.execCompressHc s
  | .decompress => Sys2Proof.Machine.execDecompress s
  | .token lnib mnib => Sys2Proof.Machine.execToken lnib mnib s
  | .lenextCont => Sys2Proof.Machine.execLenextCont s
  | .lenextTerm v => Sys2Proof.Machine.execLenextTerm v s
  | .offset d => Sys2Proof.Machine.execOffset d s
  | .literal b => Sys2Proof.Machine.execLiteral b s
  | .seqMatch lits d mlen => Sys2Proof.Machine.execSeqMatch lits d mlen s
  | .seqLast lits mnib => Sys2Proof.Machine.execSeqLast lits mnib s

end Sys2Proof.Machine
end

