-- ==== Sys2Proof/Machine/Codec.lean ====
section
/-! DEFINITION. The two agents' moves (spec/10_state.md R20): what the codec does when it moves, what a host action does, the
step of the machine for any parameters (spec/00_scope.md R7), and how a word is placed where the next instruction is fetched.
`step` only calls these. -/

namespace Sys2Proof.Machine

/-! ## The instructions for any parameters -/

/-- `exec` with the parameters as an argument (R7). Only BOUND and the two compressors read them; every other instruction is what
`exec` makes of it. `exec` itself is this at the default parameters. -/
def execWith (P : Config.Params) (i : Instr) (s : State) : Host.Outcome State Fault Refusal :=
  match i with
  | .bound => .next (State.boundWith P s)
  | .compress => .next (State.compressWith P s)
  | .compressHc => .next (State.compressHcWith P s)
  | .decompress => exec .decompress s
  | .token l m => exec (.token l m) s
  | .lenextCont => exec .lenextCont s
  | .lenextTerm v => exec (.lenextTerm v) s
  | .offset d => exec (.offset d) s
  | .literal b => exec (.literal b) s
  | .seqMatch lits d mlen => exec (.seqMatch lits d mlen) s
  | .seqLast lits mnib => exec (.seqLast lits mnib) s

/-! ## The codec -/

/-- The compressor's next sequence: the state after the match finder has run up to it, and the sequence as the instruction it
hands to the Sequence Encoder (R113, R163, R130). COMPRESS_HC with an empty operand searches as COMPRESS (R152). -/
def State.nextSequence (P : Config.Params) (s : State) : State × Instr :=
  if s.crOp = 2 ∧ State.hcBypass s = false then
    let f : HcFinder := { ip := s.ip, anchor := s.anchor, chains := { head := s.head, prev := s.prev, nti := s.nti } }
    match hcScan P s.srcByte s.n (P.depth (clampLevel s.level)) (s.n + 1) f with
    | (some q, f') => (State.withHc s f', SeqDesc.toInstr s.srcByte q)
    | (none, f') => (State.withHc s f', SeqDesc.toInstr s.srcByte (.lastSeq f'.anchor (s.n - f'.anchor)))
  else
    let f : FastFinder := { ip := s.ip, anchor := s.anchor, ht := s.ht }
    match fastScan P s.srcByte s.n (s.n + 1) f with
    | (some q, f') => (State.withFast s f', SeqDesc.toInstr s.srcByte q)
    | (none, f') => (State.withFast s f', SeqDesc.toInstr s.srcByte (.lastSeq f'.anchor (s.n - f'.anchor)))

/-- One elementary step of COMPRESS or COMPRESS_HC: the size test (R112), then the next sequence is found and written (R120: an
implementation may write sequences as they are found). -/
def compressTick (P : Config.Params) (s : State) : Host.Outcome State Fault Refusal :=
  if P.maxInputSize < s.n then .next (State.raise s .inputTooLarge)
  else exec (State.nextSequence P s).2 (State.nextSequence P s).1

/-- One elementary step of DECOMPRESS: the element the decoder state calls for is decoded and executed (R180, R182 to R188). -/
def decompressTick (s : State) : Host.Outcome State Fault Refusal :=
  match State.fetchWire s with
  | .element i => exec i s
  | .literals => .next (State.copyLiterals s (slice s.srcByte s.ip s.litlen))
  | .matchCopy => if s.op < s.offset.toNat then .fault .copyBelowStart else .next (State.copyMatch s)
  | .noInput => .next (State.failDecode s .inputTruncated)
  | .ended => .fault .decoderEnded

/-- One elementary step of the codec: nothing while it is idle (R249), else one step of the operation OP selects (R212). -/
def codecTick (P : Config.Params) (s : State) : Host.Outcome State Fault Refusal :=
  if s.phase = .busy then
    if s.crOp = 0 then execWith P .bound s
    else if s.crOp = 3 then decompressTick s
    else compressTick P s
  else .next s

/-- Whether the operation has been started and has not moved yet: the configuration START leaves (R211). -/
def State.fresh (s : State) : Bool := s.ip == 0 && s.op == 0 && s.dstate == .readToken

/-- The codec while the host does not act: an operation just started runs to its end in one step (R216); one that was seen
moving goes on by elementary steps; an idle codec stays (R249). -/
def codecRun (P : Config.Params) (s : State) : Host.Outcome State Fault Refusal :=
  if s.phase = .busy ∧ State.fresh s then execWith P (decodeOp s.crOp) s else codecTick P s

/-! ## The host -/

/-- The host places a byte in SRC. While BUSY, SRC[0..SRC_LEN) must not change (R265, I10). -/
def hostWriteSrc (s : State) (a : Word32) (b : Byte) : Host.Outcome State Fault Refusal :=
  if s.phase = .busy ∧ a.toNat < s.n then .refused .srcWriteWhileBusy
  else .next { s with src := Memory.write s.src a.toNat b }

/-- The host places a byte in DST. While BUSY, DST[0..DST_CAP) must not be written (R266, I10). -/
def hostWriteDst (s : State) (a : Word32) (b : Byte) : Host.Outcome State Fault Refusal :=
  if s.phase = .busy ∧ a.toNat < s.cap then .refused .dstWriteWhileBusy
  else .next { s with dst := Memory.write s.dst a.toNat b }

/-- The host reads a byte of DST. An early look, at DST[0..DST_CAP) while BUSY, returns any value (R266, I7). -/
def State.hostReadDst (s : State) (a : Word32) : State :=
  if s.phase = .busy ∧ a.toNat < s.cap then
    { s with rdata := (Config.freeRead s.freeReads).setWidth 32, freeReads := s.freeReads + 1 }
  else { s with rdata := (State.dstByte s a.toNat).setWidth 32 }

/-- The host waits for PHASE = DONE: while BUSY it keeps waiting and the codec moves (R269). `rest` is what the host does next.
DESIGN CHOICE, log entry 18: the spec does not say what a host does that waits while PHASE is IDLE (nothing was started, or a
reset came); the wait ends at once there although PHASE is not DONE. -/
def hostAwait (P : Config.Params) (s : State) (rest : List HostAction) : Host.Outcome State Fault Refusal :=
  if s.phase = .busy then codecRun P s else .next { s with host := rest }

/-- The next action of the host, in the state whose `host` still holds it; `rest` is what the host does after it. -/
def hostStep (P : Config.Params) (s : State) (rest : List HostAction) : HostAction → Host.Outcome State Fault Refusal
  | .writeReg r v => .next (State.writeReg { s with host := rest } r v)
  | .readReg r => .next { s with host := rest, rdata := State.readReg s r }
  | .writeSrc a b => hostWriteSrc { s with host := rest } a b
  | .writeDst a b => hostWriteDst { s with host := rest } a b
  | .readDst a => .next (State.hostReadDst { s with host := rest } a)
  | .reset => .next (State.hardReset { s with host := rest })
  | .await => hostAwait P s rest
  | .tick => codecTick P { s with host := rest }

/-! ## The machine for any parameters -/

/-- One step with the parameters as an argument (R7): the host's next action, or the codec's move while the host does not act. -/
def stepWith (P : Config.Params) (s : State) : Host.Outcome State Fault Refusal :=
  match s.host with
  | [] => codecRun P s
  | a :: rest => hostStep P s rest a

/-- The machine with the parameters as an argument (R7). `Sys2Proof.core` is this at the default parameters. -/
def coreWith (P : Config.Params) : Host.Core where
  State := State
  Fault := Fault
  Refusal := Refusal
  step := stepWith P
  reset := State.reset

/-! ## Placing an instruction -/

/-- A command in OP with START written: BUSY, nothing moved yet. -/
def State.placeCommand (s : State) (w : Nat) : State := State.start { s with crOp := BitVec.ofNat 2 w, host := [] }

/-- A block in SRC, the decoder running and in state `d` at its first byte. A token needs the host's tick, because a decoder in
its initial configuration would run to the end of the block in one step. -/
def State.placeWire (s : State) (d : DState) (bytes : List Byte) : State :=
  { State.start { s with
      crOp := 3
      srcLen := BitVec.ofNat 32 bytes.length
      src := Memory.writeList s.src 0 bytes
      host := if d = .readToken then [.tick] else [] } with
    litlen := Config.nibEsc
    dstate := d }

/-- The state in which the next step runs the instruction of a word, by the slot at which the word is read (log entry 8). -/
def State.placeWord (s : State) (nbits w : Nat) : State :=
  match tableSlot nbits w with
  | some .command => State.placeCommand s w
  | some .extension => State.placeWire s .readLiteralExtension (wordBytes ((nbits + 7) / 8) w)
  | some .offset => State.placeWire s .readOffset (wordBytes ((nbits + 7) / 8) w)
  | some .token => State.placeWire s .readToken (wordBytes ((nbits + 7) / 8) w)
  | some .literal => s
  | some .sequence => s
  | none => s

end Sys2Proof.Machine
end

