-- ==== Sys2Proof/Machine/Step.lean ====
section
/-! DEFINITION. One step of the machine: the host's next action, or the codec's move while the host does not act
(spec/10_state.md R20; log entry 1). -/

namespace Sys2Proof.Machine

/-- One step, at the default parameters of R7. -/
def step (s : State) : Host.Outcome State Fault Refusal := stepWith Config.params s

/-- The state in which the very next step runs the instruction of a table word (log entry 8). -/
def State.withFetchWord (s : State) (nbits w : Nat) : State := State.placeWord s nbits w

end Sys2Proof.Machine
end

