-- ==== Sys2Proof/Safety.lean ====
section
/-! DEFINITION. The terms in which claims about the machine are stated: the invariants of a safe run, what an instruction leaves
alone, well-formed blocks and parses, and runs of elementary steps. -/

namespace Sys2Proof.Machine

/-! ## Invariants -/

/-- Every byte space and table is in its canonical form. -/
abbrev State.MemOk (s : State) : Prop :=
  Memory.wf s.src ∧ Memory.wf s.dst ∧ Table.rising s.ht ∧ Table.rising s.head ∧ Table.rising s.prev

/-- The result registers (R25, R215): 0 beside a failure, and 0 while an operation runs. -/
abbrev State.ResultsOk (s : State) : Prop :=
  (s.status ≠ .ok → s.count = 0 ∧ s.produced = 0) ∧
  (s.phase = .busy → s.status = .ok ∧ s.count = 0 ∧ s.produced = 0)

/-- The cursors while an operation runs (R27, R51, R195): the input cursor within SRC, the output cursor within DST. -/
abbrev State.CursorsOk (s : State) : Prop :=
  s.phase = .busy → s.anchor ≤ s.ip ∧ s.ip ≤ s.n ∧ s.op ≤ s.cap

/-- Whether a decoder state has an offset that has passed the check of R186. -/
def DState.hasOffset : DState → Bool
  | .readMatchExtension => true
  | .copyMatch => true
  | .readToken => false
  | .readLiteralExtension => false
  | .copyLiterals => false
  | .readOffset => false
  | .done => false
  | .failed => false

/-- Every byte of DST below the output cursor holds a value of its own, so it was written (R58). -/
abbrev State.dstWritten (s : State) : Prop := ∀ a, a < s.op → (Table.get s.dst.cells a).isSome

/-- The decoder while DECOMPRESS runs: not in a terminal state, the offset legal where it is used (R186), the accumulators
bounded by the input consumed (R195), the output below `op` written (R58). -/
abbrev State.DecoderOk (s : State) : Prop :=
  s.phase = .busy → s.crOp = 3 →
    s.dstate.terminal = false ∧
    (s.dstate.hasOffset = true → 1 ≤ s.offset.toNat ∧ s.offset.toNat ≤ s.op) ∧
    s.litlen ≤ 15 + 255 * s.ip ∧ s.mlen ≤ 19 + 255 * s.ip ∧ State.dstWritten s

/-! ## Frames -/

/-- The operand registers, SRC and everything of the host are as before (R24, R50). -/
structure SameOperands (s t : State) : Prop where
  crOp : t.crOp = s.crOp
  srcLen : t.srcLen = s.srcLen
  dstCap : t.dstCap = s.dstCap
  level : t.level = s.level
  src : t.src = s.src
  host : t.host = s.host
  rdata : t.rdata = s.rdata
  freeReads : t.freeReads = s.freeReads

/-- The three tables are as before. -/
structure SameTables (s t : State) : Prop where
  ht : t.ht = s.ht
  head : t.head = s.head
  prev : t.prev = s.prev

/-- PHASE, STATUS, COUNT and PRODUCED are as before. -/
structure SameResults (s t : State) : Prop where
  phase : t.phase = s.phase
  status : t.status = s.status
  count : t.count = s.count
  produced : t.produced = s.produced

/-- Every byte of DST outside `[a, a + k)` reads as before. -/
abbrev State.sameDstOutside (s t : State) (a k : Nat) : Prop := ∀ x, x < a ∨ a + k ≤ x → t.dstByte x = s.dstByte x

/-- DST after a failure (R238): every byte below DST_CAP is the free value of a draw that no byte of the space had before, and
every byte at or beyond DST_CAP reads as before. -/
abbrev State.dstDrawn (s t : State) : Prop :=
  (∀ x, x < s.cap → t.dstByte x = Config.freeDstByte (s.dst.draws.length + 1) x) ∧
  (∀ x, s.cap ≤ x → t.dstByte x = s.dstByte x)

/-- A failed end (R236): the kind, the counts 0, DONE. -/
structure FailedWith (kind : ResultKind) (t : State) : Prop where
  status : t.status = kind
  count : t.count = 0
  produced : t.produced = 0
  phase : t.phase = .done

/-- A normal end (R237): Ok, the two counts, DONE. -/
structure EndedOk (count produced : Nat) (t : State) : Prop where
  status : t.status = .ok
  count : t.count.toNat = count
  produced : t.produced.toNat = produced
  phase : t.phase = .done

/-! ## Blocks and parses -/

/-- The bytes of a block in the first positions of a byte space. -/
abbrev holdsBytes (space : Nat → Byte) (bytes : List Byte) : Prop := ∀ i, i < bytes.length → bytes[i]? = some (space i)

/-- A parse that tiles `[from, n)` and meets the conditions of R124 and R166: matches of length at least 4 at offset 1 to 65535
that stays inside the input, no match start in the last 12 bytes, none ending in the last 5, equal bytes; exactly one last
sequence, at the end. -/
def ParseOk (src : Nat → Byte) (n : Nat) : List SeqDesc → Nat → Prop
  | [], _ => False
  | [.lastSeq a l], start => a = start ∧ a + l = n
  | .lastSeq _ _ :: _ :: _, _ => False
  | .matchSeq a l d m :: rest, start =>
    a = start ∧ 1 ≤ d ∧ d ≤ 65535 ∧ d ≤ a + l ∧ 4 ≤ m ∧ a + l + 12 < n ∧ a + l + m + 5 ≤ n ∧
    (∀ i, i < m → src (a + l + i) = src (a + l - d + i)) ∧ ParseOk src n rest (a + l + m)

/-- A list of sequences that tiles `[from, n)` with matches of length at least 4 (R136). -/
def Tiling (n : Nat) : List SeqDesc → Nat → Prop
  | [], _ => False
  | [.lastSeq a l], start => a = start ∧ a + l = n
  | .lastSeq _ _ :: _ :: _, _ => False
  | .matchSeq a l _ m :: rest, start => a = start ∧ 4 ≤ m ∧ Tiling n rest (a + l + m)

/-- The positions a search at `q` examines, nearest first (R157, R158, R162): the earlier positions with `q`'s hash inside the
window, at most `depth` of them. -/
def examined (P : Config.Params) (src : Nat → Byte) (q depth : Nat) : List Nat :=
  (((List.range q).reverse.filter (fun p => hcHash P src p == hcHash P src q)).takeWhile
    (fun p => decide (q - p ≤ Config.maxOffset))).take depth

/-- `p` is the largest position below `q` that satisfies `good`; `none` when there is none. -/
def isLatest (good : Nat → Prop) (q : Nat) : Option Nat → Prop
  | none => ∀ p, p < q → ¬ good p
  | some p => p < q ∧ good p ∧ ∀ p', p < p' → p' < q → ¬ good p'

/-- `cp` is the candidate that R102 and R106 give at `ip`, the largest earlier position with its hash, and it is valid (R114). -/
abbrev takeable (P : Config.Params) (src : Nat → Byte) (ip cp : Nat) : Prop :=
  isLatest (fun p => Machine.hash P src p P.fastHashLog = Machine.hash P src ip P.fastHashLog) ip (some cp) ∧
    validCand src cp ip = true

/-- The choices of the Fast parse (R113 to R119): no position before a match, and none of the last literal run outside the margin,
has a valid candidate; a match is the one its search position `ip` has, extended as R115 and R116 say. -/
def FastGreedy (P : Config.Params) (src : Nat → Byte) (n : Nat) : List SeqDesc → Prop
  | [] => True
  | .lastSeq a _ :: rest =>
    (∀ p, a ≤ p → p + 12 < n → ∀ cp, ¬ takeable P src p cp) ∧ FastGreedy P src n rest
  | .matchSeq a l d m :: rest =>
    (∃ ip cp, a ≤ ip ∧ ip + 12 < n ∧ (∀ p, a ≤ p → p < ip → ∀ cp', ¬ takeable P src p cp') ∧ takeable P src ip cp ∧
      d = ip - cp ∧ a + l = ip - backlen src cp ip a ∧ m = backlen src cp ip a + fwdLen src n cp ip) ∧
    FastGreedy P src n rest

/-- What `find` returns for a search position and an anchor, every earlier position being in the index (R156, R159). -/
abbrev found (P : Config.Params) (src : Nat → Byte) (n depth q anchor : Nat) : Option Found :=
  (find P src n depth HcFinder.init.chains q anchor).1

/-- The search at `p + 1` finds a strictly longer match than the search at `p` (R164). -/
abbrev improves (search : Nat → Option Found) (p : Nat) : Prop :=
  ∃ m m', search p = some m ∧ search (p + 1) = some m' ∧ m.len < m'.len

/-- The choices of the HC parse (R163 to R165): a search finds nothing before position `i`, and nothing in the last literal run
outside the margin; from `i` to `q` every search is improved by the next one, and the match is what the search at `q` finds,
which the search after it does not improve. -/
def HcGreedy (P : Config.Params) (src : Nat → Byte) (n depth : Nat) : List SeqDesc → Prop
  | [] => True
  | .lastSeq a _ :: rest => (∀ p, a ≤ p → p + 12 < n → found P src n depth p a = none) ∧ HcGreedy P src n depth rest
  | .matchSeq a l d m :: rest =>
    (∃ i q, a ≤ i ∧ i ≤ q ∧ q + 12 < n ∧ (∀ p, a ≤ p → p < i → found P src n depth p a = none) ∧
      (∀ p, i ≤ p → p < q → improves (fun p => found P src n depth p a) p) ∧
      found P src n depth q a = some { start := a + l, offset := d, len := m } ∧
      (q + 1 + 12 < n → ¬ improves (fun p => found P src n depth p a) q)) ∧
    HcGreedy P src n depth rest

/-! ## Runs of elementary steps -/

/-- `k` elementary steps of the codec, stopping at the first fault or refusal. -/
def tickRun (P : Config.Params) : Nat → State → Host.Outcome State Fault Refusal
  | 0, s => .next s
  | k + 1, s =>
    match codecTick P s with
    | .next t => tickRun P k t
    | .fault r => .fault r
    | .refused r => .refused r

/-- The LITERAL instructions of a run of literal bytes, executed one after another. -/
def literalRun : List Byte → State → Host.Outcome State Fault Refusal
  | [], s => .next s
  | b :: bs, s =>
    match exec (.literal b) s with
    | .next t => literalRun bs t
    | .fault r => .fault r
    | .refused r => .refused r

/-- The slot of a block the decoder state calls for, where an element is due that one instruction reads (R78). -/
def DState.slot : DState → Option Slot
  | .readToken => some .token
  | .readLiteralExtension => some .extension
  | .readOffset => some .offset
  | .readMatchExtension => some .extension
  | .copyLiterals => none
  | .copyMatch => none
  | .done => none
  | .failed => none

/-- The four operations (R22). -/
def isCommand : Instr → Bool
  | .bound => true
  | .compress => true
  | .compressHc => true
  | .decompress => true
  | .token _ _ => false
  | .lenextCont => false
  | .lenextTerm _ => false
  | .offset _ => false
  | .literal _ => false
  | .seqMatch _ _ _ => false
  | .seqLast _ _ => false

end Sys2Proof.Machine
end

