-- ==== Sys2Proof/Certificates/Slice0/Obligations.lean ====
section
/-! DEFINITION. The statements for the provers. Each docstring names the rule or section of spec/ the statement formalises. -/

open Sys2Proof Sys2Proof.Machine

/-! ## Encodings (spec/30_encoding.md, spec/42_sequence_encoder.md) -/

/-- R22, R71: OP 0 to 3 select the four operations, every value one and no two the same; SRC_LEN and DST_CAP are unsigned and
unscaled, LEVEL is clamped to 0..16, and no operation stops on an operand. -/
def Obligations.CommandFields : Prop :=
  decodeOp 0 = .bound ∧ decodeOp 1 = .compress ∧ decodeOp 2 = .compressHc ∧ decodeOp 3 = .decompress ∧
  (∀ op, isCommand (decodeOp op) = true) ∧ (∀ op op', decodeOp op = decodeOp op' → op = op') ∧
  ∀ s : State,
    s.n = s.srcLen.toNat ∧ s.cap = s.dstCap.toNat ∧
    (s.level.toInt < 0 → clampLevel s.level = 0) ∧
    (16 < s.level.toInt → clampLevel s.level = 16) ∧
    (0 ≤ s.level.toInt → s.level.toInt ≤ 16 → (clampLevel s.level : Int) = s.level.toInt) ∧
    ∀ i, isCommand i = true → ∃ t, exec i s = .next t

/-- R73: a token is `16 * lnib + mnib`, its nibbles are bits 7:4 and 3:0. -/
def Obligations.TokenIsTwoNibbles : Prop :=
  (∀ t : Byte, (tokenLit t).toNat = t.toNat / 16 ∧ (tokenMatch t).toNat = t.toNat % 16 ∧
    tokenByte (tokenLit t) (tokenMatch t) = t) ∧
  ∀ l m : Nibble, (tokenByte l m).toNat = 16 * l.toNat + m.toNat ∧ tokenLit (tokenByte l m) = l ∧
    tokenMatch (tokenByte l m) = m

/-- R52: an offset is little-endian, read and written. -/
def Obligations.OffsetIsLittleEndian : Prop :=
  (∀ b0 b1 : Byte, (le16 b0 b1).toNat = b0.toNat + 256 * b1.toNat ∧
    ∀ rest, decode .offset (b0 :: b1 :: rest) = .ok (.offset (le16 b0 b1), rest)) ∧
  ∀ d : BitVec 16, (lowByte d).toNat = d.toNat % 256 ∧ (highByte d).toNat = d.toNat / 256 ∧
    le16 (lowByte d) (highByte d) = d ∧ encode (.offset d) = [lowByte d, highByte d]

/-- R75: a length field below 15 is its nibble; 15 adds the extension bytes up to the first below 255; encoding a value and
reading it gives the value back; the rule's six examples. -/
def Obligations.LengthFieldsReadBack : Prop :=
  (∀ (nib : Nibble) (rest : List Byte), nib.toNat < 15 → readLen nib rest = some (nib.toNat, rest)) ∧
  (∀ (k : Nat) (e : Byte) (rest : List Byte), e ≠ 255 →
    readLen 15 (List.replicate k 255 ++ e :: rest) = some (15 + 255 * k + e.toNat, rest)) ∧
  (∀ (v : Nat) (rest : List Byte), (lenNibble v).toNat = min v 15 ∧
    lenExt v = (if 15 ≤ v then ext (v - 15) else []) ∧ readLen (lenNibble v) (lenExt v ++ rest) = some (v, rest)) ∧
  lenExt 14 = [] ∧ lenExt 15 = [0x00] ∧ lenExt 16 = [0x01] ∧ lenExt 269 = [0xFE] ∧ lenExt 270 = [0xFF, 0x00] ∧
  lenExt 525 = [0xFF, 0xFF, 0x00]

/-- R77: every length has exactly one encoding. -/
def Obligations.LengthEncodingIsUnique : Prop :=
  ∀ (nib : Nibble) (bytes rest : List Byte) (v : Nat),
    readLen nib bytes = some (v, rest) → nib = lenNibble v ∧ bytes = lenExt v ++ rest

/-- R131 and R135: the extension bytes of a remainder, and the sizes of the two kinds of sequence. -/
def Obligations.SequenceSizes : Prop :=
  (∀ r : Nat, ext r = List.replicate (r / 255) 255 ++ [BitVec.ofNat 8 (r % 255)] ∧ (ext r).length = r / 255 + 1) ∧
  ext 0 = [0x00] ∧ ext 21 = [0x15] ∧ ext 254 = [0xFE] ∧ ext 255 = [0xFF, 0x00] ∧ ext 300 = [0xFF, 0x2D] ∧
  ext 510 = [0xFF, 0xFF, 0x00] ∧
  (∀ (lits : List Byte) (d : BitVec 16) (m : Nat), 4 ≤ m →
    (encode (.seqMatch lits d m)).length =
      1 + (if lits.length < 15 then 0 else (lits.length - 15) / 255 + 1) + lits.length + 2 +
        (if m - 4 < 15 then 0 else (m - 4 - 15) / 255 + 1) ∧
    3 ≤ (encode (.seqMatch lits d m)).length ∧
    (lits = [] → m ≤ 18 → (encode (.seqMatch lits d m)).length = 3)) ∧
  ∀ (lits : List Byte) (m : Nibble), (encode (.seqLast lits m)).length =
    1 + (if lits.length < 15 then 0 else (lits.length - 15) / 255 + 1) + lits.length

/-- R70, R72 to R77: decoding the encoding of a well-formed instruction gives it back, with the bytes after it. A last sequence
is told by the end of the input (R78), so nothing follows it. -/
def Obligations.DecodeInvertsEncode : Prop :=
  ∀ (i : Instr) (rest : List Byte), WellFormed i = true → (∀ lits m, i = .seqLast lits m → rest = []) →
    decode (slotOf i) (encode i ++ rest) = .ok (i, rest)

/-- R72 to R77: what the decoder reads from a block is well formed, and its encoding is the bytes read: no bit of a block is
dropped. -/
def Obligations.EncodeInvertsDecode : Prop :=
  ∀ (slot : Slot) (bytes rest : List Byte) (i : Instr), slot ≠ .command →
    decode slot bytes = .ok (i, rest) → slotOf i = slot ∧ WellFormed i = true ∧ encode i ++ rest = bytes

/-- Words written out from the encodings of spec/30_encoding.md R70, R73 to R75 and spec/42_sequence_encoder.md R132, R133, each
decoded where it stands. That a bare byte 0 to 3, read without a place, is a command is the model's own choice (log entry 8): in
a block the same byte is a token, an extension byte or a literal. -/
def Obligations.SampleWordsDecode : Prop :=
  decode .command [0x00] = .ok (.bound, []) ∧ decode .command [0x01] = .ok (.compress, []) ∧
  decode .command [0x02] = .ok (.compressHc, []) ∧ decode .command [0x03] = .ok (.decompress, []) ∧
  decodeTableWord 8 0 = some .bound ∧ decodeTableWord 8 1 = some .compress ∧
  decodeTableWord 8 2 = some .compressHc ∧ decodeTableWord 8 3 = some .decompress ∧
  decode .token [0x1A] = .ok (.token 1 10, []) ∧
  decode .extension [0xFF] = .ok (.lenextCont, []) ∧
  decode .extension [0x2D] = .ok (.lenextTerm 0x2D, []) ∧
  decode .offset [0x24, 0x01] = .ok (.offset 0x0124, []) ∧
  decode .literal [0x61] = .ok (.literal 0x61, []) ∧
  decode .sequence [0x1F, 0x61, 0x01, 0x00, 0xFF, 0x2D, 0x50] = .ok (.seqMatch [0x61] 1 319, [0x50]) ∧
  decode .sequence [0x50, 0x74, 0x68, 0x69, 0x6E, 0x67] = .ok (.seqLast [0x74, 0x68, 0x69, 0x6E, 0x67] 0, [])

/-! ## The indexes (spec/40_hash_index.md, spec/44_hc_compress.md) -/

/-- R100: the hash is the top `log` bits of the 32-bit product; the mask does nothing; word 0 hashes to 0; equal words have
equal hashes; different words may have equal hashes; the rule's example. -/
def Obligations.HashIsTopBitsOfProduct : Prop :=
  (∀ (P : Config.Params) (src : Nat → Byte) (p log : Nat), log ≤ 32 →
    Machine.hash P src p log = (word4 src p * P.hashMult % 2 ^ 32) / 2 ^ (32 - log) ∧
    Machine.hash P src p log < 2 ^ log ∧
    (word4 src p = 0 → Machine.hash P src p log = 0) ∧
    ∀ q, word4 src q = word4 src p → Machine.hash P src q log = Machine.hash P src p log) ∧
  (∀ (src : Nat → Byte) (p : Nat), word4 src p =
    (src p).toNat + 2 ^ 8 * (src (p + 1)).toNat + 2 ^ 16 * (src (p + 2)).toNat + 2 ^ 24 * (src (p + 3)).toNat) ∧
  (∃ (src : Nat → Byte) (p q : Nat), word4 src p ≠ word4 src q ∧
    Machine.hash Config.params src p 12 = Machine.hash Config.params src q 12) ∧
  ∀ (src : Nat → Byte) (p : Nat), src p = 0x61 → src (p + 1) = 0x62 → src (p + 2) = 0x63 → src (p + 3) = 0x64 →
    word4 src p = 0x64636261 ∧ Machine.hash Config.params src p 12 = 1584 ∧ Machine.hash Config.params src p 15 = 12678

/-- R101: an insertion writes one bucket and keeps the newest position only; inserting again changes nothing; the rule's example.
R102, R106: a lookup reads that bucket; after the positions below `q` have been inserted in order, a lookup at `q` gives the
largest earlier position with the same hash. -/
def Obligations.FastIndexKeepsNewest : Prop :=
  (∀ (P : Config.Params) (src : Nat → Byte) (q : Nat),
    isLatest (fun p => Machine.hash P src p P.fastHashLog = Machine.hash P src q P.fastHashLog) q
      (lookupFast P src (insertRun P src q [] 0) q)) ∧
  ∀ (P : Config.Params) (src : Nat → Byte) (ht : Table Nat) (p : Nat),
    (∀ b, Table.get (insertFast P src ht p) b =
      if b = Machine.hash P src p P.fastHashLog then some p else Table.get ht b) ∧
    (∀ q, lookupFast P src ht q = Table.get ht (Machine.hash P src q P.fastHashLog)) ∧
    insertFast P src (insertFast P src ht p) p = insertFast P src ht p ∧ lookupFast P src [] p = none ∧
    (P = Config.params → p = 0 → src 0 = 0x61 → src 1 = 0x62 → src 2 = 0x63 → src 3 = 0x64 →
      Table.get (insertFast P src ht p) 1584 = some 0)

/-- R155: an insertion into the chained index puts the position at the front of its bucket's chain and changes nothing else; the
chain of a position is kept at `p mod 65536` with the default CHAIN_SIZE; the rule's example. -/
def Obligations.ChainInsertGoesToFront : Prop :=
  Config.params.chainSize = 65536 ∧
  (∀ src : Nat → Byte, (∀ a, a < 20 → src a = 0x61) →
    Table.get (insertHc Config.params src (insertHc Config.params src HcFinder.init.chains 0) 1).head 4761 = some 1 ∧
    Table.get (insertHc Config.params src (insertHc Config.params src HcFinder.init.chains 0) 1).prev 1 = some 0 ∧
    Table.get (insertHc Config.params src (insertHc Config.params src HcFinder.init.chains 0) 1).prev 0 = none) ∧
  ∀ (P : Config.Params) (src : Nat → Byte) (c : Chains) (p : Nat),
    (∀ b, Table.get (insertHc P src c p).head b = if b = hcHash P src p then some p else Table.get c.head b) ∧
    (∀ b, Table.get (insertHc P src c p).prev b =
      if b = p % P.chainSize then Table.get c.head (hcHash P src p) else Table.get c.prev b) ∧
    (insertHc P src c p).nti = c.nti

/-- R156, R157, R158: once the positions below `q` are in the index, whether inserted at once or from an index that already held
the positions below `k`, the head of a bucket is its largest position below `q`, and the link of a position that is not more than
CHAIN_SIZE behind is the largest earlier position with its hash. -/
def Obligations.ChainLinksNearestEarlier : Prop :=
  (∀ (P : Config.Params) (src : Nat → Byte) (k q : Nat), k ≤ q →
    insertUpto P src (insertUpto P src HcFinder.init.chains k) q = insertUpto P src HcFinder.init.chains q ∧
    insertUpto P src (insertUpto P src HcFinder.init.chains q) k = insertUpto P src HcFinder.init.chains q) ∧
  ∀ (P : Config.Params) (src : Nat → Byte) (q : Nat), P.Ok →
    (insertUpto P src HcFinder.init.chains q).nti = q ∧
    (∀ h, isLatest (fun p => hcHash P src p = h) q (Table.get (insertUpto P src HcFinder.init.chains q).head h)) ∧
    ∀ p, p < q → q ≤ p + P.chainSize →
      isLatest (fun p' => hcHash P src p' = hcHash P src p) p
        (Table.get (insertUpto P src HcFinder.init.chains q).prev (p % P.chainSize))

/-- R159 to R162: from an index that holds the positions below any `k ≤ q`, a search at `q` puts the positions below `q` into it,
examines the nearest earlier positions with the same hash inside the window, at most `depth` of them, and returns the longest
match among them, at the smallest offset where several are longest. -/
def Obligations.SearchFindsLongestNearest : Prop :=
  ∀ (P : Config.Params) (src : Nat → Byte) (n depth k q anchor : Nat) (c : Chains), P.Ok → k ≤ q →
    c = insertUpto P src HcFinder.init.chains k →
    (find P src n depth c q anchor).2 = insertUpto P src HcFinder.init.chains q ∧
    (find P src n depth c q anchor).1 =
      ((examined P src q depth).map (candidate src n q anchor)).foldl better none ∧
    ((find P src n depth c q anchor).1 = none →
      ∀ cp ∈ examined P src q depth, candidate src n q anchor cp = none) ∧
    ∀ m, (find P src n depth c q anchor).1 = some m →
      (∃ cp ∈ examined P src q depth, candidate src n q anchor cp = some m) ∧
      ∀ cp ∈ examined P src q depth, ∀ m', candidate src n q anchor cp = some m' →
        m'.len ≤ m.len ∧ (m'.len = m.len → m.offset ≤ m'.offset)

/-! ## The parses (spec/00_scope.md R11, spec/41_fast_compress.md, spec/44_hc_compress.md) -/

/-- R11, R115: `common` is the largest number of equal bytes forward of `a` and `b` that stays within `lim`, and reads no byte at
or above `lim`. The backward extension stays at or after `anchor` and position 0, runs over equal bytes, and is the largest that
does. -/
def Obligations.ExtensionsAreLongest : Prop :=
  (∀ (src : Nat → Byte) (a b lim : Nat), a < b → b ≤ lim →
    b + common src a b lim ≤ lim ∧ (∀ i, i < common src a b lim → src (a + i) = src (b + i)) ∧
    (∀ k, b + k ≤ lim → (∀ i, i < k → src (a + i) = src (b + i)) → k ≤ common src a b lim) ∧
    ∀ src' : Nat → Byte, (∀ x, x < lim → src' x = src x) → common src' a b lim = common src a b lim) ∧
  ∀ (src : Nat → Byte) (q ip anchor : Nat), anchor ≤ ip →
    anchor + backlen src q ip anchor ≤ ip ∧ backlen src q ip anchor ≤ q ∧
    (∀ i, 1 ≤ i → i ≤ backlen src q ip anchor → src (ip - i) = src (q - i)) ∧
    ∀ b, anchor + b ≤ ip → b ≤ q → (∀ i, 1 ≤ i → i ≤ b → src (ip - i) = src (q - i)) → b ≤ backlen src q ip anchor

/-- R124: the Fast parse tiles the input, keeps the margins, and its matches copy equal bytes; for any values of the parameters.
R106, R113 to R119: it takes the match of every position that has a valid candidate, so that no position of a literal run outside
the margin has one, and extends it as the rules say. -/
def Obligations.FastParseInvariants : Prop :=
  ∀ (P : Config.Params) (src : Nat → Byte) (n : Nat),
    ParseOk src n (parseFast P src n).1 0 ∧ FastGreedy P src n (parseFast P src n).1

/-- R166: the same of the HC parse, at any depth. R163 to R165: a literal run holds only positions whose search finds nothing or
is improved by the search one position later, and each match is the one its last search finds, which the next does not improve. -/
def Obligations.HcParseInvariants : Prop :=
  ∀ (P : Config.Params) (src : Nat → Byte) (n depth : Nat),
    ParseOk src n (parseHc P src n depth).1 0 ∧ HcGreedy P src n depth (parseHc P src n depth).1

/-- R123, R169: the parses end because the input is used up to its margin; the bounds on the passes never cut them short. R164:
lazy matching moves on while, and only while, the search one position later is inside the margin and strictly longer; its bound
never cuts it short either. The searches are those from the index the lazy loop starts with. -/
def Obligations.ParsesRunToTheMargin : Prop :=
  (∀ (P : Config.Params) (src : Nat → Byte) (n depth : Nat),
    n ≤ (parseFast P src n).2.ip + 12 ∧ n ≤ (parseHc P src n depth).2.ip + 12) ∧
  ∀ (P : Config.Params) (src : Nat → Byte) (n depth : Nat) (f f' : HcFinder) (m m' : Found) (search : Nat → Option Found),
    (∀ p, search p = (find P src n depth f.chains p f.anchor).1) → lazyMatch P src n depth n f m = (m', f') →
    f'.anchor = f.anchor ∧ f.ip ≤ f'.ip ∧ (f'.ip = f.ip → m' = m) ∧
    (f.ip < f'.ip → f'.ip + 12 < n ∧ search f'.ip = some m' ∧ ∃ m1, search (f.ip + 1) = some m1 ∧ m.len < m1.len) ∧
    (∀ p, f.ip < p → p < f'.ip → improves search p) ∧
    (n ≤ f'.ip + 1 + 12 ∨ ∀ m2, search (f'.ip + 1) = some m2 → m2.len ≤ m'.len)

/-- R121: inputs below 13 bytes are one last sequence that holds all their bytes; 0 bytes give the one byte 00. -/
def Obligations.SmallInputsAreLiterals : Prop :=
  ∀ (P : Config.Params) (src : Nat → Byte) (n depth : Nat), n < 13 →
    (parseFast P src n).1 = [.lastSeq 0 n] ∧ (parseHc P src n depth).1 = [.lastSeq 0 n] ∧
    encodeBlock src (parseFast P src n).1 = BitVec.ofNat 8 (16 * n) :: slice src 0 n ∧
    encodeBlock src (parseFast P src 0).1 = [0x00]

/-- R136: a block of sequences that tile `n` bytes has at most `n + n div 255 + 2` bytes. -/
def Obligations.BlockSizeBound : Prop :=
  ∀ (src : Nat → Byte) (n : Nat) (seqs : List SeqDesc), Tiling n seqs 0 →
    (encodeBlock src seqs).length ≤ n + n / 255 + 2

/-! ## BOUND (spec/43_bound.md) -/

/-- R141, R142, R144: the bound, that it fits 32 bits, and the rule's examples. -/
def Obligations.BoundFormula : Prop :=
  (∀ (P : Config.Params) (n : Nat), (n ≤ P.maxInputSize → bound P n = n + n / 255 + 16 ∧ 16 ≤ bound P n) ∧
    (P.maxInputSize < n → bound P n = 0) ∧ (P.Ok → bound P n < 2 ^ 32 ∧ (0x80000000 ≤ n → bound P n = 0))) ∧
  (∀ n, bound Config.params n ≤ 2122219150) ∧ 2122219150 < 2 ^ 31 ∧
  bound Config.params 0 = 16 ∧ bound Config.params 1 = 17 ∧ bound Config.params 254 = 270 ∧
  bound Config.params 255 = 272 ∧ bound Config.params 256 = 273 ∧ bound Config.params 360 = 377 ∧
  bound Config.params 370 = 387 ∧ bound Config.params 65536 = 65809 ∧
  bound Config.params 0x7E000000 = 2122219150 ∧ bound Config.params 0x7E000001 = 0 ∧
  bound Config.params 0xFFFFFFFF = 0 ∧
  ∀ s : State, s.srcLen = 255 → ∃ t, exec .bound s = .next t ∧ EndedOk 272 0 t

/-- R140: BOUND always ends Ok with the bound in COUNT and 0 in PRODUCED, and touches nothing else. -/
def Obligations.BoundCompletes : Prop :=
  ∀ s : State, ∃ t, exec .bound s = .next t ∧ EndedOk (bound Config.params s.n) 0 t ∧ SameOperands s t ∧
    SameTables s t ∧ t.dst = s.dst ∧ t.ip = s.ip ∧ t.anchor = s.anchor ∧ t.op = s.op ∧ t.nti = s.nti ∧
    t.litlen = s.litlen ∧ t.mlen = s.mlen ∧ t.offset = s.offset ∧ t.mnib = s.mnib ∧ t.dstate = s.dstate

/-! ## COMPRESS and COMPRESS_HC (spec/41_fast_compress.md, spec/44_hc_compress.md) -/

/-- R110, R113, R134: COMPRESS of an admissible input whose block fits ends Ok: the block of the Fast parse in DST, its length in
COUNT and PRODUCED, the rest of DST and the chained index as before. -/
def Obligations.CompressCompletes : Prop :=
  ∀ (s : State) (block : List Byte), s.n ≤ Config.params.maxInputSize →
    block = encodeBlock s.srcByte (parseFast Config.params s.srcByte s.n).1 → block.length ≤ s.cap →
    ∃ t, exec .compress s = .next t ∧ EndedOk block.length block.length t ∧ t.op = block.length ∧
      holdsBytes t.dstByte block ∧ State.sameDstOutside s t 0 block.length ∧ SameOperands s t ∧
      t.ht = (parseFast Config.params s.srcByte s.n).2.ht ∧ t.head = s.head ∧ t.prev = s.prev ∧ t.nti = s.nti ∧
      t.litlen = s.litlen ∧ t.mlen = s.mlen ∧ t.offset = s.offset ∧ t.mnib = s.mnib ∧ t.dstate = s.dstate

/-- R150, R153, R163: COMPRESS_HC of an admissible non-empty input whose block fits ends Ok, with the block of the HC parse at the
depth of the clamped level, and the Fast table as before. -/
def Obligations.CompressHcCompletes : Prop :=
  ∀ (s : State) (block : List Byte), s.n ≤ Config.params.maxInputSize → 0 < s.n → 0 < s.cap →
    block = encodeBlock s.srcByte
      (parseHc Config.params s.srcByte s.n (Config.params.depth (clampLevel s.level))).1 → block.length ≤ s.cap →
    ∃ t, exec .compressHc s = .next t ∧ EndedOk block.length block.length t ∧ t.op = block.length ∧
      holdsBytes t.dstByte block ∧ State.sameDstOutside s t 0 block.length ∧ SameOperands s t ∧ t.ht = s.ht ∧
      t.litlen = s.litlen ∧ t.mlen = s.mlen ∧ t.offset = s.offset ∧ t.mnib = s.mnib ∧ t.dstate = s.dstate

/-- R120, R167: the compressors report InsufficientOutputSpace exactly when the block is longer than DST_CAP, with both counts
0; in particular always when DST_CAP is 0, for the empty input too; a block that fits exactly succeeds. -/
def Obligations.SpaceTestIsExact : Prop :=
  ∀ s : State, s.n ≤ Config.params.maxInputSize →
    ((∃ t, exec .compress s = .next t ∧ FailedWith .insufficientOutputSpace t) ↔
      s.cap < (encodeBlock s.srcByte (parseFast Config.params s.srcByte s.n).1).length) ∧
    (s.cap = (encodeBlock s.srcByte (parseFast Config.params s.srcByte s.n).1).length →
      ∃ t, exec .compress s = .next t ∧ t.status = .ok) ∧
    (s.cap = 0 → (∃ t, exec .compress s = .next t ∧ FailedWith .insufficientOutputSpace t) ∧
      ∃ t, exec .compressHc s = .next t ∧ FailedWith .insufficientOutputSpace t) ∧
    (0 < s.n → 0 < s.cap →
      ((∃ t, exec .compressHc s = .next t ∧ FailedWith .insufficientOutputSpace t) ↔
        s.cap < (encodeBlock s.srcByte
          (parseHc Config.params s.srcByte s.n (Config.params.depth (clampLevel s.level))).1).length))

/-- R112, R239, R241 (1): an input above MAX_INPUT_SIZE ends both compressors with InputTooLarge before anything else, whatever
DST_CAP is; no table is touched. R7: for every value of the parameter MAX_INPUT_SIZE. -/
def Obligations.TooLargeIsReportedFirst : Prop :=
  ∀ (P : Config.Params) (s : State) (i : Instr), i = .compress ∨ i = .compressHc → P.maxInputSize < s.n →
    ∃ t, execWith P i s = .next t ∧ (P = Config.params → exec i s = .next t) ∧ FailedWith .inputTooLarge t ∧
      SameTables s t ∧ SameOperands s t ∧ t.ip = s.ip ∧ t.anchor = s.anchor ∧ t.op = s.op ∧ t.nti = s.nti

/-- R152: COMPRESS_HC with an empty input or an empty output buffer gives the result of COMPRESS and touches neither HEAD nor
PREV; the empty input gives the one byte 00. The size test of R112 still comes first, as the pseudocode of R150 has it. -/
def Obligations.HcBypassIsCompress : Prop :=
  ∀ s : State, s.n = 0 ∨ s.cap = 0 →
    exec .compressHc s = exec .compress s ∧
    (∀ t, exec .compressHc s = .next t → t.head = s.head ∧ t.prev = s.prev) ∧
    (s.n = 0 → 0 < s.cap → ∃ t, exec .compressHc s = .next t ∧ EndedOk 1 1 t ∧ t.dstByte 0 = 0x00) ∧
    (s.cap = 0 → s.n ≤ Config.params.maxInputSize →
      ∃ t, exec .compressHc s = .next t ∧ FailedWith .insufficientOutputSpace t)

/-- R143, R122: with DST_CAP at least `bound(n)` neither compressor, at any level, lacks space; the block has at most
`n + n div 255 + 2` bytes. -/
def Obligations.BoundBufferSuffices : Prop :=
  ∀ (s : State) (i : Instr), i = .compress ∨ i = .compressHc → s.n ≤ Config.params.maxInputSize →
    bound Config.params s.n ≤ s.cap →
    ∃ t, exec i s = .next t ∧ t.status = .ok ∧ t.count.toNat ≤ s.n + s.n / 255 + 2 ∧
      s.n + s.n / 255 + 2 ≤ bound Config.params s.n

/-- R111: what COMPRESS produces decodes to its input: DECOMPRESS of the block with the input's length as capacity ends Ok, has
read the whole block, and DST holds the input. R8: for every value of the parameters. -/
def Obligations.CompressRoundTrip : Prop :=
  ∀ (P : Config.Params) (s t u : State), execWith P .compress s = .next t → t.status = .ok →
    u.srcLen = t.count → u.dstCap = s.srcLen → (∀ i, i < u.n → u.srcByte i = t.dstByte i) →
    ∃ v, exec .decompress u = .next v ∧ EndedOk t.count.toNat s.n v ∧ ∀ i, i < s.n → v.dstByte i = s.srcByte i

/-- R151: what COMPRESS_HC produces decodes to its input, at every level. R8: for every value of the parameters. -/
def Obligations.CompressHcRoundTrip : Prop :=
  ∀ (P : Config.Params) (s t u : State), execWith P .compressHc s = .next t → t.status = .ok →
    u.srcLen = t.count → u.dstCap = s.srcLen → (∀ i, i < u.n → u.srcByte i = t.dstByte i) →
    ∃ v, exec .decompress u = .next v ∧ EndedOk t.count.toNat s.n v ∧ ∀ i, i < s.n → v.dstByte i = s.srcByte i

/-- R196: a block of either compressor without its last byte ends DECOMPRESS with InputTruncated, for every
value of the parameters. -/
def Obligations.TruncatedBlockIsReported : Prop :=
  ∀ (P : Config.Params) (s t u : State) (i : Instr), i = .compress ∨ i = .compressHc → execWith P i s = .next t →
    t.status = .ok →
    u.n + 1 = t.count.toNat → u.dstCap = s.srcLen → (∀ j, j < u.n → u.srcByte j = t.dstByte j) →
    ∃ v, exec .decompress u = .next v ∧ FailedWith .inputTruncated v

/-! ## DECOMPRESS and the elements of a block (spec/45_block_decoder.md) -/

/-- R180, R189, R190, R192, R238: DECOMPRESS always ends, for every block: Ok with the whole input read and at most DST_CAP bytes
written, the rest of DST as before; or Failed with one of its three kinds and every byte of DST from DST_CAP on as before. -/
def Obligations.DecompressAlwaysEnds : Prop :=
  ∀ s : State, ∃ t, exec .decompress s = .next t ∧ SameOperands s t ∧ SameTables s t ∧ t.anchor = s.anchor ∧
    t.nti = s.nti ∧
    ((t.dstate = .done ∧ EndedOk s.n t.op t ∧ t.ip = s.n ∧ t.op ≤ s.cap ∧ State.sameDstOutside s t 0 t.op) ∨
      (t.dstate = .failed ∧ ∃ kind, (kind = .outputOverrun ∨ kind = .inputTruncated ∨ kind = .corruptOffset) ∧
        FailedWith kind t ∧ ∀ x, s.cap ≤ x → t.dstByte x = s.dstByte x))

/-- R180, R185, R189, R80: a block that is one last sequence of at most DST_CAP literals decodes to its literals, whatever the
unused match nibble of its token is. -/
def Obligations.DecompressCompletes : Prop :=
  ∀ (s : State) (lits : List Byte) (mnib : Nibble), s.n = (encodeLast lits mnib).length →
    holdsBytes s.srcByte (encodeLast lits mnib) → lits.length ≤ s.cap →
    ∃ t, exec .decompress s = .next t ∧ EndedOk s.n lits.length t ∧ t.ip = s.n ∧ t.op = lits.length ∧
      t.dstate = .done ∧ holdsBytes t.dstByte lits ∧ State.sameDstOutside s t 0 lits.length ∧ SameOperands s t ∧
      SameTables s t

/-- R182: ReadToken. -/
def Obligations.TokenCompletes : Prop :=
  ∀ (P : Config.Params) (s : State) (l m : Nibble), State.decoderAt s .readToken = true →
    (s.ip < s.n → exec (.token l m) s = .next
      { s with
        ip := s.ip + 1
        litlen := l.toNat
        mnib := m
        dstate := if l = 15 then .readLiteralExtension else .copyLiterals } ∧
      codecTick P s = exec (.token (tokenLit (s.srcByte s.ip)) (tokenMatch (s.srcByte s.ip))) s) ∧
    (s.n ≤ s.ip → ∃ t, codecTick P s = .next t ∧ exec (.token l m) s = .next t ∧ FailedWith .inputTruncated t ∧
      t.dstate = .failed)

/-- R183 and R187: an extension byte adds its value to the length; 255 calls for another one, every other byte ends the
extension; no byte left is InputTruncated. -/
def Obligations.ExtensionBytesAccumulate : Prop :=
  ∀ (P : Config.Params) (s : State),
    (State.decoderAt s .readLiteralExtension = true → s.ip < s.n →
      codecTick P s = exec (decodeExt (s.srcByte s.ip)) s ∧
      exec .lenextCont s = .next { s with ip := s.ip + 1, litlen := s.litlen + 255 } ∧
      ∀ v : Byte, v ≠ 255 → exec (.lenextTerm v) s =
        .next { s with ip := s.ip + 1, litlen := s.litlen + v.toNat, dstate := .copyLiterals }) ∧
    (State.decoderAt s .readMatchExtension = true → s.ip < s.n →
      codecTick P s = exec (decodeExt (s.srcByte s.ip)) s ∧
      exec .lenextCont s = .next { s with ip := s.ip + 1, mlen := s.mlen + 255 } ∧
      ∀ v : Byte, v ≠ 255 → exec (.lenextTerm v) s =
        .next { s with ip := s.ip + 1, mlen := s.mlen + v.toNat, dstate := .copyMatch }) ∧
    (State.extensionDue s = true → s.n ≤ s.ip →
      ∃ t, codecTick P s = .next t ∧ exec .lenextCont s = .next t ∧ (∀ v, exec (.lenextTerm v) s = .next t) ∧
        FailedWith .inputTruncated t ∧ t.dstate = .failed)

/-- R184 (one literal of the run) and R185: LITERAL copies its byte to `DST[op]` and moves both cursors; the last literal of a run
ends the block when the input is used up, and else the offset is due. That `litlen` counts down is the model's (log entry 9). -/
def Obligations.LiteralCompletes : Prop :=
  ∀ (s : State) (b : Byte), State.decoderAt s .copyLiterals = true → 0 < s.litlen → s.litlen ≤ s.cap - s.op →
    s.litlen ≤ s.n - s.ip →
    ∃ t, exec (.literal b) s = .next t ∧ t.dstByte s.op = b ∧ State.sameDstOutside s t s.op 1 ∧ t.ip = s.ip + 1 ∧
      t.op = s.op + 1 ∧ t.litlen = s.litlen - 1 ∧ SameOperands s t ∧ SameTables s t ∧ t.anchor = s.anchor ∧
      t.nti = s.nti ∧ t.mlen = s.mlen ∧ t.offset = s.offset ∧ t.mnib = s.mnib ∧
      (1 < s.litlen → t.dstate = .copyLiterals ∧ SameResults s t) ∧
      (s.litlen = 1 → s.ip + 1 = s.n → t.dstate = .done ∧ EndedOk s.n (s.op + 1) t) ∧
      (s.litlen = 1 → s.ip + 1 ≠ s.n → t.dstate = .readOffset ∧ SameResults s t)

/-- R184, R185: CopyLiterals. Both checks come before any byte is copied, the destination check first; the run is copied; the
block ends when the input is used up. -/
def Obligations.CopyLiteralsRule : Prop :=
  ∀ (P : Config.Params) (s : State), State.decoderAt s .copyLiterals = true → State.CursorsOk s →
    ∃ t, codecTick P s = .next t ∧ SameOperands s t ∧ SameTables s t ∧
      (s.cap - s.op < s.litlen → FailedWith .outputOverrun t ∧ t.dstate = .failed) ∧
      (s.litlen ≤ s.cap - s.op → s.n - s.ip < s.litlen → FailedWith .inputTruncated t ∧ t.dstate = .failed) ∧
      (s.litlen ≤ s.cap - s.op → s.litlen ≤ s.n - s.ip →
        (∀ i, i < s.litlen → t.dstByte (s.op + i) = s.srcByte (s.ip + i)) ∧ State.sameDstOutside s t s.op s.litlen ∧
        t.ip = s.ip + s.litlen ∧ t.op = s.op + s.litlen ∧ t.litlen = s.litlen ∧ t.mnib = s.mnib ∧
        (s.ip + s.litlen = s.n → t.dstate = .done ∧ EndedOk s.n (s.op + s.litlen) t) ∧
        (s.ip + s.litlen ≠ s.n → t.dstate = .readOffset ∧ SameResults s t))

/-- R184 with the table's row LITERAL ("a literal run is litlen such bytes"): executing the run's LITERAL instructions one after
another is the CopyLiterals step, but for `litlen`, which the single instructions count down (log entry 9). -/
def Obligations.LiteralRunIsCopyLiterals : Prop :=
  ∀ (P : Config.Params) (s : State) (lits : List Byte), State.decoderAt s .copyLiterals = true → 0 < s.litlen →
    s.litlen ≤ s.cap - s.op → s.litlen ≤ s.n - s.ip → lits = slice s.srcByte s.ip s.litlen →
    ∃ t u, literalRun lits s = .next t ∧ codecTick P s = .next u ∧ t = { u with litlen := 0 }

/-- R186: ReadOffset. Two bytes must be left; then 0 and an offset beyond the bytes written are CorruptOffset. -/
def Obligations.OffsetCompletes : Prop :=
  ∀ (P : Config.Params) (s : State) (d : BitVec 16), State.decoderAt s .readOffset = true →
    (s.n - s.ip < 2 → ∃ t, codecTick P s = .next t ∧ exec (.offset d) s = .next t ∧ FailedWith .inputTruncated t ∧
      t.dstate = .failed) ∧
    (2 ≤ s.n - s.ip → codecTick P s = exec (.offset (le16 (s.srcByte s.ip) (s.srcByte (s.ip + 1)))) s ∧
      (d = 0 ∨ s.op < d.toNat → ∃ t, exec (.offset d) s = .next t ∧ FailedWith .corruptOffset t ∧
        t.dstate = .failed) ∧
      (d ≠ 0 → d.toNat ≤ s.op → exec (.offset d) s = .next
        { s with
          ip := s.ip + 2
          offset := d
          mlen := s.mnib.toNat + 4
          dstate := if s.mnib = 15 then .readMatchExtension else .copyMatch }))

/-- R188: CopyMatch. The check comes before any byte; the bytes written are the `offset` bytes before `op`, repeated cyclically; no
input is consumed and the next token is due. -/
def Obligations.CopyMatchRule : Prop :=
  ∀ (P : Config.Params) (s : State), State.decoderAt s .copyMatch = true → 1 ≤ s.offset.toNat → s.offset.toNat ≤ s.op →
    ∃ t, codecTick P s = .next t ∧ SameOperands s t ∧ SameTables s t ∧ t.ip = s.ip ∧ t.offset = s.offset ∧
      (s.cap - s.op < s.mlen → FailedWith .outputOverrun t ∧ t.dstate = .failed) ∧
      (s.mlen ≤ s.cap - s.op →
        (∀ i, i < s.mlen → t.dstByte (s.op + i) = s.dstByte (s.op - s.offset.toNat + i % s.offset.toNat)) ∧
        State.sameDstOutside s t s.op s.mlen ∧ t.op = s.op + s.mlen ∧ t.dstate = .readToken ∧ SameResults s t)

/-- R132, R133, R137, R120: under a compressor SEQ.MATCH and SEQ.LAST append their bytes at `op`, the match nibble of a last
token as 0; bytes that do not fit are InsufficientOutputSpace. That SEQ.LAST, executed as an instruction, also ends the compressor,
Ok with `op` in both counts (R110, R134, R237), is the model's reading (DEDUCED, log entry 10). -/
def Obligations.SequencesAreWritten : Prop :=
  ∀ (s : State) (lits : List Byte) (d : BitVec 16) (mlen : Nat) (mnib : Nibble), State.encoding s = true →
    (s.op + (encodeMatch lits d mlen).length ≤ s.cap →
      ∃ t, exec (.seqMatch lits d mlen) s = .next t ∧
        holdsBytes (fun i => t.dstByte (s.op + i)) (encodeMatch lits d mlen) ∧
        State.sameDstOutside s t s.op (encodeMatch lits d mlen).length ∧
        t.op = s.op + (encodeMatch lits d mlen).length ∧ SameOperands s t ∧ SameTables s t ∧ SameResults s t ∧
        t.ip = s.ip ∧ t.anchor = s.anchor ∧ t.nti = s.nti) ∧
    (s.cap < s.op + (encodeMatch lits d mlen).length →
      ∃ t, exec (.seqMatch lits d mlen) s = .next t ∧ FailedWith .insufficientOutputSpace t) ∧
    (s.op + (encodeLast lits 0).length ≤ s.cap →
      ∃ t, exec (.seqLast lits mnib) s = .next t ∧
        holdsBytes (fun i => t.dstByte (s.op + i)) (encodeLast lits 0) ∧
        State.sameDstOutside s t s.op (encodeLast lits 0).length ∧ SameOperands s t ∧ SameTables s t ∧
        EndedOk (s.op + (encodeLast lits 0).length) (s.op + (encodeLast lits 0).length) t ∧
        t.op = s.op + (encodeLast lits 0).length ∧ t.ip = s.ip ∧ t.anchor = s.anchor ∧ t.nti = s.nti) ∧
    (s.cap < s.op + (encodeLast lits 0).length →
      ∃ t, exec (.seqLast lits mnib) s = .next t ∧ FailedWith .insufficientOutputSpace t)

/-- R72, R78, R182 to R189: under DECOMPRESS a whole sequence, decoded at the input cursor and executed as one instruction, is
what the decoder's elementary steps make of it, whether it ends well or fails. -/
def Obligations.SequenceIsItsElements : Prop :=
  ∀ (P : Config.Params) (s : State) (i : Instr) (rest : List Byte), State.decoderAt s .readToken = true →
    decode .sequence (slice s.srcByte s.ip (s.n - s.ip)) = .ok (i, rest) →
    ∃ k t, tickRun P k s = .next t ∧ exec i s = .next t

/-! ## An operation as one step and step by step (spec/46_command_interface.md R216) -/

/-- R216, R192: DECOMPRESS as one step is the run of its elementary steps, which are at most `2n + 2`. -/
def Obligations.DecompressIsItsSteps : Prop :=
  ∀ (P : Config.Params) (s : State), s.crOp = 3 →
    ∃ k, k ≤ 2 * s.n + 2 ∧ tickRun P k (State.start s) = exec .decompress (State.start s)

/-- R216, R120: a compressor that writes each sequence as it finds it ends with the same results and the same DST as one that
builds the block first; for every value of the parameters. -/
def Obligations.CompressorIsItsSteps : Prop :=
  ∀ (P : Config.Params) (s : State), s.crOp = 1 ∨ s.crOp = 2 →
    ∃ k t u, tickRun P k (State.start s) = .next t ∧ execWith P (decodeOp s.crOp) (State.start s) = .next u ∧
      SameResults u t ∧ t.phase = .done ∧ t.dst = u.dst

/-- R60, R219: the result of an operation is a function of SRC_LEN, DST_CAP, LEVEL and SRC[0..SRC_LEN) alone; old tables, old DST
and everything else play no part. -/
def Obligations.ResultDependsOnOperandsOnly : Prop :=
  ∀ (i : Instr) (s s' t t' : State), isCommand i = true → s'.srcLen = s.srcLen → s'.dstCap = s.dstCap →
    s'.level = s.level → (∀ a, a < s.n → s'.srcByte a = s.srcByte a) → exec i s = .next t → exec i s' = .next t' →
    SameResults t t' ∧ (t.status = .ok → ∀ a, a < t.produced.toNat → t'.dstByte a = t.dstByte a)

/-- R238: after a failed operation every byte of DST below DST_CAP is a fresh free value and every other byte is as before; after
Ok the bytes at or beyond PRODUCED are as before; BOUND leaves all of DST. -/
def Obligations.DstAfterAnOperation : Prop :=
  ∀ (i : Instr) (s t : State), isCommand i = true → exec i s = .next t →
    (t.status ≠ .ok → State.dstDrawn s t) ∧
    (t.status = .ok → ∀ x, t.produced.toNat ≤ x → t.dstByte x = s.dstByte x) ∧
    (i = .bound → ∀ x, t.dstByte x = s.dstByte x)

/-- R24, R50, R63, R30 to R32, R152: no instruction writes an operand register or SRC, or anything of the host's; only COMPRESS,
and COMPRESS_HC where it acts as COMPRESS, write HT; only COMPRESS_HC with a search writes HEAD, PREV and `nti`. -/
def Obligations.WhatInstructionsNeverWrite : Prop :=
  ∀ (i : Instr) (s t : State), exec i s = .next t →
    SameOperands s t ∧
    (i ≠ .compress → i ≠ .compressHc → SameTables s t ∧ t.nti = s.nti) ∧
    (i = .compress → t.head = s.head ∧ t.prev = s.prev ∧ t.nti = s.nti) ∧
    (i = .compressHc → State.hcBypass s = false → t.ht = s.ht)

/-! ## The command interface (spec/46_command_interface.md, spec/70_reset_and_hazards.md) -/

/-- R35, R260: after reset the command and working registers are 0, `dstate` is ReadToken, and no byte of SRC or DST has a value
of its own. That every table entry is `none` is the model's choice (log entry 3). -/
def Obligations.ResetState : Prop :=
  State.reset.phase = .idle ∧ State.reset.status = .ok ∧ State.reset.count = 0 ∧ State.reset.produced = 0 ∧
  State.reset.crOp = 0 ∧ State.reset.srcLen = 0 ∧ State.reset.dstCap = 0 ∧ State.reset.level = 0 ∧
  State.readReg State.reset .start = 0 ∧ State.reset.ip = 0 ∧ State.reset.anchor = 0 ∧ State.reset.op = 0 ∧
  State.reset.nti = 0 ∧ State.reset.litlen = 0 ∧ State.reset.mlen = 0 ∧ State.reset.offset = 0 ∧
  State.reset.mnib = 0 ∧ State.reset.dstate = .readToken ∧
  (∀ a, State.reset.srcByte a = Config.freeSrcByte 0 a ∧ State.reset.dstByte a = Config.freeDstByte 0 a) ∧
  State.reset.ht = [] ∧ State.reset.head = [] ∧ State.reset.prev = []

/-- R261: a reset while BUSY ends the operation without a result, and every byte of DST[0..DST_CAP) takes a fresh free value. R35,
R260: a reset in any phase sets all command and working registers to 0, `dstate` to ReadToken. That it comes as a host action,
leaves the host's own data, and draws every byte of SRC and DST anew is the model's choice (log entries 2 and 17). -/
def Obligations.ResetWhileBusy : Prop :=
  ∀ (s : State) (rest : List HostAction), s.host = .reset :: rest →
    ∃ t, step s = .next t ∧ t.phase = .idle ∧ t.status = .ok ∧ t.count = 0 ∧ t.produced = 0 ∧
      t.crOp = 0 ∧ t.srcLen = 0 ∧ t.dstCap = 0 ∧ t.level = 0 ∧ (∀ r, State.readReg t r = 0) ∧
      t.ip = 0 ∧ t.anchor = 0 ∧ t.op = 0 ∧ t.nti = 0 ∧ t.litlen = 0 ∧ t.mlen = 0 ∧ t.offset = 0 ∧ t.mnib = 0 ∧
      t.dstate = .readToken ∧ t.host = rest ∧ t.rdata = s.rdata ∧ t.freeReads = s.freeReads ∧
      (∀ x, x < s.cap → t.dstByte x = Config.freeDstByte (s.dst.draws.length + 1) x) ∧
      ∀ x, x < addressCount → t.dstByte x = Config.freeDstByte (s.dst.draws.length + 1) x ∧
        t.srcByte x = Config.freeSrcByte (s.src.draws.length + 1) x

/-- R211, R212: writing 1 to START while not BUSY clears results, working registers and tables, enters BUSY and leaves operands
and byte spaces; the operation OP selects then runs. Writing 0 does nothing. The rule's example. R214: while BUSY a host write to
CR0 to CR4 is ignored. The model's own reading (DEDUCED, log entry 6): of a 32-bit word written to START only bit 0 counts, so
that any word with bit 0 set starts and any other does nothing, and a write to the read-only CR5 to CR8 changes nothing, while
BUSY or not. -/
def Obligations.StartRunsTheSelectedOperation : Prop :=
  (∀ (s : State) (v : Word32) (rest : List HostAction), s.host = .writeReg .start v :: rest →
    (s.phase ≠ .busy → v.getLsbD 0 = true →
      ∃ t, step s = .next t ∧ t.phase = .busy ∧ t.status = .ok ∧ t.count = 0 ∧ t.produced = 0 ∧ t.ip = 0 ∧
        t.anchor = 0 ∧ t.op = 0 ∧ t.nti = 0 ∧ t.litlen = 0 ∧ t.mlen = 0 ∧ t.offset = 0 ∧ t.mnib = 0 ∧
        t.dstate = .readToken ∧ t.ht = [] ∧ t.head = [] ∧ t.prev = [] ∧ t.host = rest ∧
        SameOperands { s with host := rest } t ∧ t.dst = s.dst ∧
        (rest = [] → step t = exec (decodeOp s.crOp) t)) ∧
    (v.getLsbD 0 = false → step s = .next { s with host := rest })) ∧
  (∀ (s : State) (r : CReg) (v : Word32) (rest : List HostAction), s.phase = .busy →
    s.host = .writeReg r v :: rest → step s = .next { s with host := rest }) ∧
  (∀ (s : State) (r : CReg) (v : Word32) (rest : List HostAction),
    r = .phase ∨ r = .status ∨ r = .count ∨ r = .produced →
    s.host = .writeReg r v :: rest → step s = .next { s with host := rest }) ∧
  ∃ t, Host.Core.run core 4 { State.reset with
      host := [.writeReg .srcLen 255, .writeReg .op 0, .writeReg .start 1] } = .next t ∧ EndedOk 272 0 t

/-- R215: any command register may be read at any time, without a side effect; START reads as 0; the operands read as written;
while BUSY the result registers read 0. R21, R25, R231: PHASE and STATUS read the numbers of the phase and of the result kind,
COUNT and PRODUCED their values, in every phase. That OP takes the written word mod 4 is the model's reading (DEDUCED, log
entry 6). -/
def Obligations.RegisterReads : Prop :=
  (∀ (s : State) (r : CReg) (rest : List HostAction), s.host = .readReg r :: rest →
    step s = .next { s with host := rest, rdata := State.readReg s r }) ∧
  (∀ s : State, State.readReg s .start = 0 ∧ (State.readReg s .op).toNat = s.crOp.toNat ∧
    State.readReg s .srcLen = s.srcLen ∧ State.readReg s .dstCap = s.dstCap ∧ State.readReg s .level = s.level ∧
    (s.phase = .idle → State.readReg s .phase = 0) ∧ (s.phase = .busy → State.readReg s .phase = 1) ∧
    (s.phase = .done → State.readReg s .phase = 2) ∧
    (s.status = .ok → State.readReg s .status = 0) ∧
    (s.status = .insufficientOutputSpace → State.readReg s .status = 1) ∧
    (s.status = .outputOverrun → State.readReg s .status = 2) ∧
    (s.status = .inputTruncated → State.readReg s .status = 3) ∧
    (s.status = .corruptOffset → State.readReg s .status = 4) ∧
    (s.status = .inputTooLarge → State.readReg s .status = 5) ∧
    State.readReg s .count = s.count ∧ State.readReg s .produced = s.produced) ∧
  (∀ s : State, State.ResultsOk s → s.phase = .busy →
    State.readReg s .status = 0 ∧ State.readReg s .count = 0 ∧ State.readReg s .produced = 0) ∧
  ∀ (s : State) (v : Word32), s.phase ≠ .busy → State.readReg (State.writeReg s .srcLen v) .srcLen = v ∧
    State.readReg (State.writeReg s .dstCap v) .dstCap = v ∧ State.readReg (State.writeReg s .level v) .level = v ∧
    (State.readReg (State.writeReg s .op v) .op).toNat = v.toNat % 4

/-- R210, R213, R249: PHASE becomes BUSY only by START, IDLE only by reset, DONE only from BUSY; in DONE the results stay until
START or reset; an idle codec stays as it is. -/
def Obligations.PhaseTransitions : Prop :=
  (∀ s t : State, step s = .next t →
    (s.phase ≠ .busy → t.phase = .busy →
      ∃ v rest, s.host = .writeReg .start v :: rest ∧ v.getLsbD 0 = true) ∧
    (s.phase ≠ .idle → t.phase = .idle → ∃ rest, s.host = .reset :: rest) ∧
    (s.phase = .idle → t.phase ≠ .done) ∧
    (s.phase = .done → t.phase = .done → SameResults s t)) ∧
  ∀ s : State, s.phase ≠ .busy → s.host = [] → step s = .next s

/-- R265, R266, I10: a step is refused exactly when the host writes SRC[0..SRC_LEN) or DST[0..DST_CAP) while BUSY. R50, R57: any
other host write places its byte and leaves every other byte and all else as before. A host read of DST returns the byte, or a
free value when it is an early look (R266, I7); that `rdata` and `freeReads` hold this is the model's choice (log entry 4). -/
def Obligations.OnlyHostWritesAreRefused : Prop :=
  (∀ (s : State) (a : Word32) (b : Byte) (rest : List HostAction), s.host = .writeSrc a b :: rest →
    ¬ (s.phase = .busy ∧ a.toNat < s.n) →
    ∃ t, step s = .next t ∧ t.srcByte a.toNat = b ∧ (∀ x, x ≠ a.toNat → t.srcByte x = s.srcByte x) ∧
      t = { s with host := rest, src := t.src }) ∧
  (∀ (s : State) (a : Word32) (b : Byte) (rest : List HostAction), s.host = .writeDst a b :: rest →
    ¬ (s.phase = .busy ∧ a.toNat < s.cap) →
    ∃ t, step s = .next t ∧ t.dstByte a.toNat = b ∧ (∀ x, x ≠ a.toNat → t.dstByte x = s.dstByte x) ∧
      t = { s with host := rest, dst := t.dst }) ∧
  (∀ (s : State) (a : Word32) (rest : List HostAction), s.host = .readDst a :: rest →
    (¬ (s.phase = .busy ∧ a.toNat < s.cap) →
      step s = .next { s with host := rest, rdata := (s.dstByte a.toNat).setWidth 32 }) ∧
    (s.phase = .busy → a.toNat < s.cap → step s = .next
      { s with
        host := rest
        rdata := (Config.freeRead s.freeReads).setWidth 32
        freeReads := s.freeReads + 1 })) ∧
  ∀ (s : State) (r : Refusal), step s = .refused r ↔
    s.phase = .busy ∧
      ((r = .srcWriteWhileBusy ∧ ∃ a b rest, s.host = .writeSrc a b :: rest ∧ a.toNat < s.n) ∨
       (r = .dstWriteWhileBusy ∧ ∃ a b rest, s.host = .writeDst a b :: rest ∧ a.toNat < s.cap))

/-- spec/93_implementation_defined.md, end of section 1: no behaviour of the codec is a fault. -/
def Obligations.NoFaultInSafeStates : Prop :=
  ∀ (s : State) (r : Fault), State.DecoderOk s → step s ≠ .fault r

/-- R20, R27, R212: a step runs what it fetches. With no host action a freshly started operation is executed whole. Under a tick,
or once it has moved, the bytes at `ip` that decode to an instruction are executed as that instruction; a compressor executes
the sequence its match finder hands over. R7: `exec` and `step` are the machine with parameters at their defaults. -/
def Obligations.StepRunsTheDecodedInstruction : Prop :=
  (∀ (i : Instr) (s : State), exec i s = execWith Config.params i s ∧ step s = stepWith Config.params s) ∧
  (∀ s : State, s.phase = .busy → State.fresh s = true → s.host = [] → step s = exec (decodeOp s.crOp) s) ∧
  (∀ (s : State) (slot : Slot) (i : Instr) (more : List Byte), s.phase = .busy → s.crOp = 3 →
    s.dstate.slot = some slot → decode slot (slice s.srcByte s.ip (s.n - s.ip)) = .ok (i, more) →
    (∀ rest, s.host = .tick :: rest → step s = exec i { s with host := rest }) ∧
    (s.host = [] → State.fresh s = false → step s = exec i s)) ∧
  ∀ (s : State) (rest : List HostAction), s.phase = .busy → s.crOp = 1 ∨ s.crOp = 2 →
    s.n ≤ Config.params.maxInputSize → s.host = .tick :: rest →
    step s = exec (State.nextSequence Config.params { s with host := rest }).2
      (State.nextSequence Config.params { s with host := rest }).1

/-! ## Invariants -/

/-- The invariants hold after reset. -/
def Obligations.InvariantsHoldAtReset : Prop :=
  State.reset.MemOk ∧ State.reset.ResultsOk ∧ State.reset.CursorsOk ∧ State.reset.DecoderOk

/-- R30 to R33, R50: every step keeps the byte spaces and tables in their canonical form. -/
def Obligations.CanonicalFormIsKept : Prop :=
  ∀ s t : State, State.MemOk s → step s = .next t → State.MemOk t

/-- R25, R215: every step keeps COUNT and PRODUCED 0 beside a failure, and all results 0 while BUSY. -/
def Obligations.ResultRegistersAreKept : Prop :=
  ∀ s t : State, State.ResultsOk s → step s = .next t → State.ResultsOk t

/-- R27, R51, R195: every step keeps the input cursor within SRC and the output cursor within DST while an operation runs. -/
def Obligations.CursorsStayInRange : Prop :=
  ∀ s t : State, State.CursorsOk s → step s = .next t → State.CursorsOk t

/-- R58, R186, R191, R195: every step keeps the decoder's invariant: no terminal state while BUSY, a checked offset where one is
used, bounded length accumulators, every byte below `op` written. -/
def Obligations.DecoderInvariantIsKept : Prop :=
  ∀ s t : State, State.DecoderOk s → step s = .next t → State.DecoderOk t
end

