-- ==== Sys2Proof/Laws/Config.lean ====
section
/-! SUPPORT. The default parameters meet the requirements of spec/00_scope.md R8. -/

namespace Sys2Proof.Config

theorem params_ok : params.Ok where
  fastLow := by decide
  fastHigh := by decide
  hcLow := by decide
  hcHigh := by decide
  multFits := by decide
  depthPos := fun lvl _ => Nat.one_le_two_pow
  depthMono := fun _ _ h _ => Nat.pow_le_pow_right (by decide) h
  sizeFits := by decide
  boundFits := by decide
  chainBig := by decide

end Sys2Proof.Config
end

