-- ==== Sys2Proof/Laws/Memory.lean ====
section
/-! SUPPORT. Tables and byte spaces: a read after a write, what a write leaves alone, and that every operation keeps the
canonical form. -/

namespace Sys2Proof.Machine

variable {α : Type}

/-! ## Tables -/

@[simp] theorem Table.get_nil (a : Nat) : Table.get ([] : Table α) a = none := rfl

/-- A read of the index written. -/
@[simp] theorem Table.get_set_same (t : Table α) (a : Nat) (v : α) : Table.get (Table.set t a v) a = some v := by
  induction t with
  | nil => simp [Table.set, Table.get]
  | cons c t ih =>
    obtain ⟨k, w⟩ := c
    by_cases h1 : a < k
    · simp [Table.set, h1, Table.get]
    · by_cases h2 : k = a
      · simp [Table.set, h2, Table.get]
      · simp [Table.set, h1, h2, Table.get, ih]

/-- A write leaves every other index alone. -/
theorem Table.get_set_other (t : Table α) {a b : Nat} (v : α) (h : b ≠ a) :
    Table.get (Table.set t a v) b = Table.get t b := by
  induction t with
  | nil => simp [Table.set, Table.get, Ne.symm h]
  | cons c t ih =>
    obtain ⟨k, w⟩ := c
    by_cases h1 : a < k
    · simp [Table.set, h1, Table.get, Ne.symm h]
    · by_cases h2 : k = a
      · subst h2
        simp [Table.set, Table.get, Ne.symm h]
      · simp [Table.set, h1, h2, Table.get, ih]

/-- What a write makes of every index. -/
theorem Table.get_set (t : Table α) (a b : Nat) (v : α) :
    Table.get (Table.set t a v) b = if b = a then some v else Table.get t b := by
  split
  · next h => rw [h, Table.get_set_same]
  · next h => exact Table.get_set_other t v h

/-- The indexes listed after a write. -/
theorem Table.mem_set {t : Table α} {a : Nat} {v : α} {c : Nat × α} (h : c ∈ Table.set t a v) : c = (a, v) ∨ c ∈ t := by
  induction t with
  | nil => simpa [Table.set] using h
  | cons d t ih =>
    obtain ⟨k, w⟩ := d
    unfold Table.set at h
    split at h
    · rcases List.mem_cons.1 h with h | h
      · exact .inl h
      · exact .inr h
    · split at h
      · rcases List.mem_cons.1 h with h | h
        · exact .inl h
        · exact .inr (List.mem_cons_of_mem _ h)
      · rcases List.mem_cons.1 h with h | h
        · exact .inr (h ▸ List.mem_cons_self)
        · rcases ih h with h | h
          · exact .inl h
          · exact .inr (List.mem_cons_of_mem _ h)

/-- A write keeps the indexes rising. -/
theorem Table.rising_set {t : Table α} (h : Table.rising t) (a : Nat) (v : α) : Table.rising (Table.set t a v) := by
  induction t with
  | nil => simp [Table.set, Table.rising]
  | cons d t ih =>
    obtain ⟨k, w⟩ := d
    have hk := List.pairwise_cons.1 h
    unfold Table.set
    split
    · next h1 =>
      refine List.pairwise_cons.2 ⟨?_, h⟩
      intro c hc
      rcases List.mem_cons.1 hc with rfl | hc
      · exact h1
      · exact lt_trans h1 (hk.1 c hc)
    · next h1 =>
      split
      · next h2 =>
        subst h2
        exact List.pairwise_cons.2 ⟨fun c hc => hk.1 c hc, hk.2⟩
      · next h2 =>
        refine List.pairwise_cons.2 ⟨?_, ih hk.2⟩
        intro c hc
        rcases Table.mem_set hc with rfl | hc
        · show k < a
          omega
        · exact hk.1 c hc

/-- Keeping some of the entries keeps the indexes rising. -/
theorem Table.rising_filter {t : Table α} (h : Table.rising t) (p : Nat × α → Bool) : Table.rising (t.filter p) :=
  List.Pairwise.filter p h

/-- What dropping the low entries leaves. -/
theorem Table.get_dropBelow (t : Table α) (n a : Nat) :
    Table.get (Table.dropBelow t n) a = if n ≤ a then Table.get t a else none := by
  induction t with
  | nil => simp [Table.dropBelow]
  | cons c t ih =>
    obtain ⟨k, w⟩ := c
    unfold Table.dropBelow at ih ⊢
    by_cases hk : n ≤ k
    · rw [List.filter_cons_of_pos (by simpa using hk)]
      unfold Table.get
      rw [ih]
      by_cases h : k = a
      · subst h
        simp [hk]
      · simp [h]
    · rw [List.filter_cons_of_neg (by simpa using hk), ih]
      by_cases h : n ≤ a
      · have : k ≠ a := by omega
        simp [Table.get, h, this]
      · simp [h]

/-- What a put makes of every index. -/
theorem Table.get_put (t : Table α) (a b : Nat) (o : Option α) :
    Table.get (Table.put t a o) b = if b = a then o else Table.get t b := by
  cases o with
  | some v => exact Table.get_set t a b v
  | none =>
    show Table.get (t.filter (fun c => c.1 != a)) b = _
    induction t with
    | nil => simp
    | cons c t ih =>
      obtain ⟨k, w⟩ := c
      by_cases hk : k = a
      · subst hk
        rw [List.filter_cons_of_neg (by simp), ih]
        by_cases h : b = k
        · simp [h]
        · simp [h, Table.get, Ne.symm h]
      · rw [List.filter_cons_of_pos (by simpa using hk)]
        unfold Table.get
        rw [ih]
        by_cases h : k = b
        · subst h
          simp [hk]
        · simp [h]

/-- A put keeps the indexes rising. -/
theorem Table.rising_put {t : Table α} (h : Table.rising t) (a : Nat) (o : Option α) : Table.rising (Table.put t a o) := by
  cases o with
  | some v => exact Table.rising_set h a v
  | none => exact Table.rising_filter h _

/-! ## Byte spaces -/

variable (free : Nat → Nat → Byte)

/-- A byte holds the last value written to it (R57). -/
@[simp] theorem Memory.read_write_same (m : Memory) (a : Nat) (b : Byte) :
    Memory.read free (Memory.write m a b) a = b := by
  simp [Memory.read, Memory.write]

/-- A write leaves every other byte alone. -/
theorem Memory.read_write_other (m : Memory) {a x : Nat} (b : Byte) (h : x ≠ a) :
    Memory.read free (Memory.write m a b) x = Memory.read free m x := by
  simp [Memory.read, Memory.write, Table.get_set_other _ _ h]

/-- A run of writes leaves every byte outside it alone. -/
theorem Memory.read_writeList_outside (bs : List Byte) :
    ∀ (m : Memory) (a x : Nat), x < a ∨ a + bs.length ≤ x →
      Memory.read free (Memory.writeList m a bs) x = Memory.read free m x := by
  induction bs with
  | nil => intro m a x _; rfl
  | cons b bs ih =>
    intro m a x hx
    simp only [List.length_cons] at hx
    rw [Memory.writeList, ih _ _ _ (by omega), Memory.read_write_other free m b (by omega)]

/-- A run of writes puts its bytes at their addresses. -/
theorem Memory.read_writeList_inside (bs : List Byte) :
    ∀ (m : Memory) (a i : Nat) (h : i < bs.length), Memory.read free (Memory.writeList m a bs) (a + i) = bs[i] := by
  induction bs with
  | nil => intro m a i h; exact absurd h (Nat.not_lt_zero i)
  | cons b bs ih =>
    intro m a i h
    cases i with
    | zero =>
      rw [Memory.writeList, Memory.read_writeList_outside free bs _ _ _ (by omega)]
      exact Memory.read_write_same free m a b
    | succ i =>
      have h' : i < bs.length := by simpa using h
      rw [Memory.writeList, show a + (i + 1) = a + 1 + i by omega, ih _ _ _ h']
      rfl

/-- Bytes at or above `n` keep their value when the bytes below `n` are forgotten (R238). -/
theorem Memory.read_forget_high (m : Memory) {n x : Nat} (h : n ≤ x) :
    Memory.read free (Memory.forget m n) x = Memory.read free m x := by
  have h' : ¬ x < n := by omega
  simp [Memory.read, Memory.forget, Table.get_dropBelow, h, Memory.drawAt, h']

/-- Bytes below `n` are the free values of a new draw when they are forgotten (R238). -/
theorem Memory.read_forget_low (m : Memory) {n x : Nat} (h : x < n) :
    Memory.read free (Memory.forget m n) x = free (m.draws.length + 1) x := by
  have h' : ¬ n ≤ x := by omega
  simp [Memory.read, Memory.forget, Table.get_dropBelow, h', Memory.drawAt, h]

/-- A byte-serial copy leaves every byte outside its destination alone. -/
theorem Memory.read_copySerial_outside (m : Memory) (o off k x : Nat) (hx : x < o ∨ o + k ≤ x) :
    Memory.read free (Memory.copySerial free m o off k) x = Memory.read free m x := by
  induction k with
  | zero => rfl
  | succ k ih =>
    unfold Memory.copySerial
    rw [Memory.read_write_other free _ _ (by omega), ih (by omega)]

/-! ## The canonical form -/

theorem Memory.wf_write {m : Memory} (h : Memory.wf m) {a : Nat} (ha : a < addressCount) (b : Byte) :
    Memory.wf (Memory.write m a b) := by
  refine ⟨Table.rising_set h.1 a b, ?_⟩
  intro c hc
  rcases Table.mem_set hc with rfl | hc
  · exact ha
  · exact h.2 c hc

theorem Memory.wf_writeList (bs : List Byte) :
    ∀ {m : Memory}, Memory.wf m → ∀ (a : Nat), a + bs.length ≤ addressCount → Memory.wf (Memory.writeList m a bs) := by
  induction bs with
  | nil => intro m h a _; exact h
  | cons b bs ih =>
    intro m h a ha
    simp only [List.length_cons] at ha
    exact ih (Memory.wf_write h (by omega) b) (a + 1) (by omega)

theorem Memory.wf_forget {m : Memory} (h : Memory.wf m) (n : Nat) : Memory.wf (Memory.forget m n) :=
  ⟨Table.rising_filter h.1 _, fun c hc => h.2 c (List.mem_filter.1 hc).1⟩

theorem Memory.wf_copySerial {m : Memory} (h : Memory.wf m) (o off k : Nat) (hk : o + k ≤ addressCount) :
    Memory.wf (Memory.copySerial free m o off k) := by
  induction k with
  | zero => exact h
  | succ k ih => exact Memory.wf_write (ih (by omega)) (by omega) _

end Sys2Proof.Machine
end

