-- ==== Sys2Proof/Laws/State.lean ====
section
/-! SUPPORT. Each whole-record update of State, field by field: what the field is afterwards. Proofs rewrite with these and never
unfold an update. -/

namespace Sys2Proof.Machine

/-! ## raise -/

@[simp] theorem State.raise_crOp (s : State) (k : ResultKind) : (State.raise s k).crOp = s.crOp := rfl
@[simp] theorem State.raise_srcLen (s : State) (k : ResultKind) : (State.raise s k).srcLen = s.srcLen := rfl
@[simp] theorem State.raise_dstCap (s : State) (k : ResultKind) : (State.raise s k).dstCap = s.dstCap := rfl
@[simp] theorem State.raise_level (s : State) (k : ResultKind) : (State.raise s k).level = s.level := rfl
@[simp] theorem State.raise_phase (s : State) (k : ResultKind) : (State.raise s k).phase = .done := rfl
@[simp] theorem State.raise_status (s : State) (k : ResultKind) : (State.raise s k).status = k := rfl
@[simp] theorem State.raise_count (s : State) (k : ResultKind) : (State.raise s k).count = 0 := rfl
@[simp] theorem State.raise_produced (s : State) (k : ResultKind) : (State.raise s k).produced = 0 := rfl
@[simp] theorem State.raise_ip (s : State) (k : ResultKind) : (State.raise s k).ip = s.ip := rfl
@[simp] theorem State.raise_anchor (s : State) (k : ResultKind) : (State.raise s k).anchor = s.anchor := rfl
@[simp] theorem State.raise_op (s : State) (k : ResultKind) : (State.raise s k).op = s.op := rfl
@[simp] theorem State.raise_nti (s : State) (k : ResultKind) : (State.raise s k).nti = s.nti := rfl
@[simp] theorem State.raise_litlen (s : State) (k : ResultKind) : (State.raise s k).litlen = s.litlen := rfl
@[simp] theorem State.raise_mlen (s : State) (k : ResultKind) : (State.raise s k).mlen = s.mlen := rfl
@[simp] theorem State.raise_offset (s : State) (k : ResultKind) : (State.raise s k).offset = s.offset := rfl
@[simp] theorem State.raise_mnib (s : State) (k : ResultKind) : (State.raise s k).mnib = s.mnib := rfl
@[simp] theorem State.raise_dstate (s : State) (k : ResultKind) : (State.raise s k).dstate = s.dstate := rfl
@[simp] theorem State.raise_ht (s : State) (k : ResultKind) : (State.raise s k).ht = s.ht := rfl
@[simp] theorem State.raise_head (s : State) (k : ResultKind) : (State.raise s k).head = s.head := rfl
@[simp] theorem State.raise_prev (s : State) (k : ResultKind) : (State.raise s k).prev = s.prev := rfl
@[simp] theorem State.raise_src (s : State) (k : ResultKind) : (State.raise s k).src = s.src := rfl
@[simp] theorem State.raise_dst (s : State) (k : ResultKind) : (State.raise s k).dst = Memory.forget s.dst s.cap := rfl
@[simp] theorem State.raise_host (s : State) (k : ResultKind) : (State.raise s k).host = s.host := rfl
@[simp] theorem State.raise_rdata (s : State) (k : ResultKind) : (State.raise s k).rdata = s.rdata := rfl
@[simp] theorem State.raise_freeReads (s : State) (k : ResultKind) : (State.raise s k).freeReads = s.freeReads := rfl
@[simp] theorem State.raise_n (s : State) (k : ResultKind) : (State.raise s k).n = s.n := rfl
@[simp] theorem State.raise_cap (s : State) (k : ResultKind) : (State.raise s k).cap = s.cap := rfl
@[simp] theorem State.raise_srcByte (s : State) (k : ResultKind) : (State.raise s k).srcByte = s.srcByte := rfl

/-! ## failDecode -/

@[simp] theorem State.failDecode_crOp (s : State) (k : ResultKind) : (State.failDecode s k).crOp = s.crOp := rfl
@[simp] theorem State.failDecode_srcLen (s : State) (k : ResultKind) : (State.failDecode s k).srcLen = s.srcLen := rfl
@[simp] theorem State.failDecode_dstCap (s : State) (k : ResultKind) : (State.failDecode s k).dstCap = s.dstCap := rfl
@[simp] theorem State.failDecode_level (s : State) (k : ResultKind) : (State.failDecode s k).level = s.level := rfl
@[simp] theorem State.failDecode_phase (s : State) (k : ResultKind) : (State.failDecode s k).phase = .done := rfl
@[simp] theorem State.failDecode_status (s : State) (k : ResultKind) : (State.failDecode s k).status = k := rfl
@[simp] theorem State.failDecode_count (s : State) (k : ResultKind) : (State.failDecode s k).count = 0 := rfl
@[simp] theorem State.failDecode_produced (s : State) (k : ResultKind) : (State.failDecode s k).produced = 0 := rfl
@[simp] theorem State.failDecode_ip (s : State) (k : ResultKind) : (State.failDecode s k).ip = s.ip := rfl
@[simp] theorem State.failDecode_anchor (s : State) (k : ResultKind) : (State.failDecode s k).anchor = s.anchor := rfl
@[simp] theorem State.failDecode_op (s : State) (k : ResultKind) : (State.failDecode s k).op = s.op := rfl
@[simp] theorem State.failDecode_nti (s : State) (k : ResultKind) : (State.failDecode s k).nti = s.nti := rfl
@[simp] theorem State.failDecode_litlen (s : State) (k : ResultKind) : (State.failDecode s k).litlen = s.litlen := rfl
@[simp] theorem State.failDecode_mlen (s : State) (k : ResultKind) : (State.failDecode s k).mlen = s.mlen := rfl
@[simp] theorem State.failDecode_offset (s : State) (k : ResultKind) : (State.failDecode s k).offset = s.offset := rfl
@[simp] theorem State.failDecode_mnib (s : State) (k : ResultKind) : (State.failDecode s k).mnib = s.mnib := rfl
@[simp] theorem State.failDecode_dstate (s : State) (k : ResultKind) : (State.failDecode s k).dstate = .failed := rfl
@[simp] theorem State.failDecode_ht (s : State) (k : ResultKind) : (State.failDecode s k).ht = s.ht := rfl
@[simp] theorem State.failDecode_head (s : State) (k : ResultKind) : (State.failDecode s k).head = s.head := rfl
@[simp] theorem State.failDecode_prev (s : State) (k : ResultKind) : (State.failDecode s k).prev = s.prev := rfl
@[simp] theorem State.failDecode_src (s : State) (k : ResultKind) : (State.failDecode s k).src = s.src := rfl
@[simp] theorem State.failDecode_dst (s : State) (k : ResultKind) : (State.failDecode s k).dst = Memory.forget s.dst s.cap := rfl
@[simp] theorem State.failDecode_host (s : State) (k : ResultKind) : (State.failDecode s k).host = s.host := rfl
@[simp] theorem State.failDecode_rdata (s : State) (k : ResultKind) : (State.failDecode s k).rdata = s.rdata := rfl
@[simp] theorem State.failDecode_freeReads (s : State) (k : ResultKind) : (State.failDecode s k).freeReads = s.freeReads := rfl
@[simp] theorem State.failDecode_n (s : State) (k : ResultKind) : (State.failDecode s k).n = s.n := rfl
@[simp] theorem State.failDecode_cap (s : State) (k : ResultKind) : (State.failDecode s k).cap = s.cap := rfl
@[simp] theorem State.failDecode_srcByte (s : State) (k : ResultKind) : (State.failDecode s k).srcByte = s.srcByte := rfl

/-! ## finish -/

@[simp] theorem State.finish_crOp (s : State) (c p : Nat) : (State.finish s c p).crOp = s.crOp := rfl
@[simp] theorem State.finish_srcLen (s : State) (c p : Nat) : (State.finish s c p).srcLen = s.srcLen := rfl
@[simp] theorem State.finish_dstCap (s : State) (c p : Nat) : (State.finish s c p).dstCap = s.dstCap := rfl
@[simp] theorem State.finish_level (s : State) (c p : Nat) : (State.finish s c p).level = s.level := rfl
@[simp] theorem State.finish_phase (s : State) (c p : Nat) : (State.finish s c p).phase = .done := rfl
@[simp] theorem State.finish_status (s : State) (c p : Nat) : (State.finish s c p).status = .ok := rfl
@[simp] theorem State.finish_count (s : State) (c p : Nat) : (State.finish s c p).count = BitVec.ofNat 32 c := rfl
@[simp] theorem State.finish_produced (s : State) (c p : Nat) : (State.finish s c p).produced = BitVec.ofNat 32 p := rfl
@[simp] theorem State.finish_ip (s : State) (c p : Nat) : (State.finish s c p).ip = s.ip := rfl
@[simp] theorem State.finish_anchor (s : State) (c p : Nat) : (State.finish s c p).anchor = s.anchor := rfl
@[simp] theorem State.finish_op (s : State) (c p : Nat) : (State.finish s c p).op = s.op := rfl
@[simp] theorem State.finish_nti (s : State) (c p : Nat) : (State.finish s c p).nti = s.nti := rfl
@[simp] theorem State.finish_litlen (s : State) (c p : Nat) : (State.finish s c p).litlen = s.litlen := rfl
@[simp] theorem State.finish_mlen (s : State) (c p : Nat) : (State.finish s c p).mlen = s.mlen := rfl
@[simp] theorem State.finish_offset (s : State) (c p : Nat) : (State.finish s c p).offset = s.offset := rfl
@[simp] theorem State.finish_mnib (s : State) (c p : Nat) : (State.finish s c p).mnib = s.mnib := rfl
@[simp] theorem State.finish_dstate (s : State) (c p : Nat) : (State.finish s c p).dstate = s.dstate := rfl
@[simp] theorem State.finish_ht (s : State) (c p : Nat) : (State.finish s c p).ht = s.ht := rfl
@[simp] theorem State.finish_head (s : State) (c p : Nat) : (State.finish s c p).head = s.head := rfl
@[simp] theorem State.finish_prev (s : State) (c p : Nat) : (State.finish s c p).prev = s.prev := rfl
@[simp] theorem State.finish_src (s : State) (c p : Nat) : (State.finish s c p).src = s.src := rfl
@[simp] theorem State.finish_dst (s : State) (c p : Nat) : (State.finish s c p).dst = s.dst := rfl
@[simp] theorem State.finish_host (s : State) (c p : Nat) : (State.finish s c p).host = s.host := rfl
@[simp] theorem State.finish_rdata (s : State) (c p : Nat) : (State.finish s c p).rdata = s.rdata := rfl
@[simp] theorem State.finish_freeReads (s : State) (c p : Nat) : (State.finish s c p).freeReads = s.freeReads := rfl
@[simp] theorem State.finish_n (s : State) (c p : Nat) : (State.finish s c p).n = s.n := rfl
@[simp] theorem State.finish_cap (s : State) (c p : Nat) : (State.finish s c p).cap = s.cap := rfl
@[simp] theorem State.finish_srcByte (s : State) (c p : Nat) : (State.finish s c p).srcByte = s.srcByte := rfl
@[simp] theorem State.finish_dstByte (s : State) (c p : Nat) : (State.finish s c p).dstByte = s.dstByte := rfl

/-! ## clearWorking -/

@[simp] theorem State.clearWorking_crOp (s : State) : (State.clearWorking s).crOp = s.crOp := rfl
@[simp] theorem State.clearWorking_srcLen (s : State) : (State.clearWorking s).srcLen = s.srcLen := rfl
@[simp] theorem State.clearWorking_dstCap (s : State) : (State.clearWorking s).dstCap = s.dstCap := rfl
@[simp] theorem State.clearWorking_level (s : State) : (State.clearWorking s).level = s.level := rfl
@[simp] theorem State.clearWorking_phase (s : State) : (State.clearWorking s).phase = s.phase := rfl
@[simp] theorem State.clearWorking_status (s : State) : (State.clearWorking s).status = s.status := rfl
@[simp] theorem State.clearWorking_count (s : State) : (State.clearWorking s).count = s.count := rfl
@[simp] theorem State.clearWorking_produced (s : State) : (State.clearWorking s).produced = s.produced := rfl
@[simp] theorem State.clearWorking_ip (s : State) : (State.clearWorking s).ip = 0 := rfl
@[simp] theorem State.clearWorking_anchor (s : State) : (State.clearWorking s).anchor = 0 := rfl
@[simp] theorem State.clearWorking_op (s : State) : (State.clearWorking s).op = 0 := rfl
@[simp] theorem State.clearWorking_nti (s : State) : (State.clearWorking s).nti = 0 := rfl
@[simp] theorem State.clearWorking_litlen (s : State) : (State.clearWorking s).litlen = 0 := rfl
@[simp] theorem State.clearWorking_mlen (s : State) : (State.clearWorking s).mlen = 0 := rfl
@[simp] theorem State.clearWorking_offset (s : State) : (State.clearWorking s).offset = 0 := rfl
@[simp] theorem State.clearWorking_mnib (s : State) : (State.clearWorking s).mnib = 0 := rfl
@[simp] theorem State.clearWorking_dstate (s : State) : (State.clearWorking s).dstate = .readToken := rfl
@[simp] theorem State.clearWorking_ht (s : State) : (State.clearWorking s).ht = s.ht := rfl
@[simp] theorem State.clearWorking_head (s : State) : (State.clearWorking s).head = s.head := rfl
@[simp] theorem State.clearWorking_prev (s : State) : (State.clearWorking s).prev = s.prev := rfl
@[simp] theorem State.clearWorking_src (s : State) : (State.clearWorking s).src = s.src := rfl
@[simp] theorem State.clearWorking_dst (s : State) : (State.clearWorking s).dst = s.dst := rfl
@[simp] theorem State.clearWorking_host (s : State) : (State.clearWorking s).host = s.host := rfl
@[simp] theorem State.clearWorking_rdata (s : State) : (State.clearWorking s).rdata = s.rdata := rfl
@[simp] theorem State.clearWorking_freeReads (s : State) : (State.clearWorking s).freeReads = s.freeReads := rfl
@[simp] theorem State.clearWorking_n (s : State) : (State.clearWorking s).n = s.n := rfl
@[simp] theorem State.clearWorking_cap (s : State) : (State.clearWorking s).cap = s.cap := rfl
@[simp] theorem State.clearWorking_srcByte (s : State) : (State.clearWorking s).srcByte = s.srcByte := rfl
@[simp] theorem State.clearWorking_dstByte (s : State) : (State.clearWorking s).dstByte = s.dstByte := rfl

/-! ## start -/

@[simp] theorem State.start_crOp (s : State) : (State.start s).crOp = s.crOp := rfl
@[simp] theorem State.start_srcLen (s : State) : (State.start s).srcLen = s.srcLen := rfl
@[simp] theorem State.start_dstCap (s : State) : (State.start s).dstCap = s.dstCap := rfl
@[simp] theorem State.start_level (s : State) : (State.start s).level = s.level := rfl
@[simp] theorem State.start_phase (s : State) : (State.start s).phase = .busy := rfl
@[simp] theorem State.start_status (s : State) : (State.start s).status = .ok := rfl
@[simp] theorem State.start_count (s : State) : (State.start s).count = 0 := rfl
@[simp] theorem State.start_produced (s : State) : (State.start s).produced = 0 := rfl
@[simp] theorem State.start_ip (s : State) : (State.start s).ip = 0 := rfl
@[simp] theorem State.start_anchor (s : State) : (State.start s).anchor = 0 := rfl
@[simp] theorem State.start_op (s : State) : (State.start s).op = 0 := rfl
@[simp] theorem State.start_nti (s : State) : (State.start s).nti = 0 := rfl
@[simp] theorem State.start_litlen (s : State) : (State.start s).litlen = 0 := rfl
@[simp] theorem State.start_mlen (s : State) : (State.start s).mlen = 0 := rfl
@[simp] theorem State.start_offset (s : State) : (State.start s).offset = 0 := rfl
@[simp] theorem State.start_mnib (s : State) : (State.start s).mnib = 0 := rfl
@[simp] theorem State.start_dstate (s : State) : (State.start s).dstate = .readToken := rfl
@[simp] theorem State.start_ht (s : State) : (State.start s).ht = [] := rfl
@[simp] theorem State.start_head (s : State) : (State.start s).head = [] := rfl
@[simp] theorem State.start_prev (s : State) : (State.start s).prev = [] := rfl
@[simp] theorem State.start_src (s : State) : (State.start s).src = s.src := rfl
@[simp] theorem State.start_dst (s : State) : (State.start s).dst = s.dst := rfl
@[simp] theorem State.start_host (s : State) : (State.start s).host = s.host := rfl
@[simp] theorem State.start_rdata (s : State) : (State.start s).rdata = s.rdata := rfl
@[simp] theorem State.start_freeReads (s : State) : (State.start s).freeReads = s.freeReads := rfl
@[simp] theorem State.start_n (s : State) : (State.start s).n = s.n := rfl
@[simp] theorem State.start_cap (s : State) : (State.start s).cap = s.cap := rfl
@[simp] theorem State.start_srcByte (s : State) : (State.start s).srcByte = s.srcByte := rfl
@[simp] theorem State.start_dstByte (s : State) : (State.start s).dstByte = s.dstByte := rfl

/-! ## enterDecoder -/

@[simp] theorem State.enterDecoder_crOp (s : State) : (State.enterDecoder s).crOp = s.crOp := rfl
@[simp] theorem State.enterDecoder_srcLen (s : State) : (State.enterDecoder s).srcLen = s.srcLen := rfl
@[simp] theorem State.enterDecoder_dstCap (s : State) : (State.enterDecoder s).dstCap = s.dstCap := rfl
@[simp] theorem State.enterDecoder_level (s : State) : (State.enterDecoder s).level = s.level := rfl
@[simp] theorem State.enterDecoder_phase (s : State) : (State.enterDecoder s).phase = s.phase := rfl
@[simp] theorem State.enterDecoder_status (s : State) : (State.enterDecoder s).status = s.status := rfl
@[simp] theorem State.enterDecoder_count (s : State) : (State.enterDecoder s).count = s.count := rfl
@[simp] theorem State.enterDecoder_produced (s : State) : (State.enterDecoder s).produced = s.produced := rfl
@[simp] theorem State.enterDecoder_ip (s : State) : (State.enterDecoder s).ip = 0 := rfl
@[simp] theorem State.enterDecoder_anchor (s : State) : (State.enterDecoder s).anchor = s.anchor := rfl
@[simp] theorem State.enterDecoder_op (s : State) : (State.enterDecoder s).op = 0 := rfl
@[simp] theorem State.enterDecoder_nti (s : State) : (State.enterDecoder s).nti = s.nti := rfl
@[simp] theorem State.enterDecoder_litlen (s : State) : (State.enterDecoder s).litlen = 0 := rfl
@[simp] theorem State.enterDecoder_mlen (s : State) : (State.enterDecoder s).mlen = 0 := rfl
@[simp] theorem State.enterDecoder_offset (s : State) : (State.enterDecoder s).offset = 0 := rfl
@[simp] theorem State.enterDecoder_mnib (s : State) : (State.enterDecoder s).mnib = 0 := rfl
@[simp] theorem State.enterDecoder_dstate (s : State) : (State.enterDecoder s).dstate = .readToken := rfl
@[simp] theorem State.enterDecoder_ht (s : State) : (State.enterDecoder s).ht = s.ht := rfl
@[simp] theorem State.enterDecoder_head (s : State) : (State.enterDecoder s).head = s.head := rfl
@[simp] theorem State.enterDecoder_prev (s : State) : (State.enterDecoder s).prev = s.prev := rfl
@[simp] theorem State.enterDecoder_src (s : State) : (State.enterDecoder s).src = s.src := rfl
@[simp] theorem State.enterDecoder_dst (s : State) : (State.enterDecoder s).dst = s.dst := rfl
@[simp] theorem State.enterDecoder_host (s : State) : (State.enterDecoder s).host = s.host := rfl
@[simp] theorem State.enterDecoder_rdata (s : State) : (State.enterDecoder s).rdata = s.rdata := rfl
@[simp] theorem State.enterDecoder_freeReads (s : State) : (State.enterDecoder s).freeReads = s.freeReads := rfl
@[simp] theorem State.enterDecoder_n (s : State) : (State.enterDecoder s).n = s.n := rfl
@[simp] theorem State.enterDecoder_cap (s : State) : (State.enterDecoder s).cap = s.cap := rfl
@[simp] theorem State.enterDecoder_srcByte (s : State) : (State.enterDecoder s).srcByte = s.srcByte := rfl
@[simp] theorem State.enterDecoder_dstByte (s : State) : (State.enterDecoder s).dstByte = s.dstByte := rfl

/-! ## withFast -/

@[simp] theorem State.withFast_crOp (s : State) (f : FastFinder) : (State.withFast s f).crOp = s.crOp := rfl
@[simp] theorem State.withFast_srcLen (s : State) (f : FastFinder) : (State.withFast s f).srcLen = s.srcLen := rfl
@[simp] theorem State.withFast_dstCap (s : State) (f : FastFinder) : (State.withFast s f).dstCap = s.dstCap := rfl
@[simp] theorem State.withFast_level (s : State) (f : FastFinder) : (State.withFast s f).level = s.level := rfl
@[simp] theorem State.withFast_phase (s : State) (f : FastFinder) : (State.withFast s f).phase = s.phase := rfl
@[simp] theorem State.withFast_status (s : State) (f : FastFinder) : (State.withFast s f).status = s.status := rfl
@[simp] theorem State.withFast_count (s : State) (f : FastFinder) : (State.withFast s f).count = s.count := rfl
@[simp] theorem State.withFast_produced (s : State) (f : FastFinder) : (State.withFast s f).produced = s.produced := rfl
@[simp] theorem State.withFast_ip (s : State) (f : FastFinder) : (State.withFast s f).ip = f.ip := rfl
@[simp] theorem State.withFast_anchor (s : State) (f : FastFinder) : (State.withFast s f).anchor = f.anchor := rfl
@[simp] theorem State.withFast_op (s : State) (f : FastFinder) : (State.withFast s f).op = s.op := rfl
@[simp] theorem State.withFast_nti (s : State) (f : FastFinder) : (State.withFast s f).nti = s.nti := rfl
@[simp] theorem State.withFast_litlen (s : State) (f : FastFinder) : (State.withFast s f).litlen = s.litlen := rfl
@[simp] theorem State.withFast_mlen (s : State) (f : FastFinder) : (State.withFast s f).mlen = s.mlen := rfl
@[simp] theorem State.withFast_offset (s : State) (f : FastFinder) : (State.withFast s f).offset = s.offset := rfl
@[simp] theorem State.withFast_mnib (s : State) (f : FastFinder) : (State.withFast s f).mnib = s.mnib := rfl
@[simp] theorem State.withFast_dstate (s : State) (f : FastFinder) : (State.withFast s f).dstate = s.dstate := rfl
@[simp] theorem State.withFast_ht (s : State) (f : FastFinder) : (State.withFast s f).ht = f.ht := rfl
@[simp] theorem State.withFast_head (s : State) (f : FastFinder) : (State.withFast s f).head = s.head := rfl
@[simp] theorem State.withFast_prev (s : State) (f : FastFinder) : (State.withFast s f).prev = s.prev := rfl
@[simp] theorem State.withFast_src (s : State) (f : FastFinder) : (State.withFast s f).src = s.src := rfl
@[simp] theorem State.withFast_dst (s : State) (f : FastFinder) : (State.withFast s f).dst = s.dst := rfl
@[simp] theorem State.withFast_host (s : State) (f : FastFinder) : (State.withFast s f).host = s.host := rfl
@[simp] theorem State.withFast_rdata (s : State) (f : FastFinder) : (State.withFast s f).rdata = s.rdata := rfl
@[simp] theorem State.withFast_freeReads (s : State) (f : FastFinder) : (State.withFast s f).freeReads = s.freeReads := rfl
@[simp] theorem State.withFast_n (s : State) (f : FastFinder) : (State.withFast s f).n = s.n := rfl
@[simp] theorem State.withFast_cap (s : State) (f : FastFinder) : (State.withFast s f).cap = s.cap := rfl
@[simp] theorem State.withFast_srcByte (s : State) (f : FastFinder) : (State.withFast s f).srcByte = s.srcByte := rfl
@[simp] theorem State.withFast_dstByte (s : State) (f : FastFinder) : (State.withFast s f).dstByte = s.dstByte := rfl

/-! ## withHc -/

@[simp] theorem State.withHc_crOp (s : State) (f : HcFinder) : (State.withHc s f).crOp = s.crOp := rfl
@[simp] theorem State.withHc_srcLen (s : State) (f : HcFinder) : (State.withHc s f).srcLen = s.srcLen := rfl
@[simp] theorem State.withHc_dstCap (s : State) (f : HcFinder) : (State.withHc s f).dstCap = s.dstCap := rfl
@[simp] theorem State.withHc_level (s : State) (f : HcFinder) : (State.withHc s f).level = s.level := rfl
@[simp] theorem State.withHc_phase (s : State) (f : HcFinder) : (State.withHc s f).phase = s.phase := rfl
@[simp] theorem State.withHc_status (s : State) (f : HcFinder) : (State.withHc s f).status = s.status := rfl
@[simp] theorem State.withHc_count (s : State) (f : HcFinder) : (State.withHc s f).count = s.count := rfl
@[simp] theorem State.withHc_produced (s : State) (f : HcFinder) : (State.withHc s f).produced = s.produced := rfl
@[simp] theorem State.withHc_ip (s : State) (f : HcFinder) : (State.withHc s f).ip = f.ip := rfl
@[simp] theorem State.withHc_anchor (s : State) (f : HcFinder) : (State.withHc s f).anchor = f.anchor := rfl
@[simp] theorem State.withHc_op (s : State) (f : HcFinder) : (State.withHc s f).op = s.op := rfl
@[simp] theorem State.withHc_nti (s : State) (f : HcFinder) : (State.withHc s f).nti = f.chains.nti := rfl
@[simp] theorem State.withHc_litlen (s : State) (f : HcFinder) : (State.withHc s f).litlen = s.litlen := rfl
@[simp] theorem State.withHc_mlen (s : State) (f : HcFinder) : (State.withHc s f).mlen = s.mlen := rfl
@[simp] theorem State.withHc_offset (s : State) (f : HcFinder) : (State.withHc s f).offset = s.offset := rfl
@[simp] theorem State.withHc_mnib (s : State) (f : HcFinder) : (State.withHc s f).mnib = s.mnib := rfl
@[simp] theorem State.withHc_dstate (s : State) (f : HcFinder) : (State.withHc s f).dstate = s.dstate := rfl
@[simp] theorem State.withHc_ht (s : State) (f : HcFinder) : (State.withHc s f).ht = s.ht := rfl
@[simp] theorem State.withHc_head (s : State) (f : HcFinder) : (State.withHc s f).head = f.chains.head := rfl
@[simp] theorem State.withHc_prev (s : State) (f : HcFinder) : (State.withHc s f).prev = f.chains.prev := rfl
@[simp] theorem State.withHc_src (s : State) (f : HcFinder) : (State.withHc s f).src = s.src := rfl
@[simp] theorem State.withHc_dst (s : State) (f : HcFinder) : (State.withHc s f).dst = s.dst := rfl
@[simp] theorem State.withHc_host (s : State) (f : HcFinder) : (State.withHc s f).host = s.host := rfl
@[simp] theorem State.withHc_rdata (s : State) (f : HcFinder) : (State.withHc s f).rdata = s.rdata := rfl
@[simp] theorem State.withHc_freeReads (s : State) (f : HcFinder) : (State.withHc s f).freeReads = s.freeReads := rfl
@[simp] theorem State.withHc_n (s : State) (f : HcFinder) : (State.withHc s f).n = s.n := rfl
@[simp] theorem State.withHc_cap (s : State) (f : HcFinder) : (State.withHc s f).cap = s.cap := rfl
@[simp] theorem State.withHc_srcByte (s : State) (f : HcFinder) : (State.withHc s f).srcByte = s.srcByte := rfl
@[simp] theorem State.withHc_dstByte (s : State) (f : HcFinder) : (State.withHc s f).dstByte = s.dstByte := rfl

/-! ## hardReset -/

@[simp] theorem State.hardReset_crOp (s : State) : (State.hardReset s).crOp = 0 := rfl
@[simp] theorem State.hardReset_srcLen (s : State) : (State.hardReset s).srcLen = 0 := rfl
@[simp] theorem State.hardReset_dstCap (s : State) : (State.hardReset s).dstCap = 0 := rfl
@[simp] theorem State.hardReset_level (s : State) : (State.hardReset s).level = 0 := rfl
@[simp] theorem State.hardReset_phase (s : State) : (State.hardReset s).phase = .idle := rfl
@[simp] theorem State.hardReset_status (s : State) : (State.hardReset s).status = .ok := rfl
@[simp] theorem State.hardReset_count (s : State) : (State.hardReset s).count = 0 := rfl
@[simp] theorem State.hardReset_produced (s : State) : (State.hardReset s).produced = 0 := rfl
@[simp] theorem State.hardReset_ip (s : State) : (State.hardReset s).ip = 0 := rfl
@[simp] theorem State.hardReset_anchor (s : State) : (State.hardReset s).anchor = 0 := rfl
@[simp] theorem State.hardReset_op (s : State) : (State.hardReset s).op = 0 := rfl
@[simp] theorem State.hardReset_nti (s : State) : (State.hardReset s).nti = 0 := rfl
@[simp] theorem State.hardReset_litlen (s : State) : (State.hardReset s).litlen = 0 := rfl
@[simp] theorem State.hardReset_mlen (s : State) : (State.hardReset s).mlen = 0 := rfl
@[simp] theorem State.hardReset_offset (s : State) : (State.hardReset s).offset = 0 := rfl
@[simp] theorem State.hardReset_mnib (s : State) : (State.hardReset s).mnib = 0 := rfl
@[simp] theorem State.hardReset_dstate (s : State) : (State.hardReset s).dstate = .readToken := rfl
@[simp] theorem State.hardReset_ht (s : State) : (State.hardReset s).ht = [] := rfl
@[simp] theorem State.hardReset_head (s : State) : (State.hardReset s).head = [] := rfl
@[simp] theorem State.hardReset_prev (s : State) : (State.hardReset s).prev = [] := rfl
@[simp] theorem State.hardReset_src (s : State) : (State.hardReset s).src = Memory.forget s.src addressCount := rfl
@[simp] theorem State.hardReset_dst (s : State) : (State.hardReset s).dst = Memory.forget s.dst addressCount := rfl
@[simp] theorem State.hardReset_host (s : State) : (State.hardReset s).host = s.host := rfl
@[simp] theorem State.hardReset_rdata (s : State) : (State.hardReset s).rdata = s.rdata := rfl
@[simp] theorem State.hardReset_freeReads (s : State) : (State.hardReset s).freeReads = s.freeReads := rfl

end Sys2Proof.Machine
end

