-- ==== Sys2Proof/Laws/Ops.lean ====
section
/-! SUPPORT. For each shared operation everything it can do, once: "if it answers this, then one of these cases holds". Proofs
cite these and do not unfold the operations. -/

namespace Sys2Proof.Machine

/-! ## The decoder's operations -/

theorem State.readToken_cases (s : State) (l m : Nibble) :
    (s.n ≤ s.ip ∧ State.readToken s l m = State.failDecode s .inputTruncated) ∨
    (s.ip < s.n ∧ State.readToken s l m =
      { s with
        ip := s.ip + 1
        litlen := l.toNat
        mnib := m
        dstate := if l.toNat = Config.nibEsc then .readLiteralExtension else .copyLiterals }) := by
  unfold State.readToken
  split
  · next h => exact .inl ⟨h, rfl⟩
  · next h => exact .inr ⟨by omega, rfl⟩

theorem State.readExtension_cases (s : State) (b : Byte) :
    (s.dstate = .readLiteralExtension ∧ s.ip < s.n ∧ State.readExtension s b =
      { s with
        ip := s.ip + 1
        litlen := s.litlen + b.toNat
        dstate := if b.toNat = Config.extCont then .readLiteralExtension else .copyLiterals }) ∨
    (s.dstate = .readMatchExtension ∧ s.ip < s.n ∧ State.readExtension s b =
      { s with
        ip := s.ip + 1
        mlen := s.mlen + b.toNat
        dstate := if b.toNat = Config.extCont then .readMatchExtension else .copyMatch }) ∨
    ((s.dstate = .readLiteralExtension ∨ s.dstate = .readMatchExtension) ∧ s.n ≤ s.ip ∧
      State.readExtension s b = State.failDecode s .inputTruncated) ∨
    (s.dstate ≠ .readLiteralExtension ∧ s.dstate ≠ .readMatchExtension ∧ State.readExtension s b = s) := by
  unfold State.readExtension
  cases hd : s.dstate <;> simp only [] <;> split_ifs with h <;> simp_all

theorem State.endLiterals_cases (s : State) :
    (s.ip = s.n ∧ State.endLiterals s = State.finish { s with dstate := .done } s.ip s.op) ∨
    (s.ip ≠ s.n ∧ State.endLiterals s = { s with dstate := .readOffset }) := by
  unfold State.endLiterals
  split
  · next h => exact .inl ⟨h, rfl⟩
  · next h => exact .inr ⟨h, rfl⟩

theorem State.copyLiterals_cases (s : State) (lits : List Byte) :
    (s.cap - s.op < s.litlen ∧ State.copyLiterals s lits = State.failDecode s .outputOverrun) ∨
    (s.litlen ≤ s.cap - s.op ∧ s.n - s.ip < s.litlen ∧ State.copyLiterals s lits = State.failDecode s .inputTruncated) ∨
    (s.litlen ≤ s.cap - s.op ∧ s.litlen ≤ s.n - s.ip ∧ State.copyLiterals s lits = State.endLiterals
      { s with dst := Memory.writeList s.dst s.op lits, ip := s.ip + s.litlen, op := s.op + s.litlen }) := by
  unfold State.copyLiterals
  split
  · next h => exact .inl ⟨h, rfl⟩
  · next h =>
    split
    · next h' => exact .inr (.inl ⟨by omega, h', rfl⟩)
    · next h' => exact .inr (.inr ⟨by omega, by omega, rfl⟩)

theorem State.copyLiteral_cases (s : State) (b : Byte) :
    (s.cap - s.op < s.litlen ∧ State.copyLiteral s b = State.failDecode s .outputOverrun) ∨
    (s.litlen ≤ s.cap - s.op ∧ s.n - s.ip < s.litlen ∧ State.copyLiteral s b = State.failDecode s .inputTruncated) ∨
    (s.litlen ≤ s.cap - s.op ∧ s.litlen ≤ s.n - s.ip ∧ s.litlen ≤ 1 ∧ State.copyLiteral s b = State.endLiterals
      { s with dst := Memory.write s.dst s.op b, ip := s.ip + 1, op := s.op + 1, litlen := s.litlen - 1 }) ∨
    (s.litlen ≤ s.cap - s.op ∧ s.litlen ≤ s.n - s.ip ∧ 1 < s.litlen ∧ State.copyLiteral s b =
      { s with dst := Memory.write s.dst s.op b, ip := s.ip + 1, op := s.op + 1, litlen := s.litlen - 1 }) := by
  unfold State.copyLiteral
  split
  · next h => exact .inl ⟨h, rfl⟩
  · next h =>
    split
    · next h' => exact .inr (.inl ⟨by omega, h', rfl⟩)
    · next h' =>
      by_cases h2 : s.litlen ≤ 1
      · have h3 : s.litlen - 1 = 0 := by omega
        exact .inr (.inr (.inl ⟨by omega, by omega, h2, by simp [h3]⟩))
      · have h3 : s.litlen - 1 ≠ 0 := by omega
        exact .inr (.inr (.inr ⟨by omega, by omega, by omega, by simp [h3]⟩))

theorem State.readOffset_cases (s : State) (d : BitVec 16) :
    (s.n - s.ip < 2 ∧ State.readOffset s d = State.failDecode s .inputTruncated) ∨
    (2 ≤ s.n - s.ip ∧ (d = 0 ∨ s.op < d.toNat) ∧
      State.readOffset s d = State.failDecode { s with ip := s.ip + 2, offset := d } .corruptOffset) ∨
    (2 ≤ s.n - s.ip ∧ d ≠ 0 ∧ d.toNat ≤ s.op ∧ State.readOffset s d =
      { s with
        ip := s.ip + 2
        offset := d
        mlen := s.mnib.toNat + Config.minMatch
        dstate := if s.mnib.toNat = Config.nibEsc then .readMatchExtension else .copyMatch }) := by
  unfold State.readOffset
  split
  · next h => exact .inl ⟨h, rfl⟩
  · next h =>
    by_cases h0 : d = 0
    · exact .inr (.inl ⟨by omega, .inl h0, by rw [if_pos h0]⟩)
    · by_cases h1 : s.op < d.toNat
      · exact .inr (.inl ⟨by omega, .inr h1, by rw [if_neg h0, if_pos h1]⟩)
      · exact .inr (.inr ⟨by omega, h0, by omega, by rw [if_neg h0, if_neg h1]⟩)

theorem State.copyMatch_cases (s : State) :
    (s.cap - s.op < s.mlen ∧ State.copyMatch s = State.failDecode s .outputOverrun) ∨
    (s.mlen ≤ s.cap - s.op ∧ State.copyMatch s =
      { s with
        dst := Memory.copySerial Config.freeDstByte s.dst s.op s.offset.toNat s.mlen
        op := s.op + s.mlen
        dstate := .readToken }) := by
  unfold State.copyMatch
  split
  · next h => exact .inl ⟨h, rfl⟩
  · next h => exact .inr ⟨by omega, rfl⟩

/-! ## The Sequence Encoder's operations -/

theorem State.emitSeq_cases (s : State) (bytes : List Byte) :
    (s.cap < s.op + bytes.length ∧ State.emitSeq s bytes = State.raise s .insufficientOutputSpace) ∨
    (s.op + bytes.length ≤ s.cap ∧ State.emitSeq s bytes =
      { s with dst := Memory.writeList s.dst s.op bytes, op := s.op + bytes.length }) := by
  unfold State.emitSeq
  split
  · next h => exact .inl ⟨h, rfl⟩
  · next h => exact .inr ⟨by omega, rfl⟩

theorem State.emitBlock_cases (s : State) (block : List Byte) :
    (s.cap < block.length ∧ State.emitBlock s block = State.raise s .insufficientOutputSpace) ∨
    (block.length ≤ s.cap ∧ State.emitBlock s block =
      State.finish { s with dst := Memory.writeList s.dst 0 block, op := block.length } block.length block.length) := by
  unfold State.emitBlock
  split
  · next h => exact .inl ⟨h, rfl⟩
  · next h => exact .inr ⟨by omega, rfl⟩

/-! ## The agents' moves -/

theorem State.writeReg_cases (s : State) (r : CReg) (v : Word32) :
    State.writeReg s r v = s ∨
    (s.phase ≠ .busy ∧
      ((r = .op ∧ State.writeReg s r v = { s with crOp := v.setWidth 2 }) ∨
       (r = .srcLen ∧ State.writeReg s r v = { s with srcLen := v }) ∨
       (r = .dstCap ∧ State.writeReg s r v = { s with dstCap := v }) ∨
       (r = .level ∧ State.writeReg s r v = { s with level := v }) ∨
       (r = .start ∧ v.getLsbD 0 = true ∧ State.writeReg s r v = State.start s))) := by
  unfold State.writeReg
  split
  · exact .inl rfl
  · next h =>
    cases r with
    | op => exact .inr ⟨h, .inl ⟨rfl, rfl⟩⟩
    | srcLen => exact .inr ⟨h, .inr (.inl ⟨rfl, rfl⟩)⟩
    | dstCap => exact .inr ⟨h, .inr (.inr (.inl ⟨rfl, rfl⟩))⟩
    | level => exact .inr ⟨h, .inr (.inr (.inr (.inl ⟨rfl, rfl⟩)))⟩
    | start =>
      by_cases hv : v.getLsbD 0 = true
      · exact .inr ⟨h, .inr (.inr (.inr (.inr ⟨rfl, hv, if_pos hv⟩)))⟩
      · exact .inl (if_neg hv)
    | phase => exact .inl rfl
    | status => exact .inl rfl
    | count => exact .inl rfl
    | produced => exact .inl rfl

/-- The codec's elementary step, by phase and operation. -/
theorem codecTick_cases (P : Config.Params) (s : State) :
    (s.phase ≠ .busy ∧ codecTick P s = .next s) ∨
    (s.phase = .busy ∧ s.crOp = 0 ∧ codecTick P s = .next (State.boundWith P s)) ∨
    (s.phase = .busy ∧ s.crOp = 3 ∧ codecTick P s = decompressTick s) ∨
    (s.phase = .busy ∧ (s.crOp = 1 ∨ s.crOp = 2) ∧ codecTick P s = compressTick P s) := by
  have hop : ∀ x : BitVec 2, x = 0 ∨ x = 3 ∨ x = 1 ∨ x = 2 := by decide
  unfold codecTick
  by_cases hb : s.phase = .busy
  · rcases hop s.crOp with h | h | h | h
    · exact .inr (.inl ⟨hb, h, by simp [hb, h, execWith]⟩)
    · exact .inr (.inr (.inl ⟨hb, h, by simp [hb, h]⟩))
    · exact .inr (.inr (.inr ⟨hb, .inl h, by simp [hb, h]⟩))
    · exact .inr (.inr (.inr ⟨hb, .inr h, by simp [hb, h]⟩))
  · exact .inl ⟨hb, by simp [hb]⟩

/-- The codec's move while the host does not act: a whole operation, or an elementary step. -/
theorem codecRun_cases (P : Config.Params) (s : State) :
    (s.phase = .busy ∧ State.fresh s = true ∧ codecRun P s = execWith P (decodeOp s.crOp) s) ∨
    codecRun P s = codecTick P s := by
  unfold codecRun
  split
  · next h => exact .inl ⟨h.1, h.2, rfl⟩
  · exact .inr rfl

/-- Everything one step can be, for any parameters. -/
theorem stepWith_cases (P : Config.Params) (s : State) :
    (s.host = [] ∧ stepWith P s = codecRun P s) ∨
    (∃ a rest, s.host = a :: rest ∧ stepWith P s = hostStep P s rest a) := by
  unfold stepWith
  cases h : s.host with
  | nil => exact .inl ⟨rfl, rfl⟩
  | cons a rest => exact .inr ⟨a, rest, rfl, rfl⟩

/-- Everything one step can be. -/
theorem step_cases (s : State) :
    (s.host = [] ∧ step s = codecRun Config.params s) ∨
    (∃ a rest, s.host = a :: rest ∧ step s = hostStep Config.params s rest a) :=
  stepWith_cases Config.params s

/-! ## The default parameters -/

/-- `exec` is `execWith` at the default parameters. -/
theorem execWith_params (i : Instr) (s : State) : execWith Config.params i s = exec i s := by cases i <;> rfl

/-- Each of the four operations answers a next state, for any parameters. -/
theorem execWith_command (P : Config.Params) (i : Instr) (s : State) (h : isCommand i = true) :
    ∃ t, execWith P i s = .next t := by
  cases i <;> first | exact ⟨_, rfl⟩ | exact absurd h Bool.false_ne_true

/-! ## The compressors, by their tests -/

theorem State.compressWith_cases (P : Config.Params) (s : State) :
    (P.maxInputSize < s.n ∧ State.compressWith P s = State.raise s .inputTooLarge) ∨
    (s.n ≤ P.maxInputSize ∧ State.compressWith P s = State.compressFast P s) := by
  unfold State.compressWith
  split
  · next h => exact .inl ⟨h, rfl⟩
  · next h => exact .inr ⟨by omega, rfl⟩

theorem State.compressHcWith_cases (P : Config.Params) (s : State) :
    (P.maxInputSize < s.n ∧ State.compressHcWith P s = State.raise s .inputTooLarge) ∨
    (s.n ≤ P.maxInputSize ∧ State.hcBypass s = true ∧ State.compressHcWith P s = State.compressFast P s) ∨
    (s.n ≤ P.maxInputSize ∧ State.hcBypass s = false ∧ State.compressHcWith P s = State.compressChained P s) := by
  unfold State.compressHcWith
  split
  · next h => exact .inl ⟨h, rfl⟩
  · next h =>
    split
    · next h' => exact .inr (.inl ⟨by omega, h', rfl⟩)
    · next h' => exact .inr (.inr ⟨by omega, by simpa using h', rfl⟩)

/-! ## The host's accesses to the byte spaces -/

theorem hostWriteSrc_cases (s : State) (a : Word32) (b : Byte) :
    (s.phase = .busy ∧ a.toNat < s.n ∧ hostWriteSrc s a b = .refused .srcWriteWhileBusy) ∨
    (¬ (s.phase = .busy ∧ a.toNat < s.n) ∧
      hostWriteSrc s a b = .next { s with src := Memory.write s.src a.toNat b }) := by
  unfold hostWriteSrc
  split
  · next h => exact .inl ⟨h.1, h.2, rfl⟩
  · next h => exact .inr ⟨h, rfl⟩

theorem hostWriteDst_cases (s : State) (a : Word32) (b : Byte) :
    (s.phase = .busy ∧ a.toNat < s.cap ∧ hostWriteDst s a b = .refused .dstWriteWhileBusy) ∨
    (¬ (s.phase = .busy ∧ a.toNat < s.cap) ∧
      hostWriteDst s a b = .next { s with dst := Memory.write s.dst a.toNat b }) := by
  unfold hostWriteDst
  split
  · next h => exact .inl ⟨h.1, h.2, rfl⟩
  · next h => exact .inr ⟨h, rfl⟩

end Sys2Proof.Machine
end

