-- ==== Sys2Proof/Laws/PerInstr.lean ====
section
/-! SUPPORT. Statements about every instruction as syntax, one lemma per constructor. -/

namespace Sys2Proof.Laws.EncodingAdvances

/-- The encoding of an instruction is at least one byte, so a decoder that has read it has moved on (spec/45_block_decoder.md
R192). -/
def Statement (i : Instr) : Prop := 1 ≤ (encode i).length

theorem bound : Statement .bound := Nat.le_refl 1
theorem compress : Statement .compress := Nat.le_refl 1
theorem compressHc : Statement .compressHc := Nat.le_refl 1
theorem decompress : Statement .decompress := Nat.le_refl 1
theorem token (lnib mnib : Nibble) : Statement (.token lnib mnib) := Nat.le_refl 1
theorem lenextCont : Statement .lenextCont := Nat.le_refl 1
theorem lenextTerm (v : Byte) : Statement (.lenextTerm v) := Nat.le_refl 1
theorem offset (d : BitVec 16) : Statement (.offset d) := Nat.le_succ 1
theorem literal (b : Byte) : Statement (.literal b) := Nat.le_refl 1
theorem seqMatch (lits : List Byte) (d : BitVec 16) (mlen : Nat) : Statement (.seqMatch lits d mlen) :=
  Nat.succ_le_succ (Nat.zero_le _)
theorem seqLast (lits : List Byte) (mnib : Nibble) : Statement (.seqLast lits mnib) := Nat.succ_le_succ (Nat.zero_le _)

end Sys2Proof.Laws.EncodingAdvances
end

