-- ==== Sys2Proof/Tests/Slice0.lean ====
section
/-! SUPPORT. The model's own tests. Expected values are the worked examples of the spec, named in each comment. The second half
holds, for each statement with hypotheses, a state and operands that meet them. -/

namespace Sys2Proof.Tests

open Sys2Proof.Machine

/-! ## Helpers -/

/-- A state in which the operation has just been started on the given operands and source bytes. -/
def started (op : BitVec 2) (n cap level : Word32) (bytes : List Byte) : State :=
  State.start { State.reset with
    crOp := op
    srcLen := n
    dstCap := cap
    level := level
    src := Memory.writeList State.reset.src 0 bytes }

/-- A running decoder in state `d`, at input `ip` and output `op`, over the given block. -/
def decoding (d : DState) (ip op : Nat) (cap : Word32) (bytes : List Byte) : State :=
  { started 3 (BitVec.ofNat 32 bytes.length) cap 0 bytes with dstate := d, ip := ip, op := op }

/-- The state after an outcome, or the given one where it stops. -/
def after (o : Host.Outcome State Fault Refusal) (s : State) : State :=
  match o with
  | .next t => t
  | .fault _ => s
  | .refused _ => s

/-- STATUS, COUNT and PRODUCED after an outcome. -/
def results (o : Host.Outcome State Fault Refusal) : Option (ResultKind × Nat × Nat) :=
  match o with
  | .next t => some (t.status, t.count.toNat, t.produced.toNat)
  | .fault _ => none
  | .refused _ => none

/-- The bytes of DST that hold a value of their own after an outcome. -/
def written (o : Host.Outcome State Fault Refusal) : List Byte :=
  match o with
  | .next t => t.dst.cells.map (fun c => c.2)
  | .fault _ => []
  | .refused _ => []

/-- `dstate`, `ip`, `op`, `litlen` and `mlen` after an outcome. -/
def decoderOf (o : Host.Outcome State Fault Refusal) : Option (DState × Nat × Nat × Nat × Nat) :=
  match o with
  | .next t => some (t.dstate, t.ip, t.op, t.litlen, t.mlen)
  | .fault _ => none
  | .refused _ => none

/-- Twenty bytes 61. -/
def as20 : List Byte := List.replicate 20 0x61

/-- The block of `as20` (R110). -/
def as20Block : List Byte := [0x1A, 0x61, 0x01, 0x00, 0x50, 0x61, 0x61, 0x61, 0x61, 0x61]

/-! ## WellFormed: each check refuses an ill-formed term -/

theorem test_wellFormed_lenextTerm : WellFormed (.lenextTerm 255) = false ∧ WellFormed (.lenextTerm 254) = true := by decide
theorem test_wellFormed_offset : WellFormed (.seqMatch [0x61] 0 4) = false ∧ WellFormed (.seqMatch [0x61] 1 4) = true := by
  decide
theorem test_wellFormed_mlen : WellFormed (.seqMatch [0x61] 1 3) = false := by decide

/-! ## Decode: words written out from spec/30_encoding.md R70, R73 to R75 and spec/42_sequence_encoder.md -/

theorem test_decode_bound : decode .command [0b00] = .ok (.bound, []) := by rfl
theorem test_decode_compress : decode .command [0b01] = .ok (.compress, []) := by rfl
theorem test_decode_compressHc : decode .command [0b10] = .ok (.compressHc, []) := by rfl
theorem test_decode_decompress : decode .command [0b11] = .ok (.decompress, []) := by rfl
theorem test_decode_token : decode .token [0b00011010] = .ok (.token 0b0001 0b1010, []) := by rfl
theorem test_decode_lenextCont : decode .extension [0b11111111] = .ok (.lenextCont, []) := by rfl
theorem test_decode_lenextTerm : decode .extension [0b11111110] = .ok (.lenextTerm 254, []) := by rfl
theorem test_decode_offset : decode .offset [0b00100100, 0b00000001] = .ok (.offset 292, []) := by rfl
theorem test_decode_literal : decode .literal [0b01100001] = .ok (.literal 0x61, []) := by rfl
theorem test_decode_seqMatch : decode .sequence [0x1A, 0x61, 0x01, 0x00, 0x50] = .ok (.seqMatch [0x61] 1 14, [0x50]) := by
  rfl
theorem test_decode_seqLast : decode .sequence [0x50, 0x61, 0x61, 0x61, 0x61, 0x61] =
    .ok (.seqLast [0x61, 0x61, 0x61, 0x61, 0x61] 0, []) := by rfl

/-- R79: what is rejected, by name. -/
theorem test_decode_rejects :
    decode .sequence [] = .error .noByte ∧ decode .sequence [0xF0, 0xFF] = .error .extensionCut ∧
    decode .sequence [0x20, 0x61] = .error .literalsCut ∧ decode .sequence [0x10, 0x61, 0x01] = .error .offsetCut ∧
    decode .sequence [0x10, 0x61, 0x00, 0x00] = .error .offsetZero := ⟨rfl, rfl, rfl, rfl, rfl⟩

theorem test_tableWord : decodeTableWord 8 3 = some .decompress ∧ decodeTableWord 8 0x1A = some (.token 1 10) ∧
    decodeTableWord 8 255 = some .lenextCont ∧ decodeTableWord 16 0x0124 = some (.offset 0x0124) := by decide

theorem test_fetchWord :
    step (State.withFetchWord State.reset 8 3) = exec .decompress (State.withFetchWord State.reset 8 3) ∧
    step (State.withFetchWord State.reset 8 255) = exec .lenextCont (State.withFetchWord State.reset 8 255) ∧
    step (State.withFetchWord State.reset 8 0x1A) = exec (.token 1 10)
      { State.withFetchWord State.reset 8 0x1A with host := [] } :=
  ⟨rfl, rfl, rfl⟩

/-- R25, R231: the numbers STATUS reads. -/
theorem test_statusCodes :
    [ResultKind.ok, .insufficientOutputSpace, .outputOverrun, .inputTruncated, .corruptOffset, .inputTooLarge].map
      (fun k => State.readReg { State.reset with status := k } .status) = [0, 1, 2, 3, 4, 5] := by decide

/-! ## One step of each instruction -/

/-- R144, R141. -/
theorem test_bound : results (exec .bound (started 0 0x7E000000 0 0 [])) = some (.ok, 2122219150, 0) := by decide
theorem test_bound_large : results (exec .bound (started 0 0x7E000001 0 0 [])) = some (.ok, 0, 0) := by decide

/-- R110. -/
theorem test_compress : results (exec .compress (started 1 20 36 0 as20)) = some (.ok, 10, 10) ∧
    written (exec .compress (started 1 20 36 0 as20)) = as20Block := by decide
/-- R120: one byte too few. -/
theorem test_compress_space : results (exec .compress (started 1 20 9 0 as20)) = some (.insufficientOutputSpace, 0, 0) := by
  decide

/-- R150. -/
theorem test_compressHc : results (exec .compressHc (started 2 20 36 0 as20)) = some (.ok, 10, 10) ∧
    written (exec .compressHc (started 2 20 36 0 as20)) = as20Block := by decide
/-- R152, R241: the size test comes before the test for an empty output buffer. -/
theorem test_compressHc_large : results (exec .compressHc (started 2 0x7E000001 0 0 [])) = some (.inputTooLarge, 0, 0) := by
  decide

/-- R180. -/
theorem test_decompress : results (exec .decompress (started 3 10 20 0 as20Block)) = some (.ok, 10, 20) ∧
    written (exec .decompress (started 3 10 20 0 as20Block)) = as20 := by decide
/-- R196. -/
theorem test_decompress_truncated : results (exec .decompress (started 3 9 20 0 as20Block)) =
    some (.inputTruncated, 0, 0) := by decide

/-- R182. -/
theorem test_token : decoderOf (exec (.token 1 10) (decoding .readToken 0 0 20 as20Block)) =
    some (.copyLiterals, 1, 0, 1, 0) := by decide
/-- R182: the nibble 15 calls for an extension. -/
theorem test_token_escape : decoderOf (exec (.token 15 0) (decoding .readToken 0 0 20 as20Block)) =
    some (.readLiteralExtension, 1, 0, 15, 0) := by decide

/-- R187: 19 and the bytes FF 2D. -/
theorem test_lenextCont : decoderOf (exec .lenextCont
    (State.readOffset { decoding .readOffset 0 1 400 [0x01, 0x00, 0xFF, 0x2D, 0x00] with mnib := 15 } 1)) =
    some (.readMatchExtension, 3, 1, 0, 274) := by decide
/-- R183: 15 and the byte 15 hexadecimal. -/
theorem test_lenextTerm : decoderOf (exec (.lenextTerm 0x15)
    { decoding .readLiteralExtension 1 0 20 [0xF0, 0x15, 0x61] with litlen := 15 }) =
    some (.copyLiterals, 2, 0, 36, 0) := by decide

/-- R186. -/
theorem test_offset : decoderOf (exec (.offset 1) { decoding .readOffset 2 1 20 as20Block with mnib := 10 }) =
    some (.copyMatch, 4, 1, 0, 14) := by decide
/-- R186: beyond what is written. -/
theorem test_offset_corrupt : results (exec (.offset 2) { decoding .readOffset 2 1 20 as20Block with mnib := 10 }) =
    some (.corruptOffset, 0, 0) := by decide

/-- R184: one literal, then an offset is due. -/
theorem test_literal : decoderOf (exec (.literal 0x61) { decoding .copyLiterals 1 0 20 as20Block with litlen := 1 }) =
    some (.readOffset, 2, 1, 0, 0) ∧
    written (exec (.literal 0x61) { decoding .copyLiterals 1 0 20 as20Block with litlen := 1 }) = [0x61] := by decide
/-- R184: no room in DST. -/
theorem test_literal_overrun : results (exec (.literal 0x61)
    { decoding .copyLiterals 1 0 0 as20Block with litlen := 1 }) = some (.outputOverrun, 0, 0) := by decide

/-- R188: offset 1 repeats one byte. -/
theorem test_seqMatch_read : decoderOf (exec (.seqMatch [0x61] 1 14) (decoding .readToken 0 0 20 as20Block)) =
    some (.readToken, 4, 15, 1, 14) ∧
    written (exec (.seqMatch [0x61] 1 14) (decoding .readToken 0 0 20 as20Block)) = List.replicate 15 0x61 := by decide
/-- R132. -/
theorem test_seqMatch_write : written (exec (.seqMatch [0x61] 1 14) (started 1 20 36 0 as20)) = [0x1A, 0x61, 0x01, 0x00] := by
  decide
/-- R133. -/
theorem test_seqLast_write : written (exec (.seqLast [0x61] 7) (started 1 1 36 0 [0x61])) = [0x10, 0x61] := by decide
/-- R80: the unused match nibble changes nothing. -/
theorem test_seqLast_read : results (exec (.seqLast [0x61] 7) (started 3 2 36 0 [0x17, 0x61])) = some (.ok, 2, 1) := by decide

/-! ## Witnesses: for each statement with hypotheses, a state and operands that meet them, one per clause at a boundary -/

theorem test_witness_CommandFields :
    ((-1 : Word32).toInt < 0) ∧ 16 < (17 : Word32).toInt ∧ (0 ≤ (0 : Word32).toInt ∧ (0 : Word32).toInt ≤ 16) ∧
    (0 ≤ (16 : Word32).toInt ∧ (16 : Word32).toInt ≤ 16) ∧ isCommand .decompress = true := by decide

theorem test_witness_LengthFieldsReadBack : (14 : Nibble).toNat < 15 ∧ (254 : Byte) ≠ 255 := by decide

theorem test_witness_LengthEncodingIsUnique :
    readLen 14 [0x07] = some (14, [0x07]) ∧ readLen 15 [0xFF, 0x00, 0x07] = some (270, [0x07]) := by decide

theorem test_witness_SequenceSizes : 4 ≤ 4 ∧ ([] : List Byte) = [] ∧ 4 ≤ 18 ∧ 18 ≤ 18 := by decide

theorem test_witness_DecodeInvertsEncode :
    (WellFormed (.seqMatch [0x61] 0xFFFF 4) = true ∧ ∀ lits m, Instr.seqMatch [0x61] 0xFFFF 4 = .seqLast lits m → [0x50] = []) ∧
    (WellFormed (.seqLast [] 0) = true ∧ ∀ lits m, Instr.seqLast [] 0 = .seqLast lits m → ([] : List Byte) = []) :=
  ⟨⟨by decide, nofun⟩, by decide, fun _ _ _ => rfl⟩

theorem test_witness_EncodeInvertsDecode : Slot.sequence ≠ .command ∧
    decode .sequence [0x10, 0x61, 0x01, 0x00, 0x50] = .ok (.seqMatch [0x61] 1 4, [0x50]) := ⟨nofun, rfl⟩

theorem test_witness_HashIsTopBitsOfProduct : 0 ≤ 32 ∧ 32 ≤ 32 ∧ word4 (fun _ => 0) 0 = 0 ∧
    word4 (fun _ => 0x61) 1 = word4 (fun _ => 0x61) 0 := by decide

/-- The source "abcd", also for the chained index and the extensions. -/
def abcd (a : Nat) : Byte := BitVec.ofNat 8 (0x61 + a % 4)

theorem test_witness_FastIndexKeepsNewest : abcd 0 = 0x61 ∧ abcd 1 = 0x62 ∧ abcd 2 = 0x63 ∧ abcd 3 = 0x64 := by decide

theorem test_witness_ChainInsertGoesToFront : ∀ a, a < 20 → (fun _ : Nat => (0x61 : Byte)) a = 0x61 := fun _ _ => rfl

theorem test_witness_ChainLinksNearestEarlier :
    Config.params.Ok ∧ 0 < 65536 ∧ 65536 ≤ 0 + Config.params.chainSize ∧ 2 ≤ 2 ∧ 1 ≤ 2 :=
  ⟨Config.params_ok, by decide, by decide, by decide, by decide⟩

/-- R159's example, from the empty index and from one that is filled already, and an empty bucket. -/
theorem test_witness_SearchFindsLongestNearest : Config.params.Ok ∧ 1 ≤ 1 ∧ 0 ≤ 0 ∧
    (find Config.params (fun _ => 0x61) 20 1 (insertUpto Config.params (fun _ => 0x61) HcFinder.init.chains 1) 1 0).1 =
      some { start := 1, offset := 1, len := 14 } ∧
    (find Config.params (fun _ => 0x61) 20 1 HcFinder.init.chains 1 0).1 = some { start := 1, offset := 1, len := 14 } ∧
    (find Config.params (fun _ => 0x61) 20 1 HcFinder.init.chains 0 0).1 = none :=
  ⟨Config.params_ok, by decide, by decide, by decide, by decide, by decide⟩

/-- "abcd1bcdef2abcdef" and 14 other bytes: the search at 12 improves the one at 11 (R164). -/
def lazySource (a : Nat) : Byte :=
  ([0x61, 0x62, 0x63, 0x64, 0x31, 0x62, 0x63, 0x64, 0x65, 0x66, 0x32, 0x61, 0x62, 0x63, 0x64, 0x65, 0x66, 0x33, 0x34, 0x35,
    0x36, 0x37, 0x38, 0x39, 0x41, 0x42, 0x43, 0x44, 0x45, 0x46, 0x47] : List Byte).getD a 0

/-- The finder at position 10 of it. -/
def lazyStart : HcFinder := { HcFinder.init with ip := 10, anchor := 10 }

/-- A match of no length, which any match improves. -/
def lazyMatchStart : Found := { start := 10, offset := 1, len := 0 }

/-- Lazy matching that moves on twice, and one that stays at the margin. -/
theorem test_witness_ParsesRunToTheMargin :
    (∃ (search : Nat → Option Found) (m' : Found) (f' : HcFinder),
      (∀ p, search p = (find Config.params lazySource 31 1 lazyStart.chains p lazyStart.anchor).1) ∧
      lazyMatch Config.params lazySource 31 1 31 lazyStart lazyMatchStart = (m', f') ∧
      lazyStart.ip < 11 ∧ 11 < f'.ip ∧ f'.ip + 1 + 12 < 31 ∧ m'.len = 5) ∧
    ∃ (search : Nat → Option Found) (m' : Found) (f' : HcFinder),
      (∀ p, search p = (find Config.params lazySource 23 1 lazyStart.chains p lazyStart.anchor).1) ∧
      lazyMatch Config.params lazySource 23 1 23 lazyStart lazyMatchStart = (m', f') ∧ f'.ip = lazyStart.ip :=
  ⟨⟨_, _, _, fun _ => rfl, rfl, by decide, by decide, by decide, by decide⟩, _, _, _, fun _ => rfl, rfl, by decide⟩

theorem test_witness_ExtensionsAreLongest : (0 < 4 ∧ 4 ≤ 4) ∧ (0 < 4 ∧ 4 ≤ 8) ∧ common abcd 0 4 8 = 4 ∧
    5 ≤ 5 ∧ 4 ≤ 6 ∧ backlen abcd 2 6 4 = 2 := by decide

theorem test_witness_SmallInputsAreLiterals : 0 < 13 ∧ 12 < 13 := by decide

theorem test_witness_BlockSizeBound : Tiling 0 [.lastSeq 0 0] 0 ∧ Tiling 10 [.matchSeq 0 1 1 4, .lastSeq 5 5] 0 :=
  ⟨⟨rfl, rfl⟩, rfl, by decide, rfl, rfl⟩

theorem test_witness_BoundFormula : 0x7E000000 ≤ Config.params.maxInputSize ∧ Config.params.maxInputSize < 0x7E000001 ∧
    Config.params.Ok ∧ 0x80000000 ≤ 0x80000000 ∧ (started 0 255 0 0 []).srcLen = 255 :=
  ⟨by decide, by decide, Config.params_ok, by decide, by decide⟩

/-- The capacity 10 is exactly the block's length; the empty input has a block of one byte. -/
theorem test_witness_CompressCompletes :
    ((started 1 20 10 0 as20).n ≤ Config.params.maxInputSize ∧
      as20Block = encodeBlock (started 1 20 10 0 as20).srcByte
        (parseFast Config.params (started 1 20 10 0 as20).srcByte (started 1 20 10 0 as20).n).1 ∧
      as20Block.length ≤ (started 1 20 10 0 as20).cap) ∧
    [0x00] = encodeBlock (started 1 0 1 0 []).srcByte
      (parseFast Config.params (started 1 0 1 0 []).srcByte (started 1 0 1 0 []).n).1 := by decide

theorem test_witness_CompressHcCompletes :
    (started 2 20 10 16 as20).n ≤ Config.params.maxInputSize ∧ 0 < (started 2 20 10 16 as20).n ∧
    0 < (started 2 20 10 16 as20).cap ∧
    as20Block = encodeBlock (started 2 20 10 16 as20).srcByte
      (parseHc Config.params (started 2 20 10 16 as20).srcByte (started 2 20 10 16 as20).n
        (Config.params.depth (clampLevel (started 2 20 10 16 as20).level))).1 ∧
    as20Block.length ≤ (started 2 20 10 16 as20).cap := by decide

theorem test_witness_SpaceTestIsExact :
    (started 1 20 10 0 as20).n ≤ Config.params.maxInputSize ∧
    (started 1 20 10 0 as20).cap = (encodeBlock (started 1 20 10 0 as20).srcByte
      (parseFast Config.params (started 1 20 10 0 as20).srcByte (started 1 20 10 0 as20).n).1).length ∧
    (started 1 20 9 0 as20).cap < (encodeBlock (started 1 20 9 0 as20).srcByte
      (parseFast Config.params (started 1 20 9 0 as20).srcByte (started 1 20 9 0 as20).n).1).length ∧
    (started 1 0 0 0 []).cap = 0 ∧ 0 < (started 2 20 1 0 as20).n ∧ 0 < (started 2 20 1 0 as20).cap := by decide

theorem test_witness_TooLargeIsReportedFirst :
    Config.params.maxInputSize < (started 1 0x7E000001 0 0 []).n ∧
    ({ Config.params with maxInputSize := 19 } : Config.Params).maxInputSize < (started 2 20 36 0 as20).n := by decide

theorem test_witness_HcBypassIsCompress :
    ((started 2 0 1 0 []).n = 0 ∧ 0 < (started 2 0 1 0 []).cap) ∧
    ((started 2 20 0 0 as20).cap = 0 ∧ (started 2 20 0 0 as20).n ≤ Config.params.maxInputSize) := by decide

theorem test_witness_BoundBufferSuffices :
    (started 1 20 36 0 as20).n ≤ Config.params.maxInputSize ∧
    bound Config.params (started 1 20 36 0 as20).n ≤ (started 1 20 36 0 as20).cap := by decide

/-- The state that has the block of `as20` in DST, and one in which that block is to be decompressed. -/
def compressed : State := after (exec .compress (started 1 20 36 0 as20)) (started 1 20 36 0 as20)

theorem test_witness_CompressRoundTrip :
    execWith Config.params .compress (started 1 20 36 0 as20) = .next compressed ∧ compressed.status = .ok ∧
    (started 3 10 20 0 as20Block).srcLen = compressed.count ∧
    (started 3 10 20 0 as20Block).dstCap = (started 1 20 36 0 as20).srcLen ∧
    ∀ i, i < (started 3 10 20 0 as20Block).n → (started 3 10 20 0 as20Block).srcByte i = compressed.dstByte i :=
  ⟨rfl, by decide, by decide, by decide, by decide⟩

/-- As `compressed`, by COMPRESS_HC. -/
def compressedHc : State := after (exec .compressHc (started 2 20 36 3 as20)) (started 2 20 36 3 as20)

theorem test_witness_CompressHcRoundTrip :
    execWith Config.params .compressHc (started 2 20 36 3 as20) = .next compressedHc ∧ compressedHc.status = .ok ∧
    (started 3 10 20 0 as20Block).srcLen = compressedHc.count ∧
    (started 3 10 20 0 as20Block).dstCap = (started 2 20 36 3 as20).srcLen ∧
    ∀ i, i < (started 3 10 20 0 as20Block).n → (started 3 10 20 0 as20Block).srcByte i = compressedHc.dstByte i :=
  ⟨rfl, by decide, by decide, by decide, by decide⟩

theorem test_witness_TruncatedBlockIsReported :
    execWith Config.params .compress (started 1 20 36 0 as20) = .next compressed ∧ compressed.status = .ok ∧
    (started 3 9 20 0 as20Block).n + 1 = compressed.count.toNat ∧
    (started 3 9 20 0 as20Block).dstCap = (started 1 20 36 0 as20).srcLen ∧
    ∀ j, j < (started 3 9 20 0 as20Block).n → (started 3 9 20 0 as20Block).srcByte j = compressed.dstByte j :=
  ⟨rfl, by decide, by decide, by decide, by decide⟩

theorem test_witness_DecompressCompletes :
    (started 3 2 1 0 [0x17, 0x61]).n = (encodeLast [0x61] 7).length ∧
    holdsBytes (started 3 2 1 0 [0x17, 0x61]).srcByte (encodeLast [0x61] 7) ∧
    ([0x61] : List Byte).length ≤ (started 3 2 1 0 [0x17, 0x61]).cap := by decide

theorem test_witness_TokenCompletes :
    State.decoderAt (decoding .readToken 9 0 20 as20Block) .readToken = true ∧
    (decoding .readToken 9 0 20 as20Block).ip < (decoding .readToken 9 0 20 as20Block).n ∧
    State.decoderAt (decoding .readToken 10 0 20 as20Block) .readToken = true ∧
    (decoding .readToken 10 0 20 as20Block).n ≤ (decoding .readToken 10 0 20 as20Block).ip := by decide

theorem test_witness_ExtensionBytesAccumulate :
    (State.decoderAt (decoding .readLiteralExtension 1 0 20 [0xF0, 0xFF]) .readLiteralExtension = true ∧
      (decoding .readLiteralExtension 1 0 20 [0xF0, 0xFF]).ip < (decoding .readLiteralExtension 1 0 20 [0xF0, 0xFF]).n) ∧
    (State.decoderAt (decoding .readMatchExtension 1 0 20 [0xF0, 0xFF]) .readMatchExtension = true ∧
      (decoding .readMatchExtension 1 0 20 [0xF0, 0xFF]).ip < (decoding .readMatchExtension 1 0 20 [0xF0, 0xFF]).n) ∧
    (254 : Byte) ≠ 255 ∧
    (State.extensionDue (decoding .readMatchExtension 2 0 20 [0xF0, 0xFF]) = true ∧
      (decoding .readMatchExtension 2 0 20 [0xF0, 0xFF]).n ≤ (decoding .readMatchExtension 2 0 20 [0xF0, 0xFF]).ip) := by
  decide

/-- A literal run of `len` bytes at input 1 of a block of three bytes, into `cap` bytes. -/
def literals (len : Nat) (cap : Word32) : State := { decoding .copyLiterals 1 0 cap [0x20, 0x61, 0x62] with litlen := len }

/-- Two literals left; one left at the last input byte; one left before it. -/
theorem test_witness_LiteralCompletes :
    (State.decoderAt (literals 2 2) .copyLiterals = true ∧ 1 < (literals 2 2).litlen ∧
      (literals 2 2).litlen ≤ (literals 2 2).cap - (literals 2 2).op ∧
      (literals 2 2).litlen ≤ (literals 2 2).n - (literals 2 2).ip) ∧
    (State.decoderAt { literals 1 1 with ip := 2 } .copyLiterals = true ∧ ({ literals 1 1 with ip := 2 } : State).litlen = 1 ∧
      ({ literals 1 1 with ip := 2 } : State).ip + 1 = ({ literals 1 1 with ip := 2 } : State).n) ∧
    (State.decoderAt (literals 1 1) .copyLiterals = true ∧ (literals 1 1).litlen = 1 ∧
      (literals 1 1).litlen ≤ (literals 1 1).cap - (literals 1 1).op ∧
      (literals 1 1).litlen ≤ (literals 1 1).n - (literals 1 1).ip ∧ (literals 1 1).ip + 1 ≠ (literals 1 1).n) := by decide

/-- One byte too little room; one byte too little input; the run that ends the block; a run before an offset. -/
theorem test_witness_CopyLiteralsRule :
    (State.decoderAt (literals 2 1) .copyLiterals = true ∧ State.CursorsOk (literals 2 1) ∧
      (literals 2 1).cap - (literals 2 1).op < (literals 2 1).litlen) ∧
    (State.decoderAt (literals 3 3) .copyLiterals = true ∧ State.CursorsOk (literals 3 3) ∧
      (literals 3 3).litlen ≤ (literals 3 3).cap - (literals 3 3).op ∧
      (literals 3 3).n - (literals 3 3).ip < (literals 3 3).litlen) ∧
    (State.decoderAt (literals 2 2) .copyLiterals = true ∧ State.CursorsOk (literals 2 2) ∧
      (literals 2 2).litlen ≤ (literals 2 2).cap - (literals 2 2).op ∧
      (literals 2 2).litlen ≤ (literals 2 2).n - (literals 2 2).ip ∧
      (literals 2 2).ip + (literals 2 2).litlen = (literals 2 2).n) ∧
    (State.decoderAt (literals 0 0) .copyLiterals = true ∧ State.CursorsOk (literals 0 0) ∧
      (literals 0 0).litlen ≤ (literals 0 0).cap - (literals 0 0).op ∧
      (literals 0 0).litlen ≤ (literals 0 0).n - (literals 0 0).ip ∧
      (literals 0 0).ip + (literals 0 0).litlen ≠ (literals 0 0).n) := by decide

theorem test_witness_LiteralRunIsCopyLiterals :
    State.decoderAt (literals 2 2) .copyLiterals = true ∧ 0 < (literals 2 2).litlen ∧
    (literals 2 2).litlen ≤ (literals 2 2).cap - (literals 2 2).op ∧
    (literals 2 2).litlen ≤ (literals 2 2).n - (literals 2 2).ip ∧
    [0x61, 0x62] = slice (literals 2 2).srcByte (literals 2 2).ip (literals 2 2).litlen := by decide

/-- One byte left; two left with offset 0, with the offset one beyond `op`, and with the offset at `op`. -/
theorem test_witness_OffsetCompletes :
    (State.decoderAt (decoding .readOffset 9 1 20 as20Block) .readOffset = true ∧
      (decoding .readOffset 9 1 20 as20Block).n - (decoding .readOffset 9 1 20 as20Block).ip < 2) ∧
    (State.decoderAt (decoding .readOffset 8 1 20 as20Block) .readOffset = true ∧
      2 ≤ (decoding .readOffset 8 1 20 as20Block).n - (decoding .readOffset 8 1 20 as20Block).ip ∧
      (decoding .readOffset 8 1 20 as20Block).op < (2 : BitVec 16).toNat ∧
      (1 : BitVec 16) ≠ 0 ∧ (1 : BitVec 16).toNat ≤ (decoding .readOffset 8 1 20 as20Block).op) := by decide

/-- A match of 14 bytes at offset 1 behind one byte of output, into `cap` bytes. -/
def matchDue (cap : Word32) : State :=
  { decoding .copyMatch 4 1 cap as20Block with
    offset := 1
    mlen := 14
    dst := Memory.writeList State.reset.dst 0 [0x61] }

theorem test_witness_CopyMatchRule :
    (State.decoderAt (matchDue 15) .copyMatch = true ∧ 1 ≤ (matchDue 15).offset.toNat ∧
      (matchDue 15).offset.toNat ≤ (matchDue 15).op ∧ (matchDue 15).mlen ≤ (matchDue 15).cap - (matchDue 15).op) ∧
    (State.decoderAt (matchDue 14) .copyMatch = true ∧ (matchDue 14).cap - (matchDue 14).op < (matchDue 14).mlen) := by decide

theorem test_witness_SequencesAreWritten :
    (State.encoding (started 1 20 4 0 as20) = true ∧
      (started 1 20 4 0 as20).op + (encodeMatch [0x61] 1 14).length ≤ (started 1 20 4 0 as20).cap) ∧
    (State.encoding (started 2 20 3 0 as20) = true ∧
      (started 2 20 3 0 as20).cap < (started 2 20 3 0 as20).op + (encodeMatch [0x61] 1 14).length) ∧
    (State.encoding (started 1 20 2 0 as20) = true ∧
      (started 1 20 2 0 as20).op + (encodeLast [0x61] 0).length ≤ (started 1 20 2 0 as20).cap) ∧
    (State.encoding (started 1 20 1 0 as20) = true ∧
      (started 1 20 1 0 as20).cap < (started 1 20 1 0 as20).op + (encodeLast [0x61] 0).length) := by decide

theorem test_witness_SequenceIsItsElements :
    State.decoderAt (decoding .readToken 0 0 20 as20Block) .readToken = true ∧
    decode .sequence (slice (decoding .readToken 0 0 20 as20Block).srcByte 0 10) =
      .ok (.seqMatch [0x61] 1 14, [0x50, 0x61, 0x61, 0x61, 0x61, 0x61]) := ⟨by decide, rfl⟩

theorem test_witness_DecompressIsItsSteps : (started 3 10 20 0 as20Block).crOp = 3 := by decide

theorem test_witness_CompressorIsItsSteps : (started 1 20 36 0 as20).crOp = 1 ∧ (started 2 20 36 0 as20).crOp = 2 := by decide

/-- Two states with the same operands whose DST, working registers and further source bytes differ. -/
theorem test_witness_ResultDependsOnOperandsOnly :
    isCommand .compress = true ∧ (literals 2 2).srcLen = (started 3 3 2 0 [0x20, 0x61, 0x62, 0x63]).srcLen ∧
    (literals 2 2).dstCap = (started 3 3 2 0 [0x20, 0x61, 0x62, 0x63]).dstCap ∧
    (literals 2 2).level = (started 3 3 2 0 [0x20, 0x61, 0x62, 0x63]).level ∧
    (∀ a, a < (started 3 3 2 0 [0x20, 0x61, 0x62, 0x63]).n →
      (literals 2 2).srcByte a = (started 3 3 2 0 [0x20, 0x61, 0x62, 0x63]).srcByte a) ∧
    exec .bound (started 3 3 2 0 []) = .next (after (exec .bound (started 3 3 2 0 [])) (started 3 3 2 0 [])) :=
  ⟨by decide, by decide, by decide, by decide, by decide, rfl⟩

/-- An Ok end, a failed end, and BOUND. -/
theorem test_witness_DstAfterAnOperation :
    (isCommand .compress = true ∧ exec .compress (started 1 20 36 0 as20) = .next compressed ∧ compressed.status = .ok) ∧
    ((after (exec .compress (started 1 20 9 0 as20)) (started 1 20 9 0 as20)).status ≠ .ok) ∧ isCommand .bound = true :=
  ⟨⟨by decide, rfl, by decide⟩, by decide, by decide⟩

theorem test_witness_WhatInstructionsNeverWrite :
    exec .compress (started 1 20 36 0 as20) = .next compressed ∧
    exec .compressHc (started 2 20 36 3 as20) = .next compressedHc ∧ State.hcBypass (started 2 20 36 3 as20) = false :=
  ⟨rfl, rfl, by decide⟩

theorem test_witness_ResetWhileBusy :
    (started 1 20 36 0 as20).phase = .busy ∧
    ({ started 1 20 36 0 as20 with host := [.reset] } : State).host = HostAction.reset :: [] ∧
    ({ compressed with host := [.reset] } : State).host = HostAction.reset :: [] ∧ 35 < (started 1 20 36 0 as20).cap ∧
    0 < addressCount := by decide

theorem test_witness_StartRunsTheSelectedOperation :
    ({ State.reset with host := [.writeReg .status 1] } : State).host = HostAction.writeReg .status 1 :: [] ∧
    ({ State.reset with host := [.writeReg .start 1] } : State).host = HostAction.writeReg .start 1 :: [] ∧
    State.reset.phase ≠ .busy ∧ (1 : Word32).getLsbD 0 = true ∧ (2 : Word32).getLsbD 0 = false ∧
    (started 1 20 36 0 as20).phase = .busy := by decide

theorem test_witness_RegisterReads :
    State.ResultsOk (started 1 20 36 0 as20) ∧ (started 1 20 36 0 as20).phase = .busy ∧ State.reset.phase = .idle ∧
    compressed.phase = .done ∧ compressed.status = .ok ∧
    (after (exec .compress (started 1 20 9 0 as20)) State.reset).status = .insufficientOutputSpace ∧
    (after (exec .decompress (started 3 10 19 0 as20Block)) State.reset).status = .outputOverrun ∧
    (after (exec .decompress (started 3 9 20 0 as20Block)) State.reset).status = .inputTruncated ∧
    (after (exec .decompress (started 3 3 20 0 [0x00, 0x01, 0x00])) State.reset).status = .corruptOffset ∧
    (after (exec .compress (started 1 0x7E000001 0 0 [])) State.reset).status = .inputTooLarge := by decide

/-- A step into BUSY, one into IDLE, and one from DONE to DONE. -/
theorem test_witness_PhaseTransitions :
    (State.reset.phase ≠ .busy ∧ (after (step { State.reset with host := [.writeReg .start 1] }) State.reset).phase = .busy) ∧
    (compressed.phase ≠ .idle ∧ (after (step { compressed with host := [.reset] }) compressed).phase = .idle) ∧
    (compressed.phase = .done ∧ (after (step compressed) State.reset).phase = .done) ∧ State.reset.host = [] := by decide

/-- A write to the last byte of SRC and of DST[0..DST_CAP) while BUSY, and one to the byte behind it; an early look at the last
byte of DST[0..DST_CAP) and a look at the byte behind it. -/
theorem test_witness_OnlyHostWritesAreRefused :
    ((started 1 20 36 0 as20).phase = .busy ∧ (35 : Word32).toNat < (started 1 20 36 0 as20).cap) ∧
    ¬ ((started 1 20 36 0 as20).phase = .busy ∧ (20 : Word32).toNat < (started 1 20 36 0 as20).n) ∧
    ¬ ((started 1 20 36 0 as20).phase = .busy ∧ (36 : Word32).toNat < (started 1 20 36 0 as20).cap) ∧
    step { started 1 20 36 0 as20 with host := [.writeSrc 19 0] } = .refused .srcWriteWhileBusy ∧
    step { started 1 20 36 0 as20 with host := [.writeDst 35 0] } = .refused .dstWriteWhileBusy :=
  ⟨by decide, by decide, by decide, rfl, rfl⟩

theorem test_witness_NoFaultInSafeStates : State.DecoderOk (matchDue 15) :=
  fun _ _ => ⟨by decide, by decide, by decide, by decide, by decide⟩

/-- A started operation; a decoder that has moved, at a token and at an offset; a compressor under a tick. -/
theorem test_witness_StepRunsTheDecodedInstruction :
    ((started 1 20 36 0 as20).phase = .busy ∧ State.fresh (started 1 20 36 0 as20) = true ∧
      (started 1 20 36 0 as20).host = []) ∧
    ((decoding .readOffset 2 1 20 as20Block).phase = .busy ∧ (decoding .readOffset 2 1 20 as20Block).crOp = 3 ∧
      (decoding .readOffset 2 1 20 as20Block).dstate.slot = some .offset ∧
      decode .offset (slice (decoding .readOffset 2 1 20 as20Block).srcByte 2 8) =
        .ok (.offset 1, [0x50, 0x61, 0x61, 0x61, 0x61, 0x61]) ∧
      (decoding .readOffset 2 1 20 as20Block).host = [] ∧ State.fresh (decoding .readOffset 2 1 20 as20Block) = false) ∧
    ((started 2 20 36 0 as20).crOp = 2 ∧ (started 2 20 36 0 as20).n ≤ Config.params.maxInputSize) :=
  ⟨by decide, ⟨by decide, by decide, by decide, rfl, by decide, by decide⟩, by decide⟩

/-- States in the middle of an operation that meet the invariants, and steps from them that answer a next state. -/
theorem test_witness_Invariants :
    State.MemOk (matchDue 15) ∧ State.ResultsOk (matchDue 15) ∧ State.CursorsOk (matchDue 15) ∧ State.DecoderOk (matchDue 15) ∧
    step (matchDue 15) = .next (after (step (matchDue 15)) State.reset) ∧
    State.MemOk (started 1 20 36 0 as20) ∧ State.CursorsOk (started 1 20 36 0 as20) :=
  ⟨by decide, by decide, by decide, test_witness_NoFaultInSafeStates, rfl, by decide, by decide⟩

end Sys2Proof.Tests
end

/-! # Proofs: how far a match extends (spec/00_scope.md R11, spec/41_fast_compress.md R115) -/

namespace Sys2Proof.Machine

variable {src src' : Nat → Byte}

/-! ## Forward: `equalRun` and `common` -/

theorem equalRun_le (k a b : Nat) : equalRun src k a b ≤ k := by
  induction k generalizing a b with
  | zero => exact Nat.le_refl 0
  | succ k ih =>
    unfold equalRun
    split
    · exact Nat.succ_le_succ (ih _ _)
    · exact Nat.zero_le _

theorem equalRun_equal {k a b i : Nat} (h : i < equalRun src k a b) : src (a + i) = src (b + i) := by
  induction k generalizing a b i with
  | zero => exact absurd h (Nat.not_lt_zero i)
  | succ k ih =>
    unfold equalRun at h
    split at h
    · next heq =>
      cases i with
      | zero => exact heq
      | succ i => simpa [Nat.add_right_comm, Nat.add_assoc] using ih (Nat.lt_of_succ_lt_succ h)
    · exact absurd h (Nat.not_lt_zero i)

theorem le_equalRun {k m a b : Nat} (hk : k ≤ m) (h : ∀ i, i < k → src (a + i) = src (b + i)) :
    k ≤ equalRun src m a b := by
  induction m generalizing k a b with
  | zero => exact hk
  | succ m ih =>
    cases k with
    | zero => exact Nat.zero_le _
    | succ k =>
      have h0 : src a = src b := h 0 k.succ_pos
      have htail : ∀ i, i < k → src (a + 1 + i) = src (b + 1 + i) := fun i hi => by
        simpa [Nat.add_right_comm, Nat.add_assoc] using h (i + 1) (Nat.succ_lt_succ hi)
      rw [equalRun, if_pos h0]
      exact Nat.succ_le_succ (ih (Nat.le_of_succ_le_succ hk) htail)

/-- No byte at or beyond `b + k` is read. -/
theorem equalRun_congr {k a b : Nat} (hab : a ≤ b) (h : ∀ x, x < b + k → src' x = src x) :
    equalRun src' k a b = equalRun src k a b := by
  induction k generalizing a b with
  | zero => rfl
  | succ k ih =>
    rw [equalRun, equalRun, h a (by omega), h b (by omega),
      ih (Nat.succ_le_succ hab) (fun x hx => h x (by omega))]

theorem add_common_le {b lim : Nat} (a : Nat) (h : b ≤ lim) : b + common src a b lim ≤ lim := by
  have := equalRun_le (src := src) (lim - b) a b
  unfold common
  omega

theorem common_equal {a b lim i : Nat} (h : i < common src a b lim) : src (a + i) = src (b + i) := equalRun_equal h

/-! ## Backward: `backlen` -/

theorem backlen_le (q ip anchor : Nat) : backlen src q ip anchor ≤ q := by
  induction q generalizing ip with
  | zero => exact Nat.le_refl 0
  | succ q ih =>
    unfold backlen
    split
    · exact Nat.succ_le_succ (ih _)
    · exact Nat.zero_le _

theorem anchor_add_backlen_le {ip anchor : Nat} (q : Nat) (h : anchor ≤ ip) : anchor + backlen src q ip anchor ≤ ip := by
  induction q generalizing ip with
  | zero => exact h
  | succ q ih =>
    unfold backlen
    split
    · next hstep =>
      have := ih (ip := ip - 1) (by omega)
      omega
    · exact h

theorem backlen_equal {q ip anchor i : Nat} (h1 : 1 ≤ i) (h : i ≤ backlen src q ip anchor) :
    src (ip - i) = src (q - i) := by
  induction q generalizing ip i with
  | zero => exact absurd h (by simp [backlen]; omega)
  | succ q ih =>
    unfold backlen at h
    split at h
    · next hstep =>
      obtain rfl | ⟨j, rfl, hj⟩ : i = 1 ∨ ∃ j, i = j + 1 ∧ 1 ≤ j := by
        rcases Nat.lt_or_ge 1 i with hi | hi
        · exact .inr ⟨i - 1, by omega, by omega⟩
        · exact .inl (by omega)
      · exact hstep.2
      · have := ih (ip := ip - 1) hj (by omega)
        rwa [Nat.sub_sub, Nat.add_comm 1 j, show q - j = q + 1 - (j + 1) by omega] at this
    · omega

theorem le_backlen {q ip anchor b : Nat} (ha : anchor + b ≤ ip) (hq : b ≤ q)
    (h : ∀ i, 1 ≤ i → i ≤ b → src (ip - i) = src (q - i)) : b ≤ backlen src q ip anchor := by
  induction q generalizing ip b with
  | zero => exact hq
  | succ q ih =>
    cases b with
    | zero => exact Nat.zero_le _
    | succ b =>
      have hstep : anchor < ip ∧ src (ip - 1) = src q := ⟨by omega, h 1 (Nat.le_refl 1) (by omega)⟩
      have hrest : ∀ i, 1 ≤ i → i ≤ b → src (ip - 1 - i) = src (q - i) := fun i hi hib => by
        have := h (i + 1) (by omega) (by omega)
        rwa [Nat.add_comm i 1, ← Nat.sub_sub, show q + 1 - (1 + i) = q - i by omega] at this
      rw [backlen, if_pos hstep]
      exact Nat.succ_le_succ (ih (by omega) (Nat.le_of_succ_le_succ hq) hrest)

/-- Settles O15: forward, the run of equal bytes up to `lim`; backward, the run of equal bytes down to the anchor. -/
theorem extensionsAreLongest : Obligations.ExtensionsAreLongest := by
  refine ⟨fun src a b lim hab hlim => ⟨add_common_le a hlim, fun i => common_equal, ?_, ?_⟩, fun src q ip anchor ha =>
    ⟨anchor_add_backlen_le q ha, backlen_le q ip anchor, fun i => backlen_equal, fun b => le_backlen⟩⟩
  · intro k hk h
    exact le_equalRun (by omega) h
  · intro src' h
    exact equalRun_congr (Nat.le_of_lt hab) (fun x hx => h x (by omega))

/-! # Proofs: the size test of the compressors (spec/41_fast_compress.md R112, spec/60_exceptions.md R241) -/

theorem execWith_compressor_tooLarge {P : Config.Params} {s : State} {i : Instr} (hi : i = .compress ∨ i = .compressHc)
    (h : P.maxInputSize < s.n) : execWith P i s = .next (State.raise s .inputTooLarge) := by
  rcases hi with rfl | rfl
  · rw [execWith, State.compressWith, if_pos h]
  · rw [execWith, State.compressHcWith, if_pos h]

/-- `raise` touches results and DST only (R236). -/
theorem State.raise_sameOperands (s : State) (k : ResultKind) : SameOperands s (State.raise s k) := by
  constructor <;> rfl

theorem State.raise_sameTables (s : State) (k : ResultKind) : SameTables s (State.raise s k) := by
  constructor <;> rfl

theorem State.raise_failedWith (s : State) (k : ResultKind) : FailedWith k (State.raise s k) := by
  constructor <;> rfl

/-- Settles O26: both compressors raise InputTooLarge from the state they start in. -/
theorem tooLargeIsReportedFirst : Obligations.TooLargeIsReportedFirst := by
  intro P s i hi h
  have hrun := execWith_compressor_tooLarge hi h
  refine ⟨State.raise s .inputTooLarge, hrun, ?_, State.raise_failedWith s _, State.raise_sameTables s _,
    State.raise_sameOperands s _, rfl, rfl, rfl, rfl⟩
  rintro rfl
  rw [← execWith_params, hrun]

/-! # Proofs: what a step fetches and runs (spec/10_state.md R20, R27, spec/46_command_interface.md R212) -/

theorem slice_of_pos (space : Nat → Byte) (a : Nat) {k : Nat} (h : 0 < k) :
    slice space a k = space a :: slice space (a + 1) (k - 1) := by
  cases k with
  | zero => exact absurd h (Nat.lt_irrefl 0)
  | succ k => rfl

@[simp] theorem slice_length (space : Nat → Byte) (a k : Nat) : (slice space a k).length = k := by
  induction k generalizing a with
  | zero => rfl
  | succ k ih => simp [slice, ih]

/-- Nothing decodes from no bytes (R79). -/
theorem decode_nil_ne_ok (slot : Slot) (r : Instr × List Byte) : decode slot [] ≠ .ok r := by
  cases slot <;> exact nofun

/-- An element that decodes from the remaining source bytes is the one the decoder fetches (R27, R78). -/
theorem State.fetchWire_of_decode {s : State} {slot : Slot} {i : Instr} {more : List Byte} (hslot : s.dstate.slot = some slot)
    (h : decode slot (slice s.srcByte s.ip (s.n - s.ip)) = .ok (i, more)) : State.fetchWire s = .element i := by
  have hleft : s.ip < s.n := by
    by_contra hle
    rw [Nat.sub_eq_zero_of_le (Nat.not_lt.1 hle)] at h
    exact decode_nil_ne_ok slot _ h
  rw [slice_of_pos _ _ (Nat.sub_pos_of_lt hleft)] at h
  unfold State.fetchWire
  cases hd : s.dstate with
  | readToken | readLiteralExtension | readMatchExtension =>
    simp only [hd, DState.slot, Option.some.injEq] at hslot
    subst hslot
    simp only [decode, Except.ok.injEq, Prod.mk.injEq] at h
    simp [Nat.not_le.2 hleft, h.1]
  | readOffset =>
    simp only [hd, DState.slot, Option.some.injEq] at hslot
    subst hslot
    by_cases htwo : s.n - s.ip - 1 = 0
    · simp [htwo, slice, decode] at h
    · rw [slice_of_pos _ _ (Nat.pos_of_ne_zero htwo)] at h
      simp only [decode, Except.ok.injEq, Prod.mk.injEq] at h
      simp [show ¬ s.n - s.ip < 2 by omega, h.1]
  | copyLiterals | copyMatch | done | failed => simp [hd, DState.slot] at hslot

/-- While DECOMPRESS runs, an elementary step executes the element that the bytes at `ip` decode to. -/
theorem codecTick_of_decode (P : Config.Params) {s : State} {slot : Slot} {i : Instr} {more : List Byte} (hb : s.phase = .busy)
    (hop : s.crOp = 3) (hslot : s.dstate.slot = some slot)
    (h : decode slot (slice s.srcByte s.ip (s.n - s.ip)) = .ok (i, more)) : codecTick P s = exec i s := by
  simp [codecTick, hb, hop, decompressTick, State.fetchWire_of_decode hslot h]

/-- While a compressor runs on an admissible input, an elementary step executes the sequence its match finder hands over. -/
theorem codecTick_of_compressor {P : Config.Params} {s : State} (hb : s.phase = .busy) (hop : s.crOp = 1 ∨ s.crOp = 2)
    (h : s.n ≤ P.maxInputSize) :
    codecTick P s = exec (State.nextSequence P s).2 (State.nextSequence P s).1 := by
  rcases hop with hop | hop <;> simp [codecTick, hb, hop, compressTick, Nat.not_lt.2 h]

theorem step_of_tick {s : State} {rest : List HostAction} (h : s.host = .tick :: rest) :
    step s = codecTick Config.params { s with host := rest } := by
  simp [step, stepWith, h, hostStep]

theorem step_of_no_host {s : State} (h : s.host = []) : step s = codecRun Config.params s := by
  simp [step, stepWith, h]

/-- Settles O55: a started operation by `codecRun`, an element by `codecTick_of_decode`, a sequence by
`codecTick_of_compressor`. -/
theorem stepRunsTheDecodedInstruction : Obligations.StepRunsTheDecodedInstruction := by
  refine ⟨fun i s => ⟨(execWith_params i s).symm, rfl⟩, ?_, ?_, ?_⟩
  · intro s hb hfresh hhost
    rw [step_of_no_host hhost, codecRun, if_pos ⟨hb, hfresh⟩, execWith_params]
  · intro s slot i more hb hop hslot h
    refine ⟨fun rest hhost => ?_, fun hhost hmoved => ?_⟩
    · rw [step_of_tick hhost]
      exact codecTick_of_decode Config.params (s := { s with host := rest }) hb hop hslot h
    · rw [step_of_no_host hhost, codecRun, if_neg (by simp [hmoved])]
      exact codecTick_of_decode Config.params hb hop hslot h
  · intro s rest hb hop hn hhost
    rw [step_of_tick hhost]
    exact codecTick_of_compressor (s := { s with host := rest }) hb hop hn

end Sys2Proof.Machine

/-! # Proofs: every parse is well formed (spec/41_fast_compress.md R124, spec/44_hc_compress.md R166) -/

namespace Sys2Proof.Machine

variable {src : Nat → Byte} {P : Config.Params} {n : Nat}

/-! ## A match that a parse may hold -/

/-- What R124 and R166 ask of a match with `l` literals from `a` on, offset `d` and length `m`. -/
structure GoodMatch (src : Nat → Byte) (n a l d m : Nat) : Prop where
  offsetPos : 1 ≤ d
  offsetLow : d ≤ 65535
  offsetIn : d ≤ a + l
  lenLow : 4 ≤ m
  startIn : a + l + 12 < n
  endIn : a + l + m + 5 ≤ n
  equal : ∀ i, i < m → src (a + l + i) = src (a + l - d + i)

theorem parseOk_matchSeq {a l d m start : Nat} {rest : List SeqDesc} : ParseOk src n (.matchSeq a l d m :: rest) start ↔
    a = start ∧ GoodMatch src n a l d m ∧ ParseOk src n rest (a + l + m) := by
  constructor
  · rintro ⟨ha, h1, h2, h3, h4, h5, h6, h7, hrest⟩
    exact ⟨ha, ⟨h1, h2, h3, h4, h5, h6, h7⟩, hrest⟩
  · rintro ⟨ha, ⟨h1, h2, h3, h4, h5, h6, h7⟩, hrest⟩
    exact ⟨ha, h1, h2, h3, h4, h5, h6, h7, hrest⟩

theorem parseOk_lastSeq {a : Nat} (h : a ≤ n) : ParseOk src n [.lastSeq a (n - a)] a :=
  ⟨rfl, Nat.add_sub_cancel' h⟩

/-- A word determines its four bytes (R53). -/
theorem word4_equal {p q i : Nat} (h : word4 src p = word4 src q) (hi : i < 4) : src (p + i) = src (q + i) := by
  unfold word4 at h
  have hlt : ∀ x, (src x).toNat < 256 := fun x => (src x).isLt
  have := hlt p; have := hlt (p + 1); have := hlt (p + 2); have := hlt (p + 3)
  have := hlt q; have := hlt (q + 1); have := hlt (q + 2); have := hlt (q + 3)
  apply BitVec.eq_of_toNat_eq
  obtain rfl | rfl | rfl | rfl : i = 0 ∨ i = 1 ∨ i = 2 ∨ i = 3 := by omega
  · show (src p).toNat = (src q).toNat
    omega
  all_goals omega

/-- The bytes a verified candidate gives forward are equal (R116). -/
theorem fwdLen_equal {cp q i : Nat} (hw : word4 src cp = word4 src q) (hi : i < fwdLen src n cp q) :
    src (cp + i) = src (q + i) := by
  rcases Nat.lt_or_ge i 4 with h4 | h4
  · exact word4_equal hw h4
  · obtain ⟨j, rfl⟩ := Nat.exists_eq_add_of_le h4
    have hj : j < common src (cp + 4) (q + 4) (n - 5) := by
      change 4 + j < 4 + _ at hi
      exact Nat.lt_of_add_lt_add_left hi
    simpa [Nat.add_assoc] using common_equal hj

theorem four_le_fwdLen (cp q : Nat) : 4 ≤ fwdLen src n cp q := Nat.le_add_right 4 _

/-- A match ends before the last five bytes (R116). -/
theorem add_fwdLen_le (cp : Nat) {q : Nat} (h : q + 12 < n) : q + fwdLen src n cp q + 5 ≤ n := by
  have hlim : q + 4 + common src (cp + 4) (q + 4) (n - 5) ≤ n - 5 := add_common_le _ (by omega)
  have hlen : fwdLen src n cp q = 4 + common src (cp + 4) (q + 4) (n - 5) := rfl
  omega

/-- A verified candidate in the window, extended both ways, is a match a parse may hold (R114 to R116, R160). -/
theorem goodMatch_of_candidate {cp q anchor : Nat} (hlt : cp < q) (hwin : q - cp ≤ 65535) (hw : word4 src cp = word4 src q)
    (ha : anchor ≤ q) (hq : q + 12 < n) :
    GoodMatch src n anchor (q - backlen src cp q anchor - anchor) (q - cp)
      (backlen src cp q anchor + fwdLen src n cp q) := by
  have hb1 := anchor_add_backlen_le (src := src) cp ha
  have hb2 := backlen_le (src := src) cp q anchor
  have hf1 := four_le_fwdLen (src := src) (n := n) cp q
  have hf2 := add_fwdLen_le (src := src) cp hq
  have hback : ∀ i, 1 ≤ i → i ≤ backlen src cp q anchor → src (q - i) = src (cp - i) := fun i => backlen_equal
  have hfwd : ∀ i, i < fwdLen src n cp q → src (cp + i) = src (q + i) := fun i => fwdLen_equal hw
  generalize backlen src cp q anchor = back at *
  generalize fwdLen src n cp q = fwd at *
  refine ⟨by omega, hwin, by omega, by omega, by omega, by omega, fun i hi => ?_⟩
  rw [show anchor + (q - back - anchor) = q - back by omega]
  rcases Nat.lt_or_ge i back with hib | hib
  · rw [show q - back + i = q - (back - i) by omega, show q - back - (q - cp) + i = cp - (back - i) by omega]
    exact hback _ (by omega) (by omega)
  · rw [show q - back + i = q + (i - back) by omega, show q - back - (q - cp) + i = cp + (i - back) by omega]
    exact (hfwd _ (by omega)).symm

/-! ## The parse of a scan -/

/-- What a finder's scan may answer when its anchor was `a`: a match from `a` on, with the anchor moved behind it and the finder
in order; or no match, and the anchor where it was. -/
def ScanResult {F : Type} (src : Nat → Byte) (n : Nat) (anchor : F → Nat) (Ok : F → Prop) (a : Nat) :
    Option SeqDesc × F → Prop
  | (some q, f) => Ok f ∧ ∃ l d m, q = .matchSeq a l d m ∧ GoodMatch src n a l d m ∧ anchor f = a + l + m
  | (none, f) => anchor f = a

/-- A parse built from such scans is well formed, whatever its bound on the matches. -/
theorem parseWith_parseOk {F : Type} {scan : F → Option SeqDesc × F} {anchor : F → Nat} {Ok : F → Prop}
    (hscan : ∀ f, Ok f → ScanResult src n anchor Ok (anchor f) (scan f)) (hle : ∀ f, Ok f → anchor f ≤ n) (fuel : Nat)
    {f : F} (hf : Ok f) : ParseOk src n (parseWith scan anchor n fuel f).1 (anchor f) := by
  induction fuel generalizing f with
  | zero => exact parseOk_lastSeq (hle f hf)
  | succ fuel ih =>
    have hres := hscan f hf
    unfold parseWith
    split
    · next q f' heq =>
      rw [heq] at hres
      obtain ⟨hf', l, d, m, rfl, hgood, hanchor⟩ := hres
      exact parseOk_matchSeq.2 ⟨rfl, hgood, hanchor ▸ ih hf'⟩
    · next f' heq =>
      rw [heq] at hres
      have hanchor : anchor f' = anchor f := hres
      rw [hanchor]
      exact parseOk_lastSeq (hle f hf)

/-! ## Tables of positions -/

/-- Every position in the table is below `b`. -/
def Table.Below (t : Table Nat) (b : Nat) : Prop := ∀ a p, Table.get t a = some p → p < b

theorem Table.below_nil (b : Nat) : Table.Below [] b := fun _ _ h => nomatch h

theorem Table.Below.mono {t : Table Nat} {b c : Nat} (h : Table.Below t b) (hbc : b ≤ c) : Table.Below t c :=
  fun a p hp => Nat.lt_of_lt_of_le (h a p hp) hbc

theorem Table.Below.put {t : Table Nat} {b : Nat} (h : Table.Below t b) (a : Nat) {o : Option Nat}
    (ho : ∀ p, o = some p → p < b) : Table.Below (Table.put t a o) b := by
  intro x p hp
  rw [Table.get_put] at hp
  split at hp
  · exact ho p hp
  · exact h x p hp

/-- Inserting position `b` itself raises the limit by one. -/
theorem Table.Below.set {t : Table Nat} {b : Nat} (h : Table.Below t b) (a : Nat) : Table.Below (Table.set t a b) (b + 1) :=
  (h.mono (Nat.le_succ b)).put a (o := some b) (fun _ hp => Option.some.inj hp ▸ Nat.lt_succ_self b)

/-! ## The Fast finder -/

/-- The Fast finder between its passes: the cursors in order, only earlier positions in the table (R102, R113). -/
structure FastFinder.Ok (n : Nat) (f : FastFinder) : Prop where
  anchor_le : f.anchor ≤ f.ip
  ip_le : f.ip ≤ n
  below : Table.Below f.ht f.ip

theorem FastFinder.init_ok (n : Nat) : FastFinder.Ok n FastFinder.init :=
  ⟨Nat.le_refl 0, Nat.zero_le n, Table.below_nil 0⟩

theorem insertRun_below {ht : Table Nat} {p : Nat} (k : Nat) (h : Table.Below ht p) :
    Table.Below (insertRun P src k ht p) (p + k) := by
  induction k generalizing ht p with
  | zero => exact h
  | succ k ih =>
    have := ih (h.set (hash P src p P.fastHashLog))
    rwa [Nat.add_assoc, Nat.add_comm 1 k] at this

/-- A Fast candidate is a valid position in the table (R102, R114). -/
theorem fastCand_some {f : FastFinder} {q : Nat} (h : fastCand P src f = some q) :
    lookupFast P src f.ht f.ip = some q ∧ validCand src q f.ip = true := by
  unfold fastCand at h
  split at h
  · next p hp =>
    split at h
    · next hv => exact Option.some.inj h ▸ ⟨hp, hv⟩
    · exact nomatch h
  · exact nomatch h

theorem validCand_iff {q ip : Nat} : validCand src q ip = true ↔ ip - q ≤ 65535 ∧ word4 src q = word4 src ip := by
  simp [validCand, Config.maxOffset]

theorem fastTake_result {f : FastFinder} (hf : FastFinder.Ok n f) (hip : f.ip + 12 < n) {q : Nat}
    (hq : fastCand P src f = some q) :
    ScanResult src n FastFinder.anchor (FastFinder.Ok n) f.anchor
      (some (fastTake P src n f q).1, (fastTake P src n f q).2) := by
  obtain ⟨hlook, hvalid⟩ := fastCand_some hq
  obtain ⟨hwin, hw⟩ := validCand_iff.1 hvalid
  have hgood := goodMatch_of_candidate (hf.below _ _ hlook) hwin hw hf.anchor_le hip
  have hend := add_fwdLen_le (src := src) q hip
  have hback := anchor_add_backlen_le (src := src) q hf.anchor_le
  refine ⟨⟨Nat.le_refl _, ?_, insertRun_below _ hf.below⟩, _, _, _, rfl, hgood, ?_⟩
  · show f.ip + fwdLen src n q f.ip ≤ n
    omega
  · show f.ip + fwdLen src n q f.ip = _
    omega

/-- A pass without a match keeps the finder in order. -/
theorem FastFinder.Ok.advance {f : FastFinder} (hf : FastFinder.Ok n f) (hip : f.ip + 12 < n) :
    FastFinder.Ok n { f with ip := f.ip + 1, ht := insertFast P src f.ht f.ip } :=
  ⟨Nat.le_succ_of_le hf.anchor_le, by show f.ip + 1 ≤ n; omega, hf.below.set _⟩

theorem fastScan_result (fuel : Nat) {f : FastFinder} (hf : FastFinder.Ok n f) :
    ScanResult src n FastFinder.anchor (FastFinder.Ok n) f.anchor (fastScan P src n fuel f) := by
  induction fuel generalizing f with
  | zero => exact rfl
  | succ fuel ih =>
    unfold fastScan
    split
    · next hip =>
      split
      · next q hq => exact fastTake_result hf hip hq
      · exact ih (hf.advance hip)
    · exact rfl

/-- R124: the Fast parse is well formed. -/
theorem parseFast_parseOk (P : Config.Params) (src : Nat → Byte) (n : Nat) : ParseOk src n (parseFast P src n).1 0 :=
  parseWith_parseOk (fun _ hf => fastScan_result _ hf) (fun _ hf => Nat.le_trans hf.anchor_le hf.ip_le) _
    (FastFinder.init_ok n)

/-! ## The chained index -/

/-- The chained index holds only positions already inserted (R155, R156). -/
structure Chains.Ok (c : Chains) : Prop where
  head : Table.Below c.head c.nti
  prev : Table.Below c.prev c.nti

/-- One insertion of R156. -/
theorem insertHc_ok {c : Chains} (h : Chains.Ok c) :
    Chains.Ok { insertHc P src c c.nti with nti := c.nti + 1 } where
  head := h.head.set _
  prev := (h.prev.mono (Nat.le_succ _)).put _ (fun p hp => Nat.lt_succ_of_lt (h.head _ p hp))

theorem insertNext_ok {c : Chains} (k : Nat) (h : Chains.Ok c) :
    Chains.Ok (insertNext P src k c) ∧ (insertNext P src k c).nti = c.nti + k := by
  induction k generalizing c with
  | zero => exact ⟨h, rfl⟩
  | succ k ih =>
    obtain ⟨hok, hnti⟩ := ih (insertHc_ok h)
    exact ⟨hok, hnti.trans (by show c.nti + 1 + k = _; omega)⟩

theorem insertUpto_ok {c : Chains} {q : Nat} (h : Chains.Ok c) (hq : c.nti ≤ q) :
    Chains.Ok (insertUpto P src c q) ∧ (insertUpto P src c q).nti = q := by
  obtain ⟨hok, hnti⟩ := insertNext_ok (P := P) (src := src) (q - c.nti) h
  exact ⟨hok, hnti.trans (by omega)⟩

/-! ## A search -/

/-- What a search at `q` can return (R158 to R160): the match of an earlier position inside the window. -/
def FoundAt (src : Nat → Byte) (n q anchor : Nat) (m : Found) : Prop :=
  ∃ cp, cp < q ∧ q - cp ≤ 65535 ∧ candidate src n q anchor cp = some m

theorem better_some {best new : Option Found} {m : Found} (h : better best new = some m) : best = some m ∨ new = some m := by
  unfold better at h
  split at h
  · exact .inl h
  · exact .inr h
  · split at h
    · exact .inr h
    · exact .inl h

theorem walk_some {q anchor : Nat} {prev : Table Nat} (hprev : Table.Below prev q) {m : Found} (depth : Nat)
    {cand : Option Nat} {best : Option Found} (hcand : ∀ cp, cand = some cp → cp < q)
    (hbest : best = some m → FoundAt src n q anchor m)
    (h : walk P src n q anchor prev depth cand best = some m) : FoundAt src n q anchor m := by
  induction depth generalizing cand best with
  | zero => exact hbest h
  | succ depth ih =>
    cases cand with
    | none => exact hbest h
    | some cp =>
      unfold walk at h
      split at h
      · next hwin =>
        refine ih (fun p hp => hprev _ p hp) (fun hb => ?_) h
        rcases better_some hb with hb | hb
        · exact hbest hb
        · exact ⟨cp, hcand cp rfl, hwin, hb⟩
      · exact hbest h

theorem find_ok {depth q : Nat} (anchor : Nat) {c : Chains} (h : Chains.Ok c) (hq : c.nti ≤ q) :
    Chains.Ok (find P src n depth c q anchor).2 ∧ (find P src n depth c q anchor).2.nti = q ∧
      ∀ m, (find P src n depth c q anchor).1 = some m → FoundAt src n q anchor m := by
  obtain ⟨hok, hnti⟩ := insertUpto_ok (P := P) (src := src) h hq
  have hle := Nat.le_of_eq hnti
  exact ⟨hok, hnti, fun m hm => walk_some (hok.prev.mono hle) depth (fun cp hcp => hok.head.mono hle _ cp hcp)
    (best := none) (fun hb => nomatch hb) hm⟩

/-- A match that may be taken with the given anchor. -/
structure Found.Good (src : Nat → Byte) (n anchor : Nat) (m : Found) : Prop where
  start_le : anchor ≤ m.start
  good : GoodMatch src n anchor (m.start - anchor) m.offset m.len

theorem FoundAt.good {q anchor : Nat} {m : Found} (h : FoundAt src n q anchor m) (ha : anchor ≤ q) (hq : q + 12 < n) :
    Found.Good src n anchor m ∧ q + 4 ≤ m.start + m.len := by
  obtain ⟨cp, hlt, hwin, hc⟩ := h
  unfold candidate at hc
  split at hc
  · next hw =>
    obtain rfl := Option.some.inj hc
    have hback := anchor_add_backlen_le (src := src) cp ha
    have hfwd := four_le_fwdLen (src := src) (n := n) cp q
    refine ⟨⟨?_, goodMatch_of_candidate hlt hwin hw ha hq⟩, ?_⟩
    · show anchor ≤ q - backlen src cp q anchor
      omega
    · show q + 4 ≤ q - backlen src cp q anchor + (backlen src cp q anchor + fwdLen src n cp q)
      omega
  · exact nomatch hc

/-! ## The HC finder -/

/-- The HC finder between its passes: the cursors in order, nothing inserted at or beyond the search position (R156, R163). -/
structure HcFinder.Ok (n : Nat) (f : HcFinder) : Prop where
  anchor_le : f.anchor ≤ f.ip
  ip_le : f.ip ≤ n
  chains : Chains.Ok f.chains
  nti_le : f.chains.nti ≤ f.ip

theorem HcFinder.init_ok (n : Nat) : HcFinder.Ok n HcFinder.init :=
  ⟨Nat.le_refl 0, Nat.zero_le n, ⟨Table.below_nil 0, Table.below_nil 0⟩, Nat.le_refl 0⟩

/-- A search at `q` keeps the finder in order when it goes on at or beyond `q`. -/
theorem HcFinder.Ok.search {f : HcFinder} (hf : HcFinder.Ok n f) {depth q ip : Nat} (hq : f.ip ≤ q) (hip : q ≤ ip)
    (hn : ip ≤ n) : HcFinder.Ok n { f with ip := ip, chains := (find P src n depth f.chains q f.anchor).2 } := by
  obtain ⟨hc, hnti, -⟩ := find_ok (P := P) (src := src) (n := n) (depth := depth) f.anchor hf.chains
    (Nat.le_trans hf.nti_le hq)
  exact ⟨Nat.le_trans hf.anchor_le (Nat.le_trans hq hip), hn, hc, Nat.le_trans (Nat.le_of_eq hnti) hip⟩

/-- What a search at `q` finds is good for the finder's anchor and ends at least four bytes after `q`. -/
theorem HcFinder.Ok.found_good {f : HcFinder} (hf : HcFinder.Ok n f) {depth q : Nat} (hq : f.ip ≤ q) (hin : q + 12 < n)
    {m : Found} (hm : (find P src n depth f.chains q f.anchor).1 = some m) :
    Found.Good src n f.anchor m ∧ q + 4 ≤ m.start + m.len := by
  obtain ⟨-, -, hfound⟩ := find_ok (P := P) (src := src) (n := n) (depth := depth) f.anchor hf.chains
    (Nat.le_trans hf.nti_le hq)
  exact (hfound m hm).good (Nat.le_trans hf.anchor_le hq) hin

/-- A match the finder may take: good for its anchor, and everything inserted so far lies before the match's end. -/
structure HcFinder.Takes (src : Nat → Byte) (n : Nat) (f : HcFinder) (m : Found) : Prop where
  good : Found.Good src n f.anchor m
  chains : Chains.Ok f.chains
  nti_le : f.chains.nti ≤ m.start + m.len

theorem HcFinder.Ok.takes {f : HcFinder} {m : Found} (hf : HcFinder.Ok n f) (hm : Found.Good src n f.anchor m)
    (hend : f.ip + 4 ≤ m.start + m.len) : HcFinder.Takes src n f m :=
  ⟨hm, hf.chains, by have := hf.nti_le; omega⟩

/-- Lazy matching (R164) keeps the anchor and ends with a match the finder may take. -/
theorem lazyMatch_takes {depth : Nat} (fuel : Nat) {f : HcFinder} {m : Found} (hf : HcFinder.Ok n f)
    (hm : Found.Good src n f.anchor m) (hend : f.ip + 4 ≤ m.start + m.len) :
    (lazyMatch P src n depth fuel f m).2.anchor = f.anchor ∧
      HcFinder.Takes src n (lazyMatch P src n depth fuel f m).2 (lazyMatch P src n depth fuel f m).1 := by
  induction fuel generalizing f m with
  | zero => exact ⟨rfl, hf.takes hm hend⟩
  | succ fuel ih =>
    unfold lazyMatch
    split
    · next hin =>
      have hin' : f.ip + 1 + 12 < n := hin
      have hnext := hf.search (P := P) (src := src) (depth := depth) (Nat.le_add_right f.ip 1) (Nat.le_refl _)
        (show f.ip + 1 ≤ n by omega)
      have hkept : HcFinder.Takes src n { f with chains := (find P src n depth f.chains (f.ip + 1) f.anchor).2 } m :=
        ⟨hm, hnext.chains, Nat.le_trans hnext.nti_le (by show f.ip + 1 ≤ _; omega)⟩
      dsimp only
      split
      · next m2 hm2 =>
        split
        · obtain ⟨hgood, hend2⟩ := hf.found_good (Nat.le_add_right f.ip 1) hin' hm2
          exact ih hnext hgood hend2
        · exact ⟨rfl, hkept⟩
      · exact ⟨rfl, hkept⟩
    · exact ⟨rfl, hf.takes hm hend⟩

theorem hcTake_result {f : HcFinder} {m : Found} {a : Nat} (ha : f.anchor = a) (h : HcFinder.Takes src n f m) :
    ScanResult src n HcFinder.anchor (HcFinder.Ok n) a (some (hcTake f m).1, (hcTake f m).2) := by
  subst ha
  have hstart := h.good.start_le
  have hin := h.good.good.endIn
  refine ⟨⟨Nat.le_refl _, ?_, h.chains, h.nti_le⟩, _, _, _, rfl, h.good.good, ?_⟩
  · show m.start + m.len ≤ n
    omega
  · show m.start + m.len = _
    omega

theorem hcScan_result {depth : Nat} (fuel : Nat) {f : HcFinder} (hf : HcFinder.Ok n f) :
    ScanResult src n HcFinder.anchor (HcFinder.Ok n) f.anchor (hcScan P src n depth fuel f) := by
  induction fuel generalizing f with
  | zero => exact rfl
  | succ fuel ih =>
    unfold hcScan
    split
    · next hin =>
      have hin' : f.ip + 12 < n := hin
      dsimp only
      split
      · exact ih (hf.search (Nat.le_refl _) (Nat.le_succ _) (by omega))
      · next m hm =>
        obtain ⟨hgood, hend⟩ := hf.found_good (Nat.le_refl _) hin' hm
        obtain ⟨hanchor, htakes⟩ := lazyMatch_takes (P := P) (depth := depth) n
          (hf.search (P := P) (src := src) (depth := depth) (Nat.le_refl _) (Nat.le_refl _) hf.ip_le) hgood hend
        exact hcTake_result hanchor htakes
    · exact rfl

/-- R166: the HC parse is well formed, at any depth. -/
theorem parseHc_parseOk (P : Config.Params) (src : Nat → Byte) (n depth : Nat) : ParseOk src n (parseHc P src n depth).1 0 :=
  parseWith_parseOk (fun _ hf => hcScan_result _ hf) (fun _ hf => Nat.le_trans hf.anchor_le hf.ip_le) _
    (HcFinder.init_ok n)

end Sys2Proof.Machine

/-! # Proofs: the fields of a sequence (spec/30_encoding.md R73 to R75) -/

namespace Sys2Proof

@[simp] theorem tokenLit_tokenByte (l m : Nibble) : tokenLit (tokenByte l m) = l := by
  apply BitVec.eq_of_toNat_eq
  have := l.isLt
  have := m.isLt
  simp only [tokenLit, tokenByte, BitVec.extractLsb'_toNat, BitVec.toNat_ofNat, Nat.shiftRight_eq_div_pow]
  omega

@[simp] theorem tokenMatch_tokenByte (l m : Nibble) : tokenMatch (tokenByte l m) = m := by
  apply BitVec.eq_of_toNat_eq
  have := l.isLt
  have := m.isLt
  simp only [tokenMatch, tokenByte, BitVec.extractLsb'_toNat, BitVec.toNat_ofNat, Nat.shiftRight_zero]
  omega

@[simp] theorem le16_lowByte_highByte (d : BitVec 16) : le16 (lowByte d) (highByte d) = d := by
  apply BitVec.eq_of_toNat_eq
  have := d.isLt
  simp only [le16, lowByte, highByte, BitVec.toNat_ofNat]
  omega

theorem lenNibble_toNat (v : Nat) : (lenNibble v).toNat = min v 15 := by
  simp only [lenNibble, Config.nibEsc, BitVec.toNat_ofNat]
  omega

theorem ext_of_lt {r : Nat} (h : r < 255) : ext r = [BitVec.ofNat 8 r] := by
  simp [ext, Config.extCont, Nat.div_eq_of_lt h, Nat.mod_eq_of_lt h]

theorem ext_add_255 (r : Nat) : ext (r + 255) = 255 :: ext r := by
  simp [ext, Config.extCont, List.replicate_succ]

theorem lenExt_of_lt {v : Nat} (h : v < 15) : lenExt v = [] := if_neg (Nat.not_le.2 h)

theorem lenExt_of_le {v : Nat} (h : 15 ≤ v) : lenExt v = ext (v - 15) := if_pos h

/-- A match sequence is a last sequence's fields, the offset and the extension of the match length (R72). -/
theorem encodeMatch_eq (lits : List Byte) (d : BitVec 16) (mlen : Nat) : encodeMatch lits d mlen =
    encodeLast lits (lenNibble (mlen - 4)) ++ lowByte d :: highByte d :: lenExt (mlen - 4) := by
  simp [encodeMatch, encodeLast, Config.minMatch]

theorem encodeLast_length (lits : List Byte) (m : Nibble) :
    (encodeLast lits m).length = 1 + (lenExt lits.length).length + lits.length := by
  simp [encodeLast]
  omega

end Sys2Proof

/-! # Proofs: the decoder along the bytes of a sequence (spec/45_block_decoder.md R180 to R189) -/

namespace Sys2Proof.Machine

/-! ## Bytes at an address -/

/-- The bytes stand at `a`, `a + 1`, ... in a byte space. -/
def holdsAt (space : Nat → Byte) (a : Nat) (bytes : List Byte) : Prop := slice space a bytes.length = bytes

theorem holdsAt_cons {space : Nat → Byte} {a : Nat} {b : Byte} {bs : List Byte} :
    holdsAt space a (b :: bs) ↔ space a = b ∧ holdsAt space (a + 1) bs := by
  simp [holdsAt, slice]

theorem holdsAt_append {space : Nat → Byte} {a : Nat} {xs ys : List Byte} :
    holdsAt space a (xs ++ ys) ↔ holdsAt space a xs ∧ holdsAt space (a + xs.length) ys := by
  induction xs generalizing a with
  | nil => simp [holdsAt, slice]
  | cons x xs ih => simp [holdsAt_cons, ih, and_assoc, Nat.add_comm 1, Nat.add_assoc]

theorem holdsAt_iff {space : Nat → Byte} {a : Nat} {bytes : List Byte} :
    holdsAt space a bytes ↔ ∀ i (h : i < bytes.length), space (a + i) = bytes[i] := by
  induction bytes generalizing a with
  | nil => simp [holdsAt, slice]
  | cons b bs ih =>
    rw [holdsAt_cons, ih]
    constructor
    · rintro ⟨h0, h⟩ i hi
      cases i with
      | zero => exact h0
      | succ i => simpa [Nat.add_comm 1, Nat.add_assoc] using h i (Nat.lt_of_succ_lt_succ hi)
    · intro h
      refine ⟨h 0 (Nat.succ_pos _), fun i hi => ?_⟩
      simpa [Nat.add_comm 1, Nat.add_assoc] using h (i + 1) (Nat.succ_lt_succ hi)

theorem holdsAt_writeList (free : Nat → Nat → Byte) (m : Memory) (a : Nat) (bytes : List Byte) :
    holdsAt (Memory.read free (Memory.writeList m a bytes)) a bytes :=
  holdsAt_iff.2 (fun i h => Memory.read_writeList_inside free bytes m a i h)

theorem holdsAt_slice (space : Nat → Byte) (a k : Nat) : holdsAt space a (slice space a k) := by
  rw [holdsAt, slice_length]

/-! ## Runs of the decoder -/

theorem runDecoder_terminal {s : State} (h : s.dstate.terminal = true) (k : Nat) : State.runDecoder k s = s := by
  cases k with
  | zero => rfl
  | succ k => rw [State.runDecoder, if_pos h]

theorem runDecoder_add (j k : Nat) (s : State) :
    State.runDecoder (j + k) s = State.runDecoder k (State.runDecoder j s) := by
  induction j generalizing s with
  | zero => rw [Nat.zero_add, State.runDecoder]
  | succ j ih =>
    by_cases h : s.dstate.terminal = true
    · simp only [runDecoder_terminal h]
    · rw [Nat.add_right_comm, State.runDecoder, State.runDecoder, if_neg h, if_neg h, ih]

theorem runDecoder_one {s : State} (h : s.dstate.terminal = false) : State.runDecoder 1 s = State.decoderStep s := by
  rw [State.runDecoder, if_neg (by simp [h]), State.runDecoder]

/-- A run that has ended answers the same under any larger bound. -/
theorem runDecoder_of_le {j k : Nat} {s t : State} (hj : State.runDecoder j s = t) (ht : t.dstate.terminal = true)
    (h : j ≤ k) : State.runDecoder k s = t := by
  obtain ⟨i, rfl⟩ := Nat.exists_eq_add_of_le h
  rw [runDecoder_add, hj, runDecoder_terminal ht]

/-! ## One step -/

/-- Both kinds of extension byte are read alike (R75, R183, R187). -/
theorem State.wireEffect_decodeExt (s : State) (b : Byte) : State.wireEffect s (decodeExt b) = State.readExtension s b := by
  unfold decodeExt
  split
  · next h => rw [h]; rfl
  · rfl

theorem decoderStep_readToken {s : State} (hd : s.dstate = .readToken) (h : s.ip < s.n) : State.decoderStep s =
    { s with
      ip := s.ip + 1
      litlen := (tokenLit (s.srcByte s.ip)).toNat
      mnib := tokenMatch (s.srcByte s.ip)
      dstate := if (tokenLit (s.srcByte s.ip)).toNat = Config.nibEsc then .readLiteralExtension else .copyLiterals } := by
  simp [State.decoderStep, State.fetchWire, hd, Nat.not_le.2 h, decodeToken, State.wireEffect, State.readToken]

theorem decoderStep_extension {s : State} (hd : s.dstate = .readLiteralExtension ∨ s.dstate = .readMatchExtension)
    (h : s.ip < s.n) : State.decoderStep s = State.readExtension s (s.srcByte s.ip) := by
  rcases hd with hd | hd <;>
    simp [State.decoderStep, State.fetchWire, hd, Nat.not_le.2 h, State.wireEffect_decodeExt]

theorem decoderStep_copyLiterals {s : State} (hd : s.dstate = .copyLiterals) :
    State.decoderStep s = State.copyLiterals s (slice s.srcByte s.ip s.litlen) := by
  simp [State.decoderStep, State.fetchWire, hd]

theorem decoderStep_readOffset {s : State} (hd : s.dstate = .readOffset) (h : s.ip + 2 ≤ s.n) :
    State.decoderStep s = State.readOffset s (le16 (s.srcByte s.ip) (s.srcByte (s.ip + 1))) := by
  simp [State.decoderStep, State.fetchWire, hd, show ¬ s.n - s.ip < 2 by omega, decodeOffset, State.wireEffect]

theorem decoderStep_copyMatch {s : State} (hd : s.dstate = .copyMatch) : State.decoderStep s = State.copyMatch s := by
  simp [State.decoderStep, State.fetchWire, hd]

/-! ## Length extensions -/

/-- `k` extension bytes read that add up to `r`, the last of them a terminating one (R183, R187). -/
def State.extended (s : State) (k r : Nat) : State :=
  if s.dstate = .readLiteralExtension then { s with ip := s.ip + k, litlen := s.litlen + r, dstate := .copyLiterals }
  else { s with ip := s.ip + k, mlen := s.mlen + r, dstate := .copyMatch }

/-- A terminating byte ends the extension. -/
theorem State.readExtension_term {s : State} (hd : s.dstate = .readLiteralExtension ∨ s.dstate = .readMatchExtension)
    (h : s.ip < s.n) {b : Byte} (hb : b.toNat ≠ 255) : State.readExtension s b = State.extended s 1 b.toNat := by
  rcases hd with hd | hd <;> simp [State.readExtension, State.extended, hd, Nat.not_le.2 h, Config.extCont, hb]

/-- A continuing byte adds 255 and leaves the decoder where it is. -/
theorem State.readExtension_cont {s : State} (hd : s.dstate = .readLiteralExtension ∨ s.dstate = .readMatchExtension)
    (h : s.ip < s.n) :
    (State.readExtension s 255).dstate = s.dstate ∧ (State.readExtension s 255).ip = s.ip + 1 ∧
      (State.readExtension s 255).n = s.n ∧ (State.readExtension s 255).srcByte = s.srcByte ∧
      ∀ k r, State.extended (State.readExtension s 255) k r = State.extended s (k + 1) (r + 255) := by
  rcases hd with hd | hd
  · have hstep : State.readExtension s 255 = { s with ip := s.ip + 1, litlen := s.litlen + 255 } := by
      simp [State.readExtension, hd, Nat.not_le.2 h, Config.extCont]
    rw [hstep]
    exact ⟨rfl, rfl, rfl, rfl, fun k r => by simp [State.extended, hd, Nat.add_comm, Nat.add_left_comm]⟩
  · have hstep : State.readExtension s 255 = { s with ip := s.ip + 1, mlen := s.mlen + 255 } := by
      simp [State.readExtension, hd, Nat.not_le.2 h, Config.extCont]
    rw [hstep]
    exact ⟨rfl, rfl, rfl, rfl, fun k r => by simp [State.extended, hd, Nat.add_comm, Nat.add_left_comm]⟩

/-- The decoder reads `ext(r)` as `r` (R75, R131). -/
theorem runDecoder_ext (r : Nat) {s : State} (hd : s.dstate = .readLiteralExtension ∨ s.dstate = .readMatchExtension)
    (hin : holdsAt s.srcByte s.ip (ext r)) (hn : s.ip + (ext r).length ≤ s.n) :
    State.runDecoder (ext r).length s = State.extended s (ext r).length r := by
  have hrun : s.dstate.terminal = false := by rcases hd with hd | hd <;> rw [hd] <;> rfl
  induction r using Nat.strongRecOn generalizing s with
  | ind r ih =>
    rcases Nat.lt_or_ge r 255 with hr | hr
    · rw [ext_of_lt hr] at hin hn ⊢
      have hip : s.ip < s.n := by simpa using hn
      have hval : (BitVec.ofNat 8 r).toNat = r := by rw [BitVec.toNat_ofNat]; omega
      show State.runDecoder 1 s = State.extended s 1 r
      rw [runDecoder_one hrun, decoderStep_extension hd hip, (holdsAt_cons.1 hin).1,
        State.readExtension_term hd hip (by omega), hval]
    · obtain ⟨q, rfl⟩ := Nat.exists_eq_add_of_le' hr
      rw [ext_add_255] at hin hn ⊢
      rw [List.length_cons] at hn ⊢
      obtain ⟨hb, hin'⟩ := holdsAt_cons.1 hin
      have hip : s.ip < s.n := by omega
      obtain ⟨hdstate, hip', hn', hsrc, hext⟩ := State.readExtension_cont hd hip
      rw [Nat.add_comm (ext q).length 1, runDecoder_add, runDecoder_one hrun, decoderStep_extension hd hip, hb,
        ih q (by omega) (by rwa [hdstate]) (by rwa [hsrc, hip']) (by omega) (by rwa [hdstate]), hext,
        Nat.add_comm 1]

/-! ## The parts of a sequence -/

/-- The decoder at a literal run whose length is read (R182, R183). -/
def State.atLiterals (s : State) (k len : Nat) (m : Nibble) : State :=
  { s with ip := s.ip + k, litlen := len, mnib := m, dstate := .copyLiterals }

/-- The token and the extension of the literal length (R182, R183). -/
theorem runDecoder_literalLength {s : State} {len : Nat} {m : Nibble} (hd : s.dstate = .readToken)
    (hin : holdsAt s.srcByte s.ip (tokenByte (lenNibble len) m :: lenExt len))
    (hn : s.ip + (lenExt len).length < s.n) :
    State.runDecoder (1 + (lenExt len).length) s = State.atLiterals s (1 + (lenExt len).length) len m := by
  obtain ⟨htok, hin'⟩ := holdsAt_cons.1 hin
  rw [runDecoder_add, runDecoder_one (by rw [hd]; rfl), decoderStep_readToken hd (by omega), htok, tokenLit_tokenByte,
    tokenMatch_tokenByte, lenNibble_toNat]
  rcases Nat.lt_or_ge len 15 with hlen | hlen
  · simp [lenExt_of_lt hlen, State.runDecoder, State.atLiterals, Nat.min_eq_left (Nat.le_of_lt hlen), Config.nibEsc,
      Nat.ne_of_lt hlen]
  · rw [lenExt_of_le hlen] at hin' hn ⊢
    rw [Nat.min_eq_right hlen, if_pos (show 15 = Config.nibEsc from rfl),
      runDecoder_ext _ (.inl rfl) hin' (by show s.ip + 1 + _ ≤ s.n; omega)]
    simp [State.extended, State.atLiterals, Nat.add_sub_cancel' hlen, Nat.add_assoc]

/-- The decoder behind the literals of a sequence (R184). -/
def State.literalsCopied (s : State) (lits : List Byte) (m : Nibble) : State :=
  { s with
    ip := s.ip + (encodeLast lits m).length
    op := s.op + lits.length
    litlen := lits.length
    mnib := m
    dst := Memory.writeList s.dst s.op lits
    dstate := .copyLiterals }

theorem State.copyLiterals_of_fits {s : State} (lits : List Byte) (hcap : s.litlen ≤ s.cap - s.op)
    (hn : s.litlen ≤ s.n - s.ip) : State.copyLiterals s lits = State.endLiterals
      { s with dst := Memory.writeList s.dst s.op lits, ip := s.ip + s.litlen, op := s.op + s.litlen } := by
  rw [State.copyLiterals, if_neg (Nat.not_lt.2 hcap), if_neg (Nat.not_lt.2 hn)]

theorem State.endLiterals_of_end {s : State} (h : s.ip = s.n) :
    State.endLiterals s = State.finish { s with dstate := .done } s.n s.op := by
  rw [State.endLiterals, if_pos h, h]

theorem State.endLiterals_of_more {s : State} (h : s.ip ≠ s.n) : State.endLiterals s = { s with dstate := .readOffset } :=
  if_neg h

/-- The first three parts of a sequence, when the literals fit (R182 to R185). -/
theorem runDecoder_literals {s : State} {lits : List Byte} {m : Nibble} (hd : s.dstate = .readToken)
    (hin : holdsAt s.srcByte s.ip (encodeLast lits m)) (hn : s.ip + (encodeLast lits m).length ≤ s.n)
    (hcap : s.op + lits.length ≤ s.cap) :
    State.runDecoder (2 + (lenExt lits.length).length) s = State.endLiterals (State.literalsCopied s lits m) := by
  rw [encodeLast, ← List.cons_append] at hin
  obtain ⟨hlen, hlits⟩ := holdsAt_append.1 hin
  rw [holdsAt, List.length_cons, Nat.add_comm _ 1] at hlits
  have hsize := encodeLast_length lits m
  have hsrc : (State.atLiterals s (1 + (lenExt lits.length).length) lits.length m).srcByte = s.srcByte := rfl
  rw [show 2 + (lenExt lits.length).length = 1 + (lenExt lits.length).length + 1 by omega, runDecoder_add,
    runDecoder_literalLength hd hlen (by omega), runDecoder_one rfl, decoderStep_copyLiterals rfl, hsrc,
    State.copyLiterals_of_fits _ (by show lits.length ≤ s.cap - s.op; omega)
      (by show lits.length ≤ s.n - (s.ip + (1 + (lenExt lits.length).length)); omega)]
  simp only [State.atLiterals, State.literalsCopied, hsize, hlits, Nat.add_assoc]

/-- A last sequence ends the block (R185, R189). -/
theorem runDecoder_lastSeq {s : State} {lits : List Byte} {m : Nibble} (hd : s.dstate = .readToken)
    (hin : holdsAt s.srcByte s.ip (encodeLast lits m)) (hn : s.ip + (encodeLast lits m).length = s.n)
    (hcap : s.op + lits.length ≤ s.cap) :
    State.runDecoder (2 + (lenExt lits.length).length) s =
      State.finish { State.literalsCopied s lits m with dstate := .done } s.n (s.op + lits.length) := by
  rw [runDecoder_literals hd hin (Nat.le_of_eq hn) hcap, State.endLiterals_of_end hn]
  rfl

/-- The decoder at a match copy whose offset and length are read (R186, R187). -/
def State.atMatch (s : State) (d : BitVec 16) (mlen : Nat) : State :=
  { s with
    ip := s.ip + (2 + (lenExt (mlen - 4)).length)
    offset := d
    mlen := mlen
    dstate := .copyMatch }

theorem State.readOffset_of_legal {s : State} {d : BitVec 16} (h : s.ip + 2 ≤ s.n) (hd : d ≠ 0) (hop : d.toNat ≤ s.op) :
    State.readOffset s d =
      { s with
        ip := s.ip + 2
        offset := d
        mlen := s.mnib.toNat + Config.minMatch
        dstate := if s.mnib.toNat = Config.nibEsc then .readMatchExtension else .copyMatch } := by
  rw [State.readOffset, if_neg (by omega)]
  simp only [if_neg hd, if_neg (Nat.not_lt.2 hop)]

/-- The offset and the extension of the match length (R186, R187). -/
theorem runDecoder_matchLength {s : State} {d : BitVec 16} {mlen : Nat} (hs : s.dstate = .readOffset)
    (hin : holdsAt s.srcByte s.ip (lowByte d :: highByte d :: lenExt (mlen - 4)))
    (hn : s.ip + (2 + (lenExt (mlen - 4)).length) ≤ s.n) (hnib : s.mnib = lenNibble (mlen - 4)) (hd : d ≠ 0)
    (hop : d.toNat ≤ s.op) (hm : 4 ≤ mlen) :
    State.runDecoder (1 + (lenExt (mlen - 4)).length) s = State.atMatch s d mlen := by
  obtain ⟨hlow, hin1⟩ := holdsAt_cons.1 hin
  obtain ⟨hhigh, hin2⟩ := holdsAt_cons.1 hin1
  rw [runDecoder_add, runDecoder_one (by rw [hs]; rfl), decoderStep_readOffset hs (by omega), hlow, hhigh,
    le16_lowByte_highByte, State.readOffset_of_legal (by omega) hd hop, hnib, lenNibble_toNat]
  rcases Nat.lt_or_ge (mlen - 4) 15 with hlen | hlen
  · simp [lenExt_of_lt hlen, State.runDecoder, State.atMatch, Nat.min_eq_left (Nat.le_of_lt hlen), Config.nibEsc,
      Config.minMatch, Nat.ne_of_lt hlen, Nat.sub_add_cancel hm, hnib]
  · rw [lenExt_of_le hlen] at hin2 hn
    rw [Nat.min_eq_right hlen, if_pos (show 15 = Config.nibEsc from rfl), lenExt_of_le hlen,
      runDecoder_ext _ (.inr rfl) hin2 (by show s.ip + 2 + _ ≤ s.n; omega)]
    simp [State.extended, State.atMatch, lenExt_of_le hlen, Config.minMatch, Nat.add_assoc, hnib,
      show 19 + (mlen - 4 - 15) = mlen by omega]

/-- The decoder behind a match sequence (R188). -/
def State.matchCopied (s : State) (lits : List Byte) (d : BitVec 16) (mlen : Nat) : State :=
  let t := State.atMatch { State.literalsCopied s lits (lenNibble (mlen - 4)) with dstate := .readOffset } d mlen
  { t with
    dst := Memory.copySerial Config.freeDstByte t.dst t.op d.toNat mlen
    op := t.op + mlen
    dstate := .readToken }

/-- All parts of a match sequence that fits and whose offset is legal (R182 to R188). -/
theorem runDecoder_matchSeq {s : State} {lits : List Byte} {d : BitVec 16} {mlen : Nat} (hs : s.dstate = .readToken)
    (hin : holdsAt s.srcByte s.ip (encodeMatch lits d mlen)) (hn : s.ip + (encodeMatch lits d mlen).length ≤ s.n)
    (hcap : s.op + lits.length + mlen ≤ s.cap) (hd : d ≠ 0) (hop : d.toNat ≤ s.op + lits.length) (hm : 4 ≤ mlen) :
    State.runDecoder (2 + (lenExt lits.length).length + (1 + (lenExt (mlen - 4)).length + 1)) s =
      State.matchCopied s lits d mlen := by
  rw [encodeMatch_eq] at hin hn
  obtain ⟨hlits, hoff⟩ := holdsAt_append.1 hin
  simp only [List.length_append, List.length_cons] at hn
  have hmore : (State.literalsCopied s lits (lenNibble (mlen - 4))).ip ≠
      (State.literalsCopied s lits (lenNibble (mlen - 4))).n := by
    show s.ip + _ ≠ s.n
    omega
  rw [runDecoder_add, runDecoder_literals hs hlits (by omega) (by omega), State.endLiterals_of_more hmore, runDecoder_add,
    runDecoder_matchLength rfl hoff (by show s.ip + _ + _ ≤ s.n; omega) rfl hd hop hm, runDecoder_one rfl,
    decoderStep_copyMatch rfl, State.copyMatch, if_neg (by show ¬ s.cap - (s.op + lits.length) < mlen; omega)]
  rfl

end Sys2Proof.Machine

/-! # Proofs: what the compressors write, DECOMPRESS reads back (spec/41_fast_compress.md R111, spec/44_hc_compress.md R151) -/

namespace Sys2Proof.Machine

variable {src : Nat → Byte} {n : Nat}

/-! ## The output along a block -/

/-- The decoder between two sequences, with room for `n` bytes and the first `pos` bytes of `src` written. -/
structure DecodedTo (src : Nat → Byte) (n pos : Nat) (s : State) : Prop where
  dstate : s.dstate = .readToken
  op : s.op = pos
  room : n ≤ s.cap
  out : ∀ x, x < pos → s.dstByte x = src x

/-- A run of source bytes written behind the bytes before it. -/
theorem read_writeList_slice {free : Nat → Nat → Byte} {m : Memory} {a : Nat} (l : Nat)
    (h : ∀ x, x < a → Memory.read free m x = src x) {x : Nat} (hx : x < a + l) :
    Memory.read free (Memory.writeList m a (slice src a l)) x = src x := by
  rcases Nat.lt_or_ge x a with hxa | hxa
  · rw [Memory.read_writeList_outside free _ _ _ _ (.inl hxa), h x hxa]
  · obtain ⟨i, rfl⟩ := Nat.exists_eq_add_of_le hxa
    have hi : i < (slice src a l).length := by rw [slice_length]; omega
    rw [Memory.read_writeList_inside free _ _ _ _ hi]
    exact (holdsAt_iff.1 (holdsAt_slice src a l) i hi).symm

/-- A match copied behind the bytes before it, when the source repeats itself at that offset (R56). -/
theorem read_copySerial_match {free : Nat → Nat → Byte} {m : Memory} {o off : Nat} (hoff : 1 ≤ off) (hlow : off ≤ o)
    (k : Nat) (h : ∀ x, x < o → Memory.read free m x = src x) (heq : ∀ i, i < k → src (o + i) = src (o - off + i))
    {x : Nat} (hx : x < o + k) : Memory.read free (Memory.copySerial free m o off k) x = src x := by
  induction k generalizing x with
  | zero => exact h x hx
  | succ k ih =>
    have ihk : ∀ {y}, y < o + k → Memory.read free (Memory.copySerial free m o off k) y = src y :=
      fun hy => ih (fun i hi => heq i (Nat.lt_succ_of_lt hi)) hy
    unfold Memory.copySerial
    rcases Nat.lt_or_ge x (o + k) with hxk | hxk
    · rw [Memory.read_write_other free _ _ (Nat.ne_of_lt hxk), ihk hxk]
    · obtain rfl : x = o + k := by omega
      rw [Memory.read_write_same, ihk (by omega), heq k (Nat.lt_succ_self k), Nat.sub_add_comm hlow]

/-! ## Decoding a parse -/

theorem encodeBlock_cons (src : Nat → Byte) (q : SeqDesc) (rest : List SeqDesc) :
    encodeBlock src (q :: rest) = encode (SeqDesc.toInstr src q) ++ encodeBlock src rest := List.flatMap_cons

theorem encode_matchSeq (src : Nat → Byte) (a l d m : Nat) : encode (SeqDesc.toInstr src (.matchSeq a l d m)) =
    encodeMatch (slice src a l) (BitVec.ofNat 16 d) m := rfl

theorem encode_lastSeq (src : Nat → Byte) (a l : Nat) : encode (SeqDesc.toInstr src (.lastSeq a l)) =
    encodeLast (slice src a l) 0 := rfl

/-- A match sequence of a parse takes the decoder to the next sequence. -/
theorem DecodedTo.matchSeq {s : State} {a l d m : Nat} (hs : DecodedTo src n a s) (hg : GoodMatch src n a l d m)
    {bytes : List Byte} (hbytes : bytes = encodeMatch (slice src a l) (BitVec.ofNat 16 d) m)
    (hin : holdsAt s.srcByte s.ip bytes) (hn : s.ip + bytes.length ≤ s.n) :
    ∃ k t, k ≤ 2 * bytes.length ∧ State.runDecoder k s = t ∧ DecodedTo src n (a + l + m) t ∧
      t.ip = s.ip + bytes.length ∧ t.srcByte = s.srcByte ∧ t.n = s.n := by
  obtain ⟨hd1, hd2, hd3, hm, -, hend, heq⟩ := hg
  obtain ⟨hstate, rfl, hroom, hout⟩ := hs
  have hval : (BitVec.ofNat 16 d).toNat = d := by rw [BitVec.toNat_ofNat]; omega
  have hne : BitVec.ofNat 16 d ≠ 0 := fun h => by rw [h] at hval; simp at hval; omega
  have hlen : (slice src s.op l).length = l := slice_length src s.op l
  subst hbytes
  have hrun := runDecoder_matchSeq hstate hin hn (by omega) hne (by omega) hm
  refine ⟨_, _, ?_, hrun, ⟨rfl, ?_, hroom, fun x hx => ?_⟩, ?_, rfl, rfl⟩
  · simp only [encodeMatch_eq, List.length_append, List.length_cons, encodeLast_length]
    omega
  · show s.op + (slice src s.op l).length + m = _
    rw [hlen]
  · show Memory.read _ (Memory.copySerial _ _ (s.op + (slice src s.op l).length) (BitVec.ofNat 16 d).toNat m) x = src x
    rw [hlen, hval]
    exact read_copySerial_match hd1 hd3 m (fun y hy => read_writeList_slice l hout hy) heq hx
  · simp only [encodeMatch_eq, List.length_append, List.length_cons]
    show s.ip + _ + (2 + _) = _
    omega

/-- A last sequence ends DECOMPRESS with the whole of `src` written. -/
theorem DecodedTo.lastSeq {s : State} {a l : Nat} (hs : DecodedTo src n a s) (hl : a + l = n) {bytes : List Byte}
    (hbytes : bytes = encodeLast (slice src a l) 0) (hin : holdsAt s.srcByte s.ip bytes)
    (hn : s.ip + bytes.length = s.n) :
    ∃ k v, k ≤ 2 * bytes.length ∧ State.runDecoder k s = v ∧ v.dstate = .done ∧ EndedOk s.n n v ∧
      ∀ x, x < n → v.dstByte x = src x := by
  obtain ⟨hstate, rfl, hroom, hout⟩ := hs
  have hlen : (slice src s.op l).length = l := slice_length src s.op l
  subst hbytes
  have hrun := runDecoder_lastSeq hstate hin hn (by omega)
  have hcap : s.cap < 2 ^ 32 := s.dstCap.isLt
  refine ⟨_, _, ?_, hrun, rfl, ⟨rfl, ?_, ?_, rfl⟩, fun x hx => ?_⟩
  · rw [encodeLast_length]
    omega
  · exact Nat.mod_eq_of_lt s.srcLen.isLt
  · show (s.op + (slice src s.op l).length) % 2 ^ 32 = n
    rw [hlen, hl]
    exact Nat.mod_eq_of_lt (by omega)
  · exact read_writeList_slice l hout (hl ▸ hx)

/-- The decoder reads the block of a parse back to the bytes the parse is of. -/
theorem runDecoder_parse {seqs : List SeqDesc} {a : Nat} (hp : ParseOk src n seqs a) {s : State}
    (hs : DecodedTo src n a s) (hin : holdsAt s.srcByte s.ip (encodeBlock src seqs))
    (hn : s.ip + (encodeBlock src seqs).length = s.n) :
    ∃ k v, k ≤ 2 * (encodeBlock src seqs).length ∧ State.runDecoder k s = v ∧ v.dstate = .done ∧ EndedOk s.n n v ∧
      ∀ x, x < n → v.dstByte x = src x := by
  induction seqs generalizing a s with
  | nil => exact hp.elim
  | cons q rest ih =>
    rw [encodeBlock_cons] at hin hn ⊢
    obtain ⟨hin1, hin2⟩ := holdsAt_append.1 hin
    rw [List.length_append] at hn ⊢
    cases q with
    | matchSeq b l d m =>
      obtain ⟨rfl, hgood, hrest⟩ := parseOk_matchSeq.1 hp
      obtain ⟨j, t, hj, hrunj, ht, hip, hsrc, htn⟩ := hs.matchSeq hgood (encode_matchSeq ..) hin1 (by omega)
      obtain ⟨k, v, hk, hrunk, hdone, hended, hout⟩ := ih hrest ht (by rwa [hsrc, hip]) (by omega)
      exact ⟨j + k, v, by omega, by rw [runDecoder_add, hrunj, hrunk], hdone, htn ▸ hended, hout⟩
    | lastSeq b l =>
      cases rest with
      | nil =>
        obtain ⟨rfl, hl⟩ := hp
        exact hs.lastSeq hl (encode_lastSeq ..) hin1 hn
      | cons => exact hp.elim

/-- DECOMPRESS of the block of a parse, with room for its input, gives the input back. -/
theorem execDecompress_parse {seqs : List SeqDesc} (hp : ParseOk src n seqs 0) {u : State}
    (hn : u.n = (encodeBlock src seqs).length) (hcap : n ≤ u.cap) (hin : holdsAt u.srcByte 0 (encodeBlock src seqs)) :
    ∃ v, exec .decompress u = .next v ∧ EndedOk u.n n v ∧ ∀ x, x < n → v.dstByte x = src x := by
  have hstart : DecodedTo src n 0 (State.enterDecoder u) := ⟨rfl, rfl, hcap, fun x hx => absurd hx (Nat.not_lt_zero x)⟩
  obtain ⟨k, v, hk, hrun, hdone, hended, hout⟩ :=
    runDecoder_parse hp hstart hin (by rw [State.enterDecoder_ip, Nat.zero_add]; exact hn.symm)
  refine ⟨v, ?_, hended, hout⟩
  show Host.Outcome.next (State.runDecoder (2 * u.n + 2) (State.enterDecoder u)) = _
  rw [runDecoder_of_le hrun (by rw [hdone]; rfl) (by omega)]

/-! ## The round trips -/

/-- A compressor's end that is Ok: the block fits, its length is in COUNT and its bytes are in DST (R110, R150). -/
theorem State.emitBlock_ok {s : State} {block : List Byte} (h : (State.emitBlock s block).status = .ok) :
    (State.emitBlock s block).count.toNat = block.length ∧ holdsAt (State.emitBlock s block).dstByte 0 block := by
  rcases State.emitBlock_cases s block with ⟨-, hraise⟩ | ⟨hfits, hfinish⟩
  · rw [hraise] at h
    exact nomatch h
  · rw [hfinish]
    have hcap : s.cap < 2 ^ 32 := s.dstCap.isLt
    exact ⟨Nat.mod_eq_of_lt (by omega), holdsAt_writeList _ _ _ _⟩

/-- The round trip of any compressor that writes the block of a well-formed parse. -/
theorem roundTrip_of_parse {seqs : List SeqDesc} (hp : ParseOk src n seqs 0) {s t u : State}
    (ht : t = State.emitBlock s (encodeBlock src seqs)) (hok : t.status = .ok) (hlen : u.srcLen = t.count)
    (hcap : u.cap = n) (hin : ∀ i, i < u.n → u.srcByte i = t.dstByte i) :
    ∃ v, exec .decompress u = .next v ∧ EndedOk t.count.toNat n v ∧ ∀ i, i < n → v.dstByte i = src i := by
  subst ht
  obtain ⟨hcount, hblock⟩ := State.emitBlock_ok hok
  have hn : u.n = (encodeBlock src seqs).length := (congrArg BitVec.toNat hlen).trans hcount
  rw [← hlen]
  refine execDecompress_parse hp hn (Nat.le_of_eq hcap.symm) (holdsAt_iff.2 fun i hi => ?_)
  rw [Nat.zero_add, hin i (hn ▸ hi), ← holdsAt_iff.1 hblock i hi, Nat.zero_add]

/-- The round trip of the Fast parse, which COMPRESS_HC takes too on empty operands (R152). -/
theorem roundTrip_compressFast {P : Config.Params} {s t u : State} (ht : t = State.compressFast P s) (hok : t.status = .ok)
    (hlen : u.srcLen = t.count) (hcap : u.dstCap = s.srcLen) (hin : ∀ i, i < u.n → u.srcByte i = t.dstByte i) :
    ∃ v, exec .decompress u = .next v ∧ EndedOk t.count.toNat s.n v ∧ ∀ i, i < s.n → v.dstByte i = s.srcByte i :=
  roundTrip_of_parse (parseFast_parseOk P s.srcByte s.n) ht hok hlen (congrArg BitVec.toNat hcap) hin

/-- Settles O29: the Fast parse is well formed, and the decoder reads the block of such a parse back. -/
theorem compressRoundTrip : Obligations.CompressRoundTrip := by
  intro P s t u hexec hok hlen hcap hin
  obtain rfl : State.compressWith P s = t := by injection hexec
  rcases State.compressWith_cases P s with ⟨-, hraise⟩ | ⟨-, hfast⟩
  · rw [hraise] at hok
    exact nomatch hok
  · exact roundTrip_compressFast hfast hok hlen hcap hin

/-- Settles O30: as COMPRESS on empty operands; else the HC parse is well formed at the depth of any level, and the decoder reads
the block of such a parse back. -/
theorem compressHcRoundTrip : Obligations.CompressHcRoundTrip := by
  intro P s t u hexec hok hlen hcap hin
  obtain rfl : State.compressHcWith P s = t := by injection hexec
  rcases State.compressHcWith_cases P s with ⟨-, hraise⟩ | ⟨-, -, hfast⟩ | ⟨-, -, hchained⟩
  · rw [hraise] at hok
    exact nomatch hok
  · exact roundTrip_compressFast hfast hok hlen hcap hin
  · exact roundTrip_of_parse (parseHc_parseOk P s.srcByte s.n _) hchained hok hlen (congrArg BitVec.toNat hcap) hin

end Sys2Proof.Machine

/-! # Proofs: what the match finders keep (spec/41_fast_compress.md R113, spec/44_hc_compress.md R163) -/

namespace Sys2Proof.Machine

variable {P : Config.Params} {src : Nat → Byte} {n : Nat}

/-- What every pass of the Fast finder keeps, a scan keeps. -/
theorem fastScan_keeps {K : FastFinder → Prop}
    (hadvance : ∀ f, f.ip + 12 < n → K f → K { f with ip := f.ip + 1, ht := insertFast P src f.ht f.ip })
    (htake : ∀ f q, f.ip + 12 < n → K f → K (fastTake P src n f q).2) (fuel : Nat) {f : FastFinder} (hf : K f) :
    K (fastScan P src n fuel f).2 := by
  induction fuel generalizing f with
  | zero => exact hf
  | succ fuel ih =>
    unfold fastScan
    split
    · next hip =>
      split
      · exact htake f _ hip hf
      · exact ih (hadvance f hip hf)
    · exact hf

/-- What every scan keeps, a parse keeps. -/
theorem parseWith_keeps {F : Type} {K : F → Prop} {scan : F → Option SeqDesc × F} {anchor : F → Nat}
    (hscan : ∀ f, K f → K (scan f).2) (fuel : Nat) {f : F} (hf : K f) : K (parseWith scan anchor n fuel f).2 := by
  induction fuel generalizing f with
  | zero => exact hf
  | succ fuel ih =>
    have hnext := hscan f hf
    unfold parseWith
    split
    · next heq =>
      rw [heq] at hnext
      exact ih hnext
    · next heq =>
      rw [heq] at hnext
      exact hnext

/-! ## The tables stay in canonical form (R30 to R32) -/

theorem insertRun_rising {ht : Table Nat} (k p : Nat) (h : Table.rising ht) : Table.rising (insertRun P src k ht p) := by
  induction k generalizing ht p with
  | zero => exact h
  | succ k ih => exact ih (p + 1) (Table.rising_set h _ p)

theorem fastScan_rising (fuel : Nat) {f : FastFinder} (h : Table.rising f.ht) :
    Table.rising (fastScan P src n fuel f).2.ht :=
  fastScan_keeps (K := fun f => Table.rising f.ht) (fun f _ h => Table.rising_set h _ f.ip)
    (fun f _ _ h => insertRun_rising _ f.ip h) fuel h

theorem parseFast_rising (P : Config.Params) (src : Nat → Byte) (n : Nat) : Table.rising (parseFast P src n).2.ht :=
  parseWith_keeps (K := fun f : FastFinder => Table.rising f.ht) (fun _ h => fastScan_rising _ h) _ List.Pairwise.nil

/-- HEAD and PREV list their entries at strictly rising indexes. -/
structure Chains.Rising (c : Chains) : Prop where
  head : Table.rising c.head
  prev : Table.rising c.prev

theorem insertNext_rising {c : Chains} (k : Nat) (h : Chains.Rising c) : Chains.Rising (insertNext P src k c) := by
  induction k generalizing c with
  | zero => exact h
  | succ k ih => exact ih ⟨Table.rising_set h.head _ _, Table.rising_put h.prev _ _⟩

/-- A search inserts positions and changes the index in no other way. -/
theorem find_rising {depth : Nat} {c : Chains} (q anchor : Nat) (h : Chains.Rising c) :
    Chains.Rising (find P src n depth c q anchor).2 := insertNext_rising _ h

theorem lazyMatch_rising {depth : Nat} (fuel : Nat) {f : HcFinder} (m : Found) (h : Chains.Rising f.chains) :
    Chains.Rising (lazyMatch P src n depth fuel f m).2.chains := by
  induction fuel generalizing f m with
  | zero => exact h
  | succ fuel ih =>
    have hfind := find_rising (P := P) (src := src) (n := n) (depth := depth) (f.ip + 1) f.anchor h
    unfold lazyMatch
    split
    · dsimp only
      split
      · split
        · exact ih _ hfind
        · exact hfind
      · exact hfind
    · exact h

theorem hcScan_rising {depth : Nat} (fuel : Nat) {f : HcFinder} (h : Chains.Rising f.chains) :
    Chains.Rising (hcScan P src n depth fuel f).2.chains := by
  induction fuel generalizing f with
  | zero => exact h
  | succ fuel ih =>
    have hfind := find_rising (P := P) (src := src) (n := n) (depth := depth) f.ip f.anchor h
    unfold hcScan
    split
    · dsimp only
      split
      · exact ih hfind
      · exact lazyMatch_rising n _ hfind
    · exact h

theorem parseHc_rising (P : Config.Params) (src : Nat → Byte) (n depth : Nat) :
    Chains.Rising (parseHc P src n depth).2.chains :=
  parseWith_keeps (K := fun f : HcFinder => Chains.Rising f.chains) (fun _ h => hcScan_rising _ h) _
    ⟨List.Pairwise.nil, List.Pairwise.nil⟩

/-! ## The cursors stay in order and inside the input, whatever the tables hold (R27) -/

theorem fastScan_cursors (fuel : Nat) {f : FastFinder} (h : f.anchor ≤ f.ip ∧ f.ip ≤ n) :
    (fastScan P src n fuel f).2.anchor ≤ (fastScan P src n fuel f).2.ip ∧ (fastScan P src n fuel f).2.ip ≤ n := by
  refine fastScan_keeps (K := fun f => f.anchor ≤ f.ip ∧ f.ip ≤ n) ?_ ?_ fuel h
  · rintro f hip ⟨hanchor, -⟩
    exact ⟨Nat.le_succ_of_le hanchor, by show f.ip + 1 ≤ n; omega⟩
  · intro f q hip _
    have hend := add_fwdLen_le (src := src) q hip
    exact ⟨Nat.le_refl _, by show f.ip + fwdLen src n q f.ip ≤ n; omega⟩

/-- A walk returns a candidate's match, or the best match it began with. -/
theorem walk_eq_candidate {q anchor : Nat} {prev : Table Nat} {m : Found} (depth : Nat) {cand : Option Nat}
    {best : Option Found} (h : walk P src n q anchor prev depth cand best = some m) :
    best = some m ∨ ∃ cp, candidate src n q anchor cp = some m := by
  induction depth generalizing cand best with
  | zero => exact .inl h
  | succ depth ih =>
    cases cand with
    | none => exact .inl h
    | some cp =>
      unfold walk at h
      split at h
      · rcases ih h with hbest | hcand
        · exact (better_some hbest).imp_right fun hnew => ⟨cp, hnew⟩
        · exact .inr hcand
      · exact .inl h

/-- A match found at a position outside the margin ends inside the input (R116, R160). -/
theorem find_end_le {depth q anchor : Nat} {c : Chains} {m : Found} (ha : anchor ≤ q) (hq : q + 12 < n)
    (h : (find P src n depth c q anchor).1 = some m) : m.start + m.len ≤ n := by
  rcases walk_eq_candidate depth h with hnone | ⟨cp, hcand⟩
  · exact nomatch hnone
  · unfold candidate at hcand
    split at hcand
    · obtain rfl := Option.some.inj hcand
      have hback := anchor_add_backlen_le (src := src) cp ha
      have hend := add_fwdLen_le (src := src) cp hq
      show q - backlen src cp q anchor + (backlen src cp q anchor + fwdLen src n cp q) ≤ n
      omega
    · exact nomatch hcand

/-- Lazy matching replaces a match inside the input by such matches only. -/
theorem lazyMatch_end_le {depth : Nat} (fuel : Nat) {f : HcFinder} {m : Found} (ha : f.anchor ≤ f.ip)
    (hm : m.start + m.len ≤ n) :
    (lazyMatch P src n depth fuel f m).1.start + (lazyMatch P src n depth fuel f m).1.len ≤ n := by
  induction fuel generalizing f m with
  | zero => exact hm
  | succ fuel ih =>
    have ha' : f.anchor ≤ f.ip + 1 := Nat.le_succ_of_le ha
    unfold lazyMatch
    split
    · next hin =>
      dsimp only
      split
      · next hm2 =>
        split
        · exact ih ha' (find_end_le ha' hin hm2)
        · exact hm
      · exact hm
    · exact hm

theorem hcScan_cursors {depth : Nat} (fuel : Nat) {f : HcFinder} (h : f.anchor ≤ f.ip ∧ f.ip ≤ n) :
    (hcScan P src n depth fuel f).2.anchor ≤ (hcScan P src n depth fuel f).2.ip ∧
      (hcScan P src n depth fuel f).2.ip ≤ n := by
  induction fuel generalizing f with
  | zero => exact h
  | succ fuel ih =>
    have ⟨hanchor, _⟩ := h
    unfold hcScan
    split
    · next hin =>
      have hin' : f.ip + 12 < n := hin
      dsimp only
      split
      · exact ih ⟨Nat.le_succ_of_le hanchor, by show f.ip + 1 ≤ n; omega⟩
      · next hm => exact ⟨Nat.le_refl _, lazyMatch_end_le n hanchor (find_end_le hanchor hin' hm)⟩
    · exact h

end Sys2Proof.Machine

/-! # Proofs: what a step of the machine is made of (spec/10_state.md R20, spec/46_command_interface.md) -/

namespace Sys2Proof.Machine

/-! ## The decoder -/

/-- Everything one step of the decoder can make of a state (R182 to R188). -/
inductive DecoderMove (s : State) : State → Prop where
  /-- A terminal state has no step (R191). -/
  | stay : DecoderMove s s
  /-- A failure, in ReadOffset after the two bytes are read. -/
  | fail (ip : Nat) (offset : BitVec 16) (kind : ResultKind) :
      DecoderMove s (State.failDecode { s with ip := ip, offset := offset } kind)
  /-- Bytes of the block are read into the working registers. -/
  | read (ip litlen mlen : Nat) (offset : BitVec 16) (mnib : Nibble) (dstate : DState) (hfrom : s.ip ≤ ip) (hto : ip ≤ s.n) :
      DecoderMove s
        { s with ip := ip, litlen := litlen, mlen := mlen, offset := offset, mnib := mnib, dstate := dstate }
  /-- A literal run that fits is copied. -/
  | literals (bytes : List Byte) (hcap : bytes.length ≤ s.cap - s.op) (hin : bytes.length ≤ s.n - s.ip) :
      DecoderMove s (State.endLiterals
        { s with
          dst := Memory.writeList s.dst s.op bytes
          ip := s.ip + bytes.length
          op := s.op + bytes.length })
  /-- A match that fits is copied. -/
  | copy (hcap : s.mlen ≤ s.cap - s.op) :
      DecoderMove s
        { s with
          dst := Memory.copySerial Config.freeDstByte s.dst s.op s.offset.toNat s.mlen
          op := s.op + s.mlen
          dstate := .readToken }

theorem State.readToken_move (s : State) (l m : Nibble) : DecoderMove s (State.readToken s l m) := by
  rcases State.readToken_cases s l m with ⟨-, h⟩ | ⟨hip, h⟩ <;> rw [h]
  · exact .fail s.ip s.offset _
  · exact .read _ _ s.mlen s.offset _ _ (Nat.le_succ _) hip

theorem State.readExtension_move (s : State) (b : Byte) : DecoderMove s (State.readExtension s b) := by
  rcases State.readExtension_cases s b with ⟨-, hip, h⟩ | ⟨-, hip, h⟩ | ⟨-, -, h⟩ | ⟨-, -, h⟩ <;> rw [h]
  · exact .read _ _ s.mlen s.offset s.mnib _ (Nat.le_succ _) hip
  · exact .read _ s.litlen _ s.offset s.mnib _ (Nat.le_succ _) hip
  · exact .fail s.ip s.offset _
  · exact .stay

theorem State.readOffset_move (s : State) (d : BitVec 16) : DecoderMove s (State.readOffset s d) := by
  rcases State.readOffset_cases s d with ⟨-, h⟩ | ⟨-, -, h⟩ | ⟨htwo, -, -, h⟩ <;> rw [h]
  · exact .fail s.ip s.offset _
  · exact .fail _ _ _
  · exact .read _ s.litlen _ _ s.mnib _ (Nat.le_add_right _ _) (by omega)

theorem State.copyLiterals_move {s : State} {lits : List Byte} (hlen : lits.length = s.litlen) :
    DecoderMove s (State.copyLiterals s lits) := by
  rcases State.copyLiterals_cases s lits with ⟨-, h⟩ | ⟨-, -, h⟩ | ⟨hcap, hin, h⟩ <;> rw [h]
  · exact .fail s.ip s.offset _
  · exact .fail s.ip s.offset _
  · have hmove := DecoderMove.literals (s := s) lits (by omega) (by omega)
    rwa [hlen] at hmove

theorem State.copyMatch_move (s : State) : DecoderMove s (State.copyMatch s) := by
  rcases State.copyMatch_cases s with ⟨-, h⟩ | ⟨hcap, h⟩ <;> rw [h]
  · exact .fail s.ip s.offset _
  · exact .copy hcap

theorem State.decoderStep_move (s : State) : DecoderMove s (State.decoderStep s) := by
  have hfail : DecoderMove s (State.failDecode s .inputTruncated) := .fail s.ip s.offset _
  cases hd : s.dstate with
  | readToken =>
    by_cases hip : s.n ≤ s.ip
    · simpa [State.decoderStep, State.fetchWire, hd, hip] using hfail
    · simpa [State.decoderStep, State.fetchWire, hd, hip, decodeToken, State.wireEffect] using
        State.readToken_move s _ _
  | readLiteralExtension | readMatchExtension =>
    by_cases hip : s.n ≤ s.ip
    · simpa [State.decoderStep, State.fetchWire, hd, hip] using hfail
    · rw [decoderStep_extension (by simp [hd]) (Nat.not_le.1 hip)]
      exact State.readExtension_move s _
  | copyLiterals =>
    rw [decoderStep_copyLiterals hd]
    exact State.copyLiterals_move (slice_length _ _ _)
  | readOffset =>
    by_cases hip : s.n - s.ip < 2
    · simpa [State.decoderStep, State.fetchWire, hd, hip] using hfail
    · rw [decoderStep_readOffset hd (by omega)]
      exact State.readOffset_move s _
  | copyMatch =>
    rw [decoderStep_copyMatch hd]
    exact State.copyMatch_move s
  | done | failed => simpa [State.decoderStep, State.fetchWire, hd] using DecoderMove.stay

/-- While DECOMPRESS runs, the element the decoder fetches is executed with its effect on the decoder. -/
theorem exec_of_fetchWire {s : State} {i : Instr} (hb : s.phase = .busy) (hop : s.crOp = 3)
    (h : State.fetchWire s = .element i) : exec i s = .next (State.wireEffect s i) := by
  have hext : ∀ b, s.dstate = .readLiteralExtension ∨ s.dstate = .readMatchExtension →
      exec (decodeExt b) s = .next (State.wireEffect s (decodeExt b)) := by
    intro b hd
    have hdue : State.extensionDue s = true := by
      rcases hd with hd | hd <;> simp [State.extensionDue, State.decoderAt, hb, hop, hd]
    unfold decodeExt
    split
    · exact if_pos hdue
    · exact if_pos hdue
  unfold State.fetchWire at h
  cases hd : s.dstate with
  | readToken =>
    simp only [hd] at h
    split at h
    · exact nomatch h
    · obtain rfl := WireFetch.element.inj h
      exact if_pos (by simp [State.decoderAt, hb, hop, hd])
  | readLiteralExtension | readMatchExtension =>
    simp only [hd] at h
    split at h
    · exact nomatch h
    · obtain rfl := WireFetch.element.inj h
      exact hext _ (by simp [hd])
  | readOffset =>
    simp only [hd] at h
    split at h
    · exact nomatch h
    · obtain rfl := WireFetch.element.inj h
      exact if_pos (by simp [State.decoderAt, hb, hop, hd])
  | copyLiterals | copyMatch | done | failed => simp [hd] at h

/-- While DECOMPRESS runs, an elementary step that answers a next state is the decoder's step. -/
theorem decompressTick_next {s t : State} (hb : s.phase = .busy) (hop : s.crOp = 3) (h : decompressTick s = .next t) :
    t = State.decoderStep s := by
  unfold decompressTick at h
  unfold State.decoderStep
  cases hf : State.fetchWire s with
  | element i =>
    simp only [hf, exec_of_fetchWire hb hop hf] at h
    exact (Host.Outcome.next.inj h).symm
  | literals =>
    simp only [hf] at h
    exact (Host.Outcome.next.inj h).symm
  | matchCopy =>
    simp only [hf] at h
    split at h
    · exact nomatch h
    · exact (Host.Outcome.next.inj h).symm
  | noInput =>
    simp only [hf] at h
    exact (Host.Outcome.next.inj h).symm
  | ended =>
    simp only [hf] at h
    exact nomatch h

/-! ## The compressors -/

/-- SEQ.LAST under a compressor: its bytes, and then the normal end where they fit. -/
theorem State.putLast_cases (s : State) (lits : List Byte) :
    State.putLast s lits = State.emitSeq s (encodeLast lits 0) ∨
      ∃ k, State.putLast s lits = State.finish (State.emitSeq s (encodeLast lits 0)) k k := by
  unfold State.putLast
  dsimp only
  split
  · exact .inr ⟨_, rfl⟩
  · exact .inl rfl

/-- A finder's run up to its next sequence: the finder's cursors and tables, and a sequence. -/
theorem State.nextSequence_cases (P : Config.Params) (s : State) :
    (∃ q, State.nextSequence P s =
      (State.withFast s (fastScan P s.srcByte s.n (s.n + 1) { ip := s.ip, anchor := s.anchor, ht := s.ht }).2,
        SeqDesc.toInstr s.srcByte q)) ∨
    (∃ q, State.nextSequence P s =
      (State.withHc s (hcScan P s.srcByte s.n (P.depth (clampLevel s.level)) (s.n + 1)
        { ip := s.ip, anchor := s.anchor, chains := { head := s.head, prev := s.prev, nti := s.nti } }).2,
        SeqDesc.toInstr s.srcByte q)) := by
  unfold State.nextSequence
  split
  · right
    dsimp only
    split
    · next heq => exact ⟨_, by rw [heq]⟩
    · next heq => exact ⟨_, by rw [heq]⟩
  · left
    dsimp only
    split
    · next heq => exact ⟨_, by rw [heq]⟩
    · next heq => exact ⟨_, by rw [heq]⟩

theorem State.encoding_of_busy {s : State} (hb : s.phase = .busy) (hop : s.crOp = 1 ∨ s.crOp = 2) :
    State.encoding s = true := by
  rcases hop with hop | hop <;> simp [State.encoding, hb, hop]

/-- While a compressor runs, an elementary step is the size failure, or the next sequence found and written. -/
theorem compressTick_cases {P : Config.Params} {s : State} (hb : s.phase = .busy) (hop : s.crOp = 1 ∨ s.crOp = 2) :
    compressTick P s = .next (State.raise s .inputTooLarge) ∨
    State.encoding (State.nextSequence P s).1 = true ∧
      ((∃ lits d m, compressTick P s = .next (State.putMatch (State.nextSequence P s).1 lits d m)) ∨
        ∃ lits, compressTick P s = .next (State.putLast (State.nextSequence P s).1 lits)) := by
  unfold compressTick
  split
  · exact .inl rfl
  · have hrun : State.encoding (State.nextSequence P s).1 = true ∧
        ∃ q, (State.nextSequence P s).2 = SeqDesc.toInstr s.srcByte q := by
      rcases State.nextSequence_cases P s with ⟨q, h⟩ | ⟨q, h⟩ <;> rw [h]
      · exact ⟨State.encoding_of_busy hb hop, q, rfl⟩
      · exact ⟨State.encoding_of_busy hb hop, q, rfl⟩
    obtain ⟨henc, q, hq⟩ := hrun
    refine .inr ⟨henc, ?_⟩
    rw [hq]
    cases q with
    | matchSeq a l d m => exact .inl ⟨_, _, _, if_pos henc⟩
    | lastSeq a l => exact .inr ⟨_, if_pos henc⟩

/-! ## Invariants -/

/-- What the parts of a step have to keep so that every step keeps it. -/
structure KeptByParts (P : Config.Params) (I : State → Prop) : Prop where
  hostFields : ∀ s h r k, I s → I { s with host := h, rdata := r, freeReads := k }
  writeOperand : ∀ s op n cap lvl, s.phase ≠ .busy → I s → I { s with crOp := op, srcLen := n, dstCap := cap, level := lvl }
  start : ∀ s, s.phase ≠ .busy → I s → I (State.start s)
  writeSrc : ∀ s (a : Word32) b, I s → I { s with src := Memory.write s.src a.toNat b }
  writeDst : ∀ s (a : Word32) b, I s → I { s with dst := Memory.write s.dst a.toNat b }
  hardReset : ∀ s, I s → I (State.hardReset s)
  raise : ∀ s kind, I s → I (State.raise s kind)
  finish : ∀ s c p, I s → I (State.finish s c p)
  emitSeq : ∀ s bytes, State.encoding s = true → I s → I (State.emitSeq s bytes)
  nextSequence : ∀ s, s.phase = .busy → s.crOp = 1 ∨ s.crOp = 2 → I s → I (State.nextSequence P s).1
  compressFast : ∀ s, I s → I (State.compressFast P s)
  compressChained : ∀ s, I s → I (State.compressChained P s)
  enterDecoder : ∀ s, State.fresh s = true → I s → I (State.enterDecoder s)
  decoderStep : ∀ s, I s → I (State.decoderStep s)

section

variable {P : Config.Params} {I : State → Prop} (hI : KeptByParts P I) {s t : State}

include hI

theorem KeptByParts.runDecoder (fuel : Nat) (hs : I s) : I (State.runDecoder fuel s) := by
  induction fuel generalizing s with
  | zero => exact hs
  | succ fuel ih =>
    unfold State.runDecoder
    split
    · exact hs
    · exact ih (hI.decoderStep s hs)

theorem KeptByParts.compressWith (hs : I s) : I (State.compressWith P s) := by
  rcases State.compressWith_cases P s with ⟨-, h⟩ | ⟨-, h⟩ <;> rw [h]
  · exact hI.raise s _ hs
  · exact hI.compressFast s hs

theorem KeptByParts.compressHcWith (hs : I s) : I (State.compressHcWith P s) := by
  rcases State.compressHcWith_cases P s with ⟨-, h⟩ | ⟨-, -, h⟩ | ⟨-, -, h⟩ <;> rw [h]
  · exact hI.raise s _ hs
  · exact hI.compressFast s hs
  · exact hI.compressChained s hs

/-- A whole operation keeps it, from a state in which nothing has moved yet. -/
theorem KeptByParts.execWith_decodeOp (hfresh : State.fresh s = true) (hs : I s)
    (h : execWith P (decodeOp s.crOp) s = .next t) : I t := by
  unfold decodeOp at h
  split_ifs at h
  · exact Host.Outcome.next.inj h ▸ hI.finish s _ _ hs
  · exact Host.Outcome.next.inj h ▸ hI.compressWith hs
  · exact Host.Outcome.next.inj h ▸ hI.compressHcWith hs
  · exact Host.Outcome.next.inj h ▸ hI.runDecoder _ (hI.enterDecoder s hfresh hs)

theorem KeptByParts.compressTick (hb : s.phase = .busy) (hop : s.crOp = 1 ∨ s.crOp = 2) (hs : I s)
    (h : compressTick P s = .next t) : I t := by
  have hnext := hI.nextSequence s hb hop hs
  rcases compressTick_cases (P := P) hb hop with heq | ⟨henc, ⟨lits, d, m, heq⟩ | ⟨lits, heq⟩⟩ <;>
    obtain rfl := Host.Outcome.next.inj (heq.symm.trans h)
  · exact hI.raise s _ hs
  · exact hI.emitSeq _ _ henc hnext
  · have hbytes := hI.emitSeq _ (encodeLast lits 0) henc hnext
    rcases State.putLast_cases (State.nextSequence P s).1 lits with hput | ⟨k, hput⟩ <;> rw [hput]
    · exact hbytes
    · exact hI.finish _ k k hbytes

theorem KeptByParts.codecTick (hs : I s) (h : codecTick P s = .next t) : I t := by
  rcases codecTick_cases P s with ⟨-, heq⟩ | ⟨-, -, heq⟩ | ⟨hb, hop, heq⟩ | ⟨hb, hop, heq⟩ <;> rw [heq] at h
  · exact Host.Outcome.next.inj h ▸ hs
  · exact Host.Outcome.next.inj h ▸ hI.finish s _ _ hs
  · exact decompressTick_next hb hop h ▸ hI.decoderStep s hs
  · exact hI.compressTick hb hop hs h

theorem KeptByParts.codecRun (hs : I s) (h : codecRun P s = .next t) : I t := by
  rcases codecRun_cases P s with ⟨-, hfresh, heq⟩ | heq <;> rw [heq] at h
  · exact hI.execWith_decodeOp hfresh hs h
  · exact hI.codecTick hs h

theorem KeptByParts.writeReg (r : CReg) (v : Word32) (hs : I s) : I (State.writeReg s r v) := by
  rcases State.writeReg_cases s r v with h | ⟨hb, ⟨-, h⟩ | ⟨-, h⟩ | ⟨-, h⟩ | ⟨-, h⟩ | ⟨-, -, h⟩⟩ <;> rw [h]
  · exact hs
  · exact hI.writeOperand s _ s.srcLen s.dstCap s.level hb hs
  · exact hI.writeOperand s s.crOp _ s.dstCap s.level hb hs
  · exact hI.writeOperand s s.crOp s.srcLen _ s.level hb hs
  · exact hI.writeOperand s s.crOp s.srcLen s.dstCap _ hb hs
  · exact hI.start s hb hs

theorem KeptByParts.hostStep {a : HostAction} {rest : List HostAction} (hs : I s) (h : hostStep P s rest a = .next t) :
    I t := by
  have hrest : I { s with host := rest } := hI.hostFields s rest s.rdata s.freeReads hs
  cases a with
  | writeReg r v => exact Host.Outcome.next.inj h ▸ hI.writeReg r v hrest
  | readReg r => exact Host.Outcome.next.inj h ▸ hI.hostFields s rest _ s.freeReads hs
  | writeSrc a b =>
    rcases hostWriteSrc_cases { s with host := rest } a b with ⟨-, -, heq⟩ | ⟨-, heq⟩
    · exact nomatch heq.symm.trans h
    · exact Host.Outcome.next.inj (heq.symm.trans h) ▸ hI.writeSrc _ a b hrest
  | writeDst a b =>
    rcases hostWriteDst_cases { s with host := rest } a b with ⟨-, -, heq⟩ | ⟨-, heq⟩
    · exact nomatch heq.symm.trans h
    · exact Host.Outcome.next.inj (heq.symm.trans h) ▸ hI.writeDst _ a b hrest
  | readDst a =>
    obtain rfl := Host.Outcome.next.inj h
    unfold State.hostReadDst
    split
    · exact hI.hostFields s rest _ _ hs
    · exact hI.hostFields s rest _ s.freeReads hs
  | reset => exact Host.Outcome.next.inj h ▸ hI.hardReset _ hrest
  | await =>
    change hostAwait P s rest = .next t at h
    unfold hostAwait at h
    split at h
    · exact hI.codecRun hs h
    · exact Host.Outcome.next.inj h ▸ hrest
  | tick => exact hI.codecTick hrest h

/-- A step keeps what its parts keep. -/
theorem KeptByParts.stepWith (hs : I s) (h : stepWith P s = .next t) : I t := by
  rcases stepWith_cases P s with ⟨-, heq⟩ | ⟨a, rest, -, heq⟩ <;> rw [heq] at h
  · exact hI.codecRun hs h
  · exact hI.hostStep hs h

end

end Sys2Proof.Machine

/-! # Proofs: the canonical form of the byte spaces and tables (spec/10_state.md R30 to R33, spec/20_memory.md R50) -/

namespace Sys2Proof.Machine

variable {P : Config.Params} {s t : State}

/-- Writing a run that fits below DST_CAP keeps the canonical form; a run of no bytes writes nothing, wherever `op` is. -/
theorem State.wf_writeList_dst (hs : Memory.wf s.dst) (bytes : List Byte) (h : bytes.length ≤ s.cap - s.op) :
    Memory.wf (Memory.writeList s.dst s.op bytes) := by
  have hcap : s.cap < 2 ^ 32 := s.dstCap.isLt
  cases bytes with
  | nil => exact hs
  | cons b bs =>
    rw [List.length_cons] at h
    refine Memory.wf_writeList _ hs _ ?_
    rw [List.length_cons, addressCount]
    omega

/-- The same for the copy of a match. -/
theorem State.wf_copySerial_dst (free : Nat → Nat → Byte) (hs : Memory.wf s.dst) (off : Nat) (h : s.mlen ≤ s.cap - s.op) :
    Memory.wf (Memory.copySerial free s.dst s.op off s.mlen) := by
  have hcap : s.cap < 2 ^ 32 := s.dstCap.isLt
  rcases Nat.eq_zero_or_pos s.mlen with hzero | hpos
  · rw [hzero]
    exact hs
  · refine Memory.wf_copySerial free hs _ _ _ ?_
    rw [addressCount]
    omega

theorem State.MemOk.src (hs : State.MemOk s) : Memory.wf s.src := hs.1

theorem State.MemOk.dst (hs : State.MemOk s) : Memory.wf s.dst := hs.2.1

theorem State.MemOk.raise (hs : State.MemOk s) (kind : ResultKind) : State.MemOk (State.raise s kind) := by
  obtain ⟨hsrc, hdst, htables⟩ := hs
  exact ⟨hsrc, Memory.wf_forget hdst _, htables⟩

theorem State.MemOk.withDst (hs : State.MemOk s) {dst : Memory} (hdst : Memory.wf dst) :
    State.MemOk { s with dst := dst } := by
  obtain ⟨hsrc, -, htables⟩ := hs
  exact ⟨hsrc, hdst, htables⟩

theorem State.MemOk.withFast (hs : State.MemOk s) {f : FastFinder} (hf : Table.rising f.ht) :
    State.MemOk (State.withFast s f) := by
  obtain ⟨hsrc, hdst, -, hhead, hprev⟩ := hs
  exact ⟨hsrc, hdst, hf, hhead, hprev⟩

theorem State.MemOk.withHc (hs : State.MemOk s) {f : HcFinder} (hf : Chains.Rising f.chains) :
    State.MemOk (State.withHc s f) := by
  obtain ⟨hsrc, hdst, hht, -, -⟩ := hs
  exact ⟨hsrc, hdst, hht, hf.head, hf.prev⟩

theorem State.MemOk.emitSeq (hs : State.MemOk s) (bytes : List Byte) : State.MemOk (State.emitSeq s bytes) := by
  rcases State.emitSeq_cases s bytes with ⟨-, h⟩ | ⟨hcap, h⟩ <;> rw [h]
  · exact hs.raise _
  · exact hs.withDst (State.wf_writeList_dst hs.dst bytes (by omega))

theorem State.MemOk.emitBlock (hs : State.MemOk s) (block : List Byte) : State.MemOk (State.emitBlock s block) := by
  rcases State.emitBlock_cases s block with ⟨-, h⟩ | ⟨hcap, h⟩ <;> rw [h]
  · exact hs.raise _
  · exact hs.withDst (State.wf_writeList_dst (s := { s with op := 0 }) hs.dst block hcap)

theorem State.MemOk.nextSequence (hs : State.MemOk s) : State.MemOk (State.nextSequence P s).1 := by
  have ⟨_, _, hht, hhead, hprev⟩ := hs
  rcases State.nextSequence_cases P s with ⟨q, h⟩ | ⟨q, h⟩ <;> rw [h]
  · exact hs.withFast (fastScan_rising _ hht)
  · exact hs.withHc (hcScan_rising _ ⟨hhead, hprev⟩)

theorem State.MemOk.decoderMove (hs : State.MemOk s) (h : DecoderMove s t) : State.MemOk t := by
  cases h with
  | stay | read => exact hs
  | fail _ _ kind => exact State.MemOk.raise (s := { s with dstate := .failed }) hs kind
  | literals bytes hcap =>
    have hwritten := hs.withDst (State.wf_writeList_dst hs.dst bytes hcap)
    rcases State.endLiterals_cases _ with ⟨-, h⟩ | ⟨-, h⟩ <;> rw [h]
    · exact hwritten
    · exact hwritten
  | copy hcap => exact hs.withDst (State.wf_copySerial_dst _ hs.dst _ hcap)

/-- R30 to R33, R50, for any parameters. -/
theorem memOk_keptByParts (P : Config.Params) : KeptByParts P State.MemOk where
  hostFields _ _ _ _ hs := hs
  writeOperand _ _ _ _ _ _ hs := hs
  start _ _ hs := ⟨hs.src, hs.dst, .nil, .nil, .nil⟩
  writeSrc _ a b := fun ⟨hsrc, hrest⟩ => ⟨Memory.wf_write hsrc a.isLt b, hrest⟩
  writeDst _ a b hs := hs.withDst (Memory.wf_write hs.dst a.isLt b)
  hardReset _ hs := ⟨Memory.wf_forget hs.src _, Memory.wf_forget hs.dst _, .nil, .nil, .nil⟩
  raise _ kind hs := hs.raise kind
  finish _ _ _ hs := hs
  emitSeq _ bytes _ hs := hs.emitSeq bytes
  nextSequence _ _ _ hs := hs.nextSequence
  compressFast s hs := (hs.withFast (parseFast_rising P s.srcByte s.n)).emitBlock _
  compressChained s hs := (hs.withHc (parseHc_rising P s.srcByte s.n _)).emitBlock _
  enterDecoder _ _ hs := hs
  decoderStep s hs := hs.decoderMove s.decoderStep_move

/-- Settles O57: the writes of every part of a step keep indexes rising and addresses below 2^32. -/
theorem canonicalFormIsKept : Obligations.CanonicalFormIsKept :=
  fun _ _ hs h => (memOk_keptByParts Config.params).stepWith hs h

/-! # Proofs: the result registers (spec/10_state.md R25, spec/46_command_interface.md R215, spec/60_exceptions.md R236) -/

/-- Both ends of an operation leave DONE and, beside a failure, counts of 0. -/
theorem State.raise_resultsOk (s : State) (kind : ResultKind) : State.ResultsOk (State.raise s kind) :=
  ⟨fun _ => ⟨rfl, rfl⟩, nofun⟩

theorem State.finish_resultsOk (s : State) (c p : Nat) : State.ResultsOk (State.finish s c p) :=
  ⟨fun h => absurd rfl h, nofun⟩

theorem State.emitBlock_resultsOk (s : State) (block : List Byte) : State.ResultsOk (State.emitBlock s block) := by
  rcases State.emitBlock_cases s block with ⟨-, h⟩ | ⟨-, h⟩ <;> rw [h]
  · exact State.raise_resultsOk s _
  · exact State.finish_resultsOk _ _ _

theorem State.ResultsOk.emitSeq (hs : State.ResultsOk s) (bytes : List Byte) : State.ResultsOk (State.emitSeq s bytes) := by
  rcases State.emitSeq_cases s bytes with ⟨-, h⟩ | ⟨-, h⟩ <;> rw [h]
  · exact State.raise_resultsOk s _
  · exact hs

theorem State.ResultsOk.nextSequence (hs : State.ResultsOk s) : State.ResultsOk (State.nextSequence P s).1 := by
  rcases State.nextSequence_cases P s with ⟨q, h⟩ | ⟨q, h⟩ <;> rw [h]
  · exact hs
  · exact hs

theorem State.ResultsOk.decoderMove (hs : State.ResultsOk s) (h : DecoderMove s t) : State.ResultsOk t := by
  cases h with
  | stay | read | copy => exact hs
  | fail => exact State.raise_resultsOk _ _
  | literals =>
    rcases State.endLiterals_cases _ with ⟨-, h⟩ | ⟨-, h⟩ <;> rw [h]
    · exact State.finish_resultsOk _ _ _
    · exact hs

/-- R25, R215, R236, for any parameters. -/
theorem resultsOk_keptByParts (P : Config.Params) : KeptByParts P State.ResultsOk where
  hostFields _ _ _ _ hs := hs
  writeOperand _ _ _ _ _ _ hs := hs
  start _ _ _ := ⟨fun _ => ⟨rfl, rfl⟩, fun _ => ⟨rfl, rfl, rfl⟩⟩
  writeSrc _ _ _ hs := hs
  writeDst _ _ _ hs := hs
  hardReset _ _ := ⟨fun _ => ⟨rfl, rfl⟩, nofun⟩
  raise s kind _ := s.raise_resultsOk kind
  finish s c p _ := s.finish_resultsOk c p
  emitSeq _ bytes _ hs := hs.emitSeq bytes
  nextSequence _ _ _ hs := hs.nextSequence
  compressFast _ _ := State.emitBlock_resultsOk _ _
  compressChained _ _ := State.emitBlock_resultsOk _ _
  enterDecoder _ _ hs := hs
  decoderStep s hs := hs.decoderMove s.decoderStep_move

/-- Settles O58: an operation's parts leave the result registers alone, and its two ends set all of them. -/
theorem resultRegistersAreKept : Obligations.ResultRegistersAreKept :=
  fun _ _ hs h => (resultsOk_keptByParts Config.params).stepWith hs h

/-! # Proofs: the cursors (spec/10_state.md R27, spec/20_memory.md R51, spec/45_block_decoder.md R195) -/

theorem State.cursorsOk_of_not_busy (h : s.phase ≠ .busy) : State.CursorsOk s := fun hb => absurd hb h

theorem State.emitBlock_phase (s : State) (block : List Byte) : (State.emitBlock s block).phase = .done := by
  rcases State.emitBlock_cases s block with ⟨-, h⟩ | ⟨-, h⟩ <;> rw [h] <;> rfl

theorem State.emitBlock_cursorsOk (s : State) (block : List Byte) : State.CursorsOk (State.emitBlock s block) :=
  State.cursorsOk_of_not_busy (by simp [State.emitBlock_phase])

theorem State.CursorsOk.emitSeq (hs : State.CursorsOk s) (bytes : List Byte) : State.CursorsOk (State.emitSeq s bytes) := by
  rcases State.emitSeq_cases s bytes with ⟨-, h⟩ | ⟨hcap, h⟩ <;> rw [h]
  · exact State.cursorsOk_of_not_busy nofun
  · intro hb
    obtain ⟨hanchor, hip, -⟩ := hs hb
    exact ⟨hanchor, hip, hcap⟩

theorem State.CursorsOk.nextSequence (hs : State.CursorsOk s) (hb : s.phase = .busy) :
    State.CursorsOk (State.nextSequence P s).1 := by
  obtain ⟨hanchor, hip, hop⟩ := hs hb
  rcases State.nextSequence_cases P s with ⟨q, h⟩ | ⟨q, h⟩ <;> rw [h] <;> intro _
  · obtain ⟨hanchor', hip'⟩ := fastScan_cursors (P := P) (src := s.srcByte) (s.n + 1)
      (f := { ip := s.ip, anchor := s.anchor, ht := s.ht }) ⟨hanchor, hip⟩
    exact ⟨hanchor', hip', hop⟩
  · obtain ⟨hanchor', hip'⟩ := hcScan_cursors (P := P) (src := s.srcByte) (depth := P.depth (clampLevel s.level)) (s.n + 1)
      (f := { ip := s.ip, anchor := s.anchor, chains := { head := s.head, prev := s.prev, nti := s.nti } }) ⟨hanchor, hip⟩
    exact ⟨hanchor', hip', hop⟩

theorem State.CursorsOk.endLiterals (hs : State.CursorsOk s) : State.CursorsOk (State.endLiterals s) := by
  rcases State.endLiterals_cases s with ⟨-, h⟩ | ⟨-, h⟩ <;> rw [h]
  · exact State.cursorsOk_of_not_busy nofun
  · exact hs

theorem State.CursorsOk.decoderMove (hs : State.CursorsOk s) (h : DecoderMove s t) : State.CursorsOk t := by
  cases h with
  | stay => exact hs
  | fail => exact State.cursorsOk_of_not_busy nofun
  | read ip _ _ _ _ _ hfrom hto =>
    intro hb
    obtain ⟨hanchor, -, hop⟩ := hs hb
    exact ⟨Nat.le_trans hanchor hfrom, hto, hop⟩
  | literals bytes hcap hin =>
    refine State.CursorsOk.endLiterals fun hb => ?_
    obtain ⟨hanchor, hip, hop⟩ := hs hb
    exact ⟨Nat.le_add_right_of_le hanchor, by show s.ip + bytes.length ≤ s.n; omega,
      by show s.op + bytes.length ≤ s.cap; omega⟩
  | copy hcap =>
    intro hb
    obtain ⟨hanchor, hip, hop⟩ := hs hb
    exact ⟨hanchor, hip, by show s.op + s.mlen ≤ s.cap; omega⟩

/-- The decoder starts at 0, where `anchor` is too when nothing has moved yet. -/
theorem State.CursorsOk.enterDecoder (hs : State.CursorsOk s) (hfresh : State.fresh s = true) :
    State.CursorsOk (State.enterDecoder s) := by
  intro hb
  obtain ⟨hanchor, -, -⟩ := hs hb
  have hip : s.ip = 0 := by simp_all [State.fresh]
  exact ⟨by show s.anchor ≤ 0; omega, Nat.zero_le _, Nat.zero_le _⟩

/-- R27, R51, R195, for any parameters. -/
theorem cursorsOk_keptByParts (P : Config.Params) : KeptByParts P State.CursorsOk where
  hostFields _ _ _ _ hs := hs
  writeOperand _ _ _ _ _ hb _ := State.cursorsOk_of_not_busy hb
  start _ _ _ := fun _ => ⟨Nat.zero_le _, Nat.zero_le _, Nat.zero_le _⟩
  writeSrc _ _ _ hs := hs
  writeDst _ _ _ hs := hs
  hardReset _ _ := State.cursorsOk_of_not_busy nofun
  raise _ _ _ := State.cursorsOk_of_not_busy nofun
  finish _ _ _ _ := State.cursorsOk_of_not_busy nofun
  emitSeq _ bytes _ hs := hs.emitSeq bytes
  nextSequence _ hb _ hs := hs.nextSequence hb
  compressFast _ _ := State.emitBlock_cursorsOk _ _
  compressChained _ _ := State.emitBlock_cursorsOk _ _
  enterDecoder _ hfresh hs := hs.enterDecoder hfresh
  decoderStep s hs := hs.decoderMove s.decoderStep_move

/-- Settles O59: the decoder reads and copies after its checks only, and a finder's scan ends inside the input whatever its
tables hold. -/
theorem cursorsStayInRange : Obligations.CursorsStayInRange :=
  fun _ _ hs h => (cursorsOk_keptByParts Config.params).stepWith hs h

end Sys2Proof.Machine

/-! # Proofs: what an instruction leaves alone (spec/10_state.md R24, R30 to R32, spec/44_hc_compress.md R152) -/

namespace Sys2Proof.Machine

/-! ## Frames compose -/

theorem SameOperands.refl (s : State) : SameOperands s s := by constructor <;> rfl

theorem SameOperands.trans {s t u : State} (h : SameOperands s t) (h' : SameOperands t u) : SameOperands s u where
  crOp := h'.crOp.trans h.crOp
  srcLen := h'.srcLen.trans h.srcLen
  dstCap := h'.dstCap.trans h.dstCap
  level := h'.level.trans h.level
  src := h'.src.trans h.src
  host := h'.host.trans h.host
  rdata := h'.rdata.trans h.rdata
  freeReads := h'.freeReads.trans h.freeReads

theorem SameTables.refl (s : State) : SameTables s s := by constructor <;> rfl

theorem SameTables.trans {s t u : State} (h : SameTables s t) (h' : SameTables t u) : SameTables s u where
  ht := h'.ht.trans h.ht
  head := h'.head.trans h.head
  prev := h'.prev.trans h.prev

/-- What an operation without a match finder keeps: operands, tables, `nti` and `anchor` (R26, R30 to R32). -/
structure NoSearch (s t : State) : Prop where
  operands : SameOperands s t
  tables : SameTables s t
  nti : t.nti = s.nti
  anchor : t.anchor = s.anchor

namespace NoSearch

variable {s t u : State}

theorem refl (s : State) : NoSearch s s := ⟨.refl s, .refl s, rfl, rfl⟩

theorem trans (h : NoSearch s t) (h' : NoSearch t u) : NoSearch s u :=
  ⟨h.operands.trans h'.operands, h.tables.trans h'.tables, h'.nti.trans h.nti, h'.anchor.trans h.anchor⟩

/-- The fields that such an operation may write. -/
theorem update (s : State) (phase : Phase) (status : ResultKind) (count produced : Word32) (ip op litlen mlen : Nat)
    (offset : BitVec 16) (mnib : Nibble) (dstate : DState) (dst : Memory) :
    NoSearch s
      { s with
        phase := phase, status := status, count := count, produced := produced, ip := ip, op := op, litlen := litlen
        mlen := mlen, offset := offset, mnib := mnib, dstate := dstate, dst := dst } := by
  constructor
  · constructor <;> rfl
  · constructor <;> rfl
  · rfl
  · rfl

theorem readToken (s : State) (l m : Nibble) : NoSearch s (State.readToken s l m) := by
  rcases State.readToken_cases s l m with ⟨-, h⟩ | ⟨-, h⟩ <;> rw [h] <;> apply update

theorem readExtension (s : State) (b : Byte) : NoSearch s (State.readExtension s b) := by
  rcases State.readExtension_cases s b with ⟨-, -, h⟩ | ⟨-, -, h⟩ | ⟨-, -, h⟩ | ⟨-, -, h⟩ <;> rw [h] <;> apply update

theorem endLiterals (s : State) : NoSearch s (State.endLiterals s) := by
  rcases State.endLiterals_cases s with ⟨-, h⟩ | ⟨-, h⟩ <;> rw [h] <;> apply update

theorem copyLiterals (s : State) (lits : List Byte) : NoSearch s (State.copyLiterals s lits) := by
  rcases State.copyLiterals_cases s lits with ⟨-, h⟩ | ⟨-, -, h⟩ | ⟨-, -, h⟩ <;> rw [h]
  · apply update
  · apply update
  · refine trans ?_ (endLiterals _)
    apply update

theorem copyLiteral (s : State) (b : Byte) : NoSearch s (State.copyLiteral s b) := by
  rcases State.copyLiteral_cases s b with ⟨-, h⟩ | ⟨-, -, h⟩ | ⟨-, -, -, h⟩ | ⟨-, -, -, h⟩ <;> rw [h]
  · apply update
  · apply update
  · refine trans ?_ (endLiterals _)
    apply update
  · apply update

theorem readOffset (s : State) (d : BitVec 16) : NoSearch s (State.readOffset s d) := by
  rcases State.readOffset_cases s d with ⟨-, h⟩ | ⟨-, -, h⟩ | ⟨-, -, -, h⟩ <;> rw [h] <;> apply update

theorem copyMatch (s : State) : NoSearch s (State.copyMatch s) := by
  rcases State.copyMatch_cases s with ⟨-, h⟩ | ⟨-, h⟩ <;> rw [h] <;> apply update

theorem of_decoderMove (h : DecoderMove s t) : NoSearch s t := by
  cases h with
  | literals =>
    refine trans ?_ (endLiterals _)
    apply update
  | stay | fail | read | copy => apply update

theorem runDecoder (fuel : Nat) (s : State) : NoSearch s (State.runDecoder fuel s) := by
  induction fuel generalizing s with
  | zero => exact refl s
  | succ fuel ih =>
    unfold State.runDecoder
    split
    · exact refl s
    · exact (of_decoderMove s.decoderStep_move).trans (ih _)

theorem whenAt (s : State) (d : DState) {f : State → State} (hf : ∀ s, NoSearch s (f s)) :
    NoSearch s (State.whenAt s d f) := by
  unfold State.whenAt
  split
  · exact hf s
  · exact refl s

theorem extensions (s : State) (bytes : List Byte) : NoSearch s (bytes.foldl State.readExtension s) := by
  induction bytes generalizing s with
  | nil => exact refl s
  | cons b bs ih => exact (readExtension s b).trans (ih _)

theorem readLiteralPart (s : State) (lits : List Byte) (m : Nibble) : NoSearch s (State.readLiteralPart s lits m) :=
  ((readToken s _ m).trans (extensions _ _)).trans (whenAt _ _ fun t => copyLiterals t lits)

theorem readMatchSeq (s : State) (lits : List Byte) (d : BitVec 16) (mlen : Nat) :
    NoSearch s (State.readMatchSeq s lits d mlen) :=
  (((readLiteralPart s lits _).trans (whenAt _ _ fun t => readOffset t d)).trans (extensions _ _)).trans
    (whenAt _ _ copyMatch)

theorem emitSeq (s : State) (bytes : List Byte) : NoSearch s (State.emitSeq s bytes) := by
  rcases State.emitSeq_cases s bytes with ⟨-, h⟩ | ⟨-, h⟩ <;> rw [h] <;> apply update

theorem putLast (s : State) (lits : List Byte) : NoSearch s (State.putLast s lits) := by
  rcases State.putLast_cases s lits with h | ⟨k, h⟩ <;> rw [h]
  · exact emitSeq s _
  · refine (emitSeq s (encodeLast lits 0)).trans ?_
    apply update

theorem emitBlock (s : State) (block : List Byte) : NoSearch s (State.emitBlock s block) := by
  rcases State.emitBlock_cases s block with ⟨-, h⟩ | ⟨-, h⟩ <;> rw [h] <;> apply update

end NoSearch

/-- An arm that runs only where it is in place answers only what it runs. -/
theorem next_of_guarded {c : Bool} {s t : State} {r : Refusal}
    (h : (if c then .next s else .refused r : Host.Outcome State Fault Refusal) = .next t) : s = t := by
  split at h
  · exact Host.Outcome.next.inj h
  · exact nomatch h

/-- Every instruction but the two compressors is without a match finder. -/
theorem exec_noSearch {i : Instr} {s t : State} (hc : i ≠ .compress) (hhc : i ≠ .compressHc) (h : exec i s = .next t) :
    NoSearch s t := by
  cases i with
  | compress => exact absurd rfl hc
  | compressHc => exact absurd rfl hhc
  | bound =>
    obtain rfl := Host.Outcome.next.inj h
    apply NoSearch.update
  | decompress =>
    obtain rfl := Host.Outcome.next.inj h
    refine .trans ?_ (NoSearch.runDecoder _ _)
    apply NoSearch.update
  | token l m => exact next_of_guarded h ▸ .readToken s l m
  | lenextCont => exact next_of_guarded h ▸ .readExtension s _
  | lenextTerm v => exact next_of_guarded h ▸ .readExtension s v
  | offset d => exact next_of_guarded h ▸ .readOffset s d
  | literal b => exact next_of_guarded h ▸ .copyLiteral s b
  | seqMatch lits d mlen =>
    change execSeqMatch lits d mlen s = .next t at h
    unfold execSeqMatch at h
    split at h
    · exact Host.Outcome.next.inj h ▸ .emitSeq s _
    · exact next_of_guarded h ▸ .readMatchSeq s lits d mlen
  | seqLast lits mnib =>
    change execSeqLast lits mnib s = .next t at h
    unfold execSeqLast at h
    split at h
    · exact Host.Outcome.next.inj h ▸ .putLast s lits
    · exact next_of_guarded h ▸ .readLiteralPart s lits mnib

/-! ## The compressors -/

theorem State.withFast_sameOperands (s : State) (f : FastFinder) : SameOperands s (State.withFast s f) := by
  constructor <;> rfl

theorem State.withHc_sameOperands (s : State) (f : HcFinder) : SameOperands s (State.withHc s f) := by
  constructor <;> rfl

/-- The Fast compression writes no table but HT (R30). -/
theorem State.compressFast_frame (P : Config.Params) (s : State) :
    SameOperands s (State.compressFast P s) ∧ (State.compressFast P s).head = s.head ∧
      (State.compressFast P s).prev = s.prev ∧ (State.compressFast P s).nti = s.nti := by
  have h := NoSearch.emitBlock (State.withFast s (parseFast P s.srcByte s.n).2)
    (encodeBlock s.srcByte (parseFast P s.srcByte s.n).1)
  exact ⟨(s.withFast_sameOperands _).trans h.operands, h.tables.head, h.tables.prev, h.nti⟩

/-- The chained compression leaves HT (R31, R32). -/
theorem State.compressChained_frame (P : Config.Params) (s : State) :
    SameOperands s (State.compressChained P s) ∧ (State.compressChained P s).ht = s.ht := by
  have h := NoSearch.emitBlock (State.withHc s (parseHc P s.srcByte s.n (P.depth (clampLevel s.level))).2)
    (encodeBlock s.srcByte (parseHc P s.srcByte s.n (P.depth (clampLevel s.level))).1)
  exact ⟨(s.withHc_sameOperands _).trans h.operands, h.tables.ht⟩

theorem State.compressWith_frame (P : Config.Params) (s : State) :
    SameOperands s (State.compressWith P s) ∧ (State.compressWith P s).head = s.head ∧
      (State.compressWith P s).prev = s.prev ∧ (State.compressWith P s).nti = s.nti := by
  rcases State.compressWith_cases P s with ⟨-, h⟩ | ⟨-, h⟩ <;> rw [h]
  · exact ⟨s.raise_sameOperands _, rfl, rfl, rfl⟩
  · exact s.compressFast_frame P

theorem State.compressHcWith_frame (P : Config.Params) (s : State) :
    SameOperands s (State.compressHcWith P s) ∧ (State.hcBypass s = false → (State.compressHcWith P s).ht = s.ht) := by
  rcases State.compressHcWith_cases P s with ⟨-, h⟩ | ⟨-, hbypass, h⟩ | ⟨-, -, h⟩ <;> rw [h]
  · exact ⟨s.raise_sameOperands _, fun _ => rfl⟩
  · exact ⟨(s.compressFast_frame P).1, fun hsearch => by simp [hbypass] at hsearch⟩
  · exact ⟨(s.compressChained_frame P).1, fun _ => (s.compressChained_frame P).2⟩

/-- Settles O47: by the frames of the two compressors; no other instruction has a match finder. -/
theorem whatInstructionsNeverWrite : Obligations.WhatInstructionsNeverWrite := by
  intro i s t h
  by_cases hc : i = .compress
  · subst hc
    obtain rfl : State.compressWith Config.params s = t := Host.Outcome.next.inj h
    obtain ⟨hoperands, hchained⟩ := s.compressWith_frame Config.params
    exact ⟨hoperands, fun hne => absurd rfl hne, fun _ => hchained, nofun⟩
  by_cases hhc : i = .compressHc
  · subst hhc
    obtain rfl : State.compressHcWith Config.params s = t := Host.Outcome.next.inj h
    obtain ⟨hoperands, hht⟩ := s.compressHcWith_frame Config.params
    exact ⟨hoperands, fun _ hne => absurd rfl hne, nofun, fun _ => hht⟩
  · have hframe := exec_noSearch hc hhc h
    exact ⟨hframe.operands, fun _ _ => ⟨hframe.tables, hframe.nti⟩, fun h => absurd h hc, fun h => absurd h hhc⟩

end Sys2Proof.Machine

/-! # Proofs: operands, registers, START and reset (spec/30_encoding.md R71, spec/46_command_interface.md, spec/10_state.md R35) -/

namespace Sys2Proof.Machine

/-- The clamped level as an integer (R71). -/
theorem clampLevel_eq (level : Word32) : (clampLevel level : Int) = max 0 (min 16 level.toInt) :=
  Int.toNat_of_nonneg (Int.le_max_left 0 _)

/-- Settles O1: the clamp is a maximum of a minimum, and `execWith_command` answers every operation. -/
theorem commandFields : Obligations.CommandFields := by
  refine ⟨rfl, rfl, rfl, rfl, by decide, by decide, fun s => ?_⟩
  have hlevel := clampLevel_eq s.level
  refine ⟨rfl, rfl, fun _ => by omega, fun _ => by omega, fun _ _ => by omega, fun i hi => ?_⟩
  rw [← execWith_params]
  exact execWith_command Config.params i s hi

/-- Settles O48: `State.reset` field by field. -/
theorem resetState : Obligations.ResetState :=
  ⟨rfl, rfl, rfl, rfl, rfl, rfl, rfl, rfl, rfl, rfl, rfl, rfl, rfl, rfl, rfl, rfl, rfl, rfl, fun _ => ⟨rfl, rfl⟩, rfl, rfl, rfl⟩

/-- Settles O56: nothing is listed after reset, and the machine is not BUSY. -/
theorem invariantsHoldAtReset : Obligations.InvariantsHoldAtReset := by
  refine ⟨by decide, by decide, State.cursorsOk_of_not_busy nofun, nofun⟩

/-! ## The host's actions on the registers -/

theorem step_of_reset {s : State} {rest : List HostAction} (h : s.host = .reset :: rest) :
    step s = .next (State.hardReset { s with host := rest }) := by
  simp [step, stepWith, h, hostStep]

theorem step_of_writeReg {s : State} {r : CReg} {v : Word32} {rest : List HostAction} (h : s.host = .writeReg r v :: rest) :
    step s = .next (State.writeReg { s with host := rest } r v) := by
  simp [step, stepWith, h, hostStep]

theorem step_of_readReg {s : State} {r : CReg} {rest : List HostAction} (h : s.host = .readReg r :: rest) :
    step s = .next { s with host := rest, rdata := State.readReg s r } := by
  simp [step, stepWith, h, hostStep]

theorem State.readReg_hardReset (s : State) (r : CReg) : State.readReg (State.hardReset s) r = 0 := by
  cases r <;> rfl

/-- R211: START outside BUSY, by its bit 0. -/
theorem State.writeReg_start {s : State} {v : Word32} (hb : s.phase ≠ .busy) (hv : v.getLsbD 0 = true) :
    State.writeReg s .start v = State.start s := by
  rw [State.writeReg, if_neg hb]
  exact if_pos hv

theorem State.writeReg_start_zero (s : State) {v : Word32} (hv : v.getLsbD 0 = false) : State.writeReg s .start v = s := by
  unfold State.writeReg
  split
  · rfl
  · exact if_neg (Bool.eq_false_iff.1 hv)

/-- R214: a register write while BUSY is ignored. -/
theorem State.writeReg_busy {s : State} (hb : s.phase = .busy) (r : CReg) (v : Word32) : State.writeReg s r v = s := if_pos hb

/-- R21: PHASE, STATUS, COUNT and PRODUCED are read-only. -/
theorem State.writeReg_readOnly (s : State) {r : CReg} (v : Word32)
    (hr : r = .phase ∨ r = .status ∨ r = .count ∨ r = .produced) : State.writeReg s r v = s := by
  rcases hr with rfl | rfl | rfl | rfl <;> exact ite_self s

theorem State.start_sameOperands (s : State) : SameOperands s (State.start s) := by constructor <;> rfl

theorem State.start_fresh (s : State) : State.fresh (State.start s) = true := rfl

/-- The codec runs the whole operation in the step after START, when the host does not act (R212, R216). -/
theorem step_of_start {s : State} (h : s.host = []) : step (State.start s) = exec (decodeOp s.crOp) (State.start s) := by
  rw [step_of_no_host (s := State.start s) h, codecRun, if_pos ⟨rfl, s.start_fresh⟩, execWith_params]
  rfl

/-- Settles O49: the hardware reset is `State.hardReset`, which draws every byte of both spaces anew. -/
theorem resetWhileBusy : Obligations.ResetWhileBusy := by
  intro s rest h
  have hcap : s.cap < addressCount := s.dstCap.isLt
  have hdst : ∀ x, x < addressCount → (State.hardReset { s with host := rest }).dstByte x =
      Config.freeDstByte (s.dst.draws.length + 1) x := fun x hx => Memory.read_forget_low _ s.dst hx
  have hsrc : ∀ x, x < addressCount → (State.hardReset { s with host := rest }).srcByte x =
      Config.freeSrcByte (s.src.draws.length + 1) x := fun x hx => Memory.read_forget_low _ s.src hx
  exact ⟨_, step_of_reset h, rfl, rfl, rfl, rfl, rfl, rfl, rfl, rfl, State.readReg_hardReset _, rfl, rfl, rfl, rfl, rfl, rfl,
    rfl, rfl, rfl, rfl, rfl, rfl, fun x hx => hdst x (hx.trans hcap), fun x hx => ⟨hdst x hx, hsrc x hx⟩⟩

/-- Settles O50: the write is `State.start` in the one case and nothing in the others; the codec then finds the operation fresh. -/
theorem startRunsTheSelectedOperation : Obligations.StartRunsTheSelectedOperation := by
  refine ⟨fun s v rest h => ⟨fun hb hv => ?_, fun hv => ?_⟩, fun s r v rest hb h => ?_, fun s r v rest hr h => ?_, ?_⟩
  · refine ⟨State.start { s with host := rest }, ?_, rfl, rfl, rfl, rfl, rfl, rfl, rfl, rfl, rfl, rfl, rfl, rfl, rfl, rfl, rfl,
      rfl, rfl, State.start_sameOperands _, rfl, fun hrest => step_of_start hrest⟩
    rw [step_of_writeReg h, State.writeReg_start (s := { s with host := rest }) hb hv]
  · rw [step_of_writeReg h, State.writeReg_start_zero _ hv]
  · rw [step_of_writeReg h, State.writeReg_busy (s := { s with host := rest }) hb]
  · rw [step_of_writeReg h, State.writeReg_readOnly _ v hr]
  · exact ⟨_, rfl, ⟨rfl, by decide, by decide, rfl⟩⟩

/-- A register outside BUSY reads as last written, OP by its low two bits (R21, R215). -/
theorem State.readReg_writeReg {s : State} (v : Word32) (hb : s.phase ≠ .busy) :
    State.readReg (State.writeReg s .srcLen v) .srcLen = v ∧ State.readReg (State.writeReg s .dstCap v) .dstCap = v ∧
      State.readReg (State.writeReg s .level v) .level = v ∧
      (State.readReg (State.writeReg s .op v) .op).toNat = v.toNat % 4 := by
  have hop : ((v.setWidth 2).setWidth 32).toNat = v.toNat % 4 := by
    rw [BitVec.toNat_setWidth, BitVec.toNat_setWidth]
    omega
  simp [State.writeReg, hb, State.readReg, hop]

/-- Settles O51: the step of a read, the code of each phase and result kind, and the read after a write. -/
theorem registerReads : Obligations.RegisterReads := by
  refine ⟨fun s r rest h => step_of_readReg h, fun s => ?_, fun s hs hb => ?_, fun s v hb => State.readReg_writeReg v hb⟩
  · have hop : (s.crOp.setWidth 32).toNat = s.crOp.toNat := by
      rw [BitVec.toNat_setWidth]
      omega
    refine ⟨rfl, hop, rfl, rfl, rfl, ?_, ?_, ?_, ?_, ?_, ?_, ?_, ?_, ?_, rfl, rfl⟩ <;>
      intro h <;> rw [State.readReg, h] <;> rfl
  · obtain ⟨-, hbusy⟩ := hs
    obtain ⟨hstatus, hcount, hproduced⟩ := hbusy hb
    exact ⟨by rw [State.readReg, hstatus]; rfl, hcount, hproduced⟩

end Sys2Proof.Machine

/-! # Proofs: the bytes of an offset (spec/20_memory.md R52) -/

namespace Sys2Proof

theorem le16_toNat (b0 b1 : Byte) : (le16 b0 b1).toNat = b0.toNat + 256 * b1.toNat := by
  have := b0.isLt
  have := b1.isLt
  simp only [le16, BitVec.toNat_ofNat]
  omega

theorem lowByte_toNat (d : BitVec 16) : (lowByte d).toNat = d.toNat % 256 := by
  simp only [lowByte, BitVec.toNat_ofNat]
  omega

theorem highByte_toNat (d : BitVec 16) : (highByte d).toNat = d.toNat / 256 := by
  have := d.isLt
  simp only [highByte, BitVec.toNat_ofNat]
  omega

/-- Settles O3: the value of two bytes by `le16_toNat`; reading back by `le16_lowByte_highByte`. -/
theorem offsetIsLittleEndian : Obligations.OffsetIsLittleEndian :=
  ⟨fun b0 b1 => ⟨le16_toNat b0 b1, fun _ => rfl⟩,
    fun d => ⟨lowByte_toNat d, highByte_toNat d, le16_lowByte_highByte d, rfl⟩⟩

end Sys2Proof

/-! # Proofs: every step of the decoder keeps its invariant and comes nearer to its end (spec/45_block_decoder.md R180 to R195) -/

namespace Sys2Proof.Machine

variable {s t : State}

/-! ## The bytes written so far (R58) -/

/-- Every byte below `n` holds a value of its own. -/
def Memory.WrittenBelow (m : Memory) (n : Nat) : Prop := ∀ a, a < n → (Table.get m.cells a).isSome

theorem Memory.writtenBelow_zero (m : Memory) : Memory.WrittenBelow m 0 := fun _ ha => absurd ha (Nat.not_lt_zero _)

theorem Memory.WrittenBelow.write {m : Memory} {n : Nat} (h : Memory.WrittenBelow m n) (a : Nat) (b : Byte) :
    Memory.WrittenBelow (Memory.write m a b) n := by
  intro x hx
  rw [Memory.write, Table.get_set]
  split
  · rfl
  · exact h x hx

/-- Writing the next byte moves the limit up by one. -/
theorem Memory.WrittenBelow.write_next {m : Memory} {n : Nat} (h : Memory.WrittenBelow m n) (b : Byte) :
    Memory.WrittenBelow (Memory.write m n b) (n + 1) := by
  intro x hx
  rw [Memory.write, Table.get_set]
  split
  · rfl
  · exact h x (by omega)

theorem Memory.WrittenBelow.writeList {m : Memory} {n : Nat} (h : Memory.WrittenBelow m n) (bytes : List Byte) :
    Memory.WrittenBelow (Memory.writeList m n bytes) (n + bytes.length) := by
  induction bytes generalizing m n with
  | nil => exact h
  | cons b bs ih =>
    have hrest := ih (h.write_next b)
    rwa [Nat.add_right_comm, Nat.add_assoc] at hrest

theorem Memory.WrittenBelow.copySerial {m : Memory} {n : Nat} (h : Memory.WrittenBelow m n) (free : Nat → Nat → Byte)
    (off k : Nat) : Memory.WrittenBelow (Memory.copySerial free m n off k) (n + k) := by
  induction k with
  | zero => exact h
  | succ k ih => exact ih.write_next _

/-! ## The operation of each state, with or without input left -/

theorem decoderStep_eq_readToken (hd : s.dstate = .readToken) :
    State.decoderStep s = State.readToken s (tokenLit (s.srcByte s.ip)) (tokenMatch (s.srcByte s.ip)) := by
  by_cases hip : s.n ≤ s.ip
  · simp [State.decoderStep, State.fetchWire, hd, hip, State.readToken]
  · simp [State.decoderStep, State.fetchWire, hd, hip, decodeToken, State.wireEffect]

theorem decoderStep_eq_readExtension (hd : s.dstate = .readLiteralExtension ∨ s.dstate = .readMatchExtension) :
    State.decoderStep s = State.readExtension s (s.srcByte s.ip) := by
  by_cases hip : s.n ≤ s.ip
  · rcases hd with hd | hd <;> simp [State.decoderStep, State.fetchWire, hd, hip, State.readExtension]
  · exact decoderStep_extension hd (Nat.not_le.1 hip)

theorem decoderStep_eq_readOffset (hd : s.dstate = .readOffset) :
    State.decoderStep s = State.readOffset s (le16 (s.srcByte s.ip) (s.srcByte (s.ip + 1))) := by
  by_cases hip : s.n - s.ip < 2
  · simp [State.decoderStep, State.fetchWire, hd, hip, State.readOffset]
  · exact decoderStep_readOffset hd (by omega)

/-! ## The invariant of a running decoder -/

theorem DState.terminal_ite {c : Prop} [Decidable c] {d e : DState} (hd : d.terminal = false) (he : e.terminal = false) :
    (if c then d else e).terminal = false := by
  split
  · exact hd
  · exact he

/-- What `State.DecoderOk` asks of the decoder while DECOMPRESS runs, said of any state. -/
structure State.Decoding (s : State) : Prop where
  live : s.dstate.terminal = false
  offset : s.dstate.hasOffset = true → 1 ≤ s.offset.toNat ∧ s.offset.toNat ≤ s.op
  litlen : s.litlen ≤ 15 + 255 * s.ip
  mlen : s.mlen ≤ 19 + 255 * s.ip
  written : Memory.WrittenBelow s.dst s.op

theorem State.decoderOk_iff : State.DecoderOk s ↔ (s.phase = .busy → s.crOp = 3 → State.Decoding s) :=
  ⟨fun h hb hop => let ⟨h1, h2, h3, h4, h5⟩ := h hb hop; ⟨h1, h2, h3, h4, h5⟩,
    fun h hb hop => let ⟨h1, h2, h3, h4, h5⟩ := h hb hop; ⟨h1, h2, h3, h4, h5⟩⟩

theorem State.enterDecoder_decoding (s : State) : State.Decoding (State.enterDecoder s) :=
  ⟨rfl, nofun, Nat.zero_le _, Nat.zero_le _, Memory.writtenBelow_zero _⟩

theorem State.start_decoding (s : State) : State.Decoding (State.start s) :=
  ⟨rfl, nofun, Nat.zero_le _, Nat.zero_le _, Memory.writtenBelow_zero _⟩

/-- The two states whose step may use no input. -/
def DState.idleSteps : DState → Nat
  | .copyLiterals => 1
  | .copyMatch => 1
  | .readToken => 0
  | .readLiteralExtension => 0
  | .readOffset => 0
  | .readMatchExtension => 0
  | .done => 0
  | .failed => 0

/-- What every step of the decoder that does not end it makes smaller (R192). -/
def State.stepsLeft (s : State) : Nat := 2 * (s.n - s.ip) + s.dstate.idleSteps

/-- A step from `s` ends the operation and the decoder, or goes on nearer to the end. -/
def State.Advances (s t : State) : Prop :=
  t.phase = .done ∧ t.dstate.terminal = true ∨ State.Decoding t ∧ State.stepsLeft t < State.stepsLeft s

theorem DState.idleSteps_le (d : DState) : d.idleSteps ≤ 1 := by cases d <;> decide

/-- Using up input makes up for the state that follows. -/
theorem State.stepsLeft_lt {ip : Nat} (hfrom : s.ip < ip) (hto : ip ≤ s.n) (hip : t.ip = ip) (hn : t.n = s.n) :
    State.stepsLeft t < State.stepsLeft s := by
  have := t.dstate.idleSteps_le
  unfold State.stepsLeft
  omega

theorem State.failDecode_advances (s u : State) (kind : ResultKind) : State.Advances s (State.failDecode u kind) :=
  .inl ⟨rfl, rfl⟩

theorem State.Decoding.readToken (hs : State.Decoding s) (l m : Nibble) : State.Advances s (State.readToken s l m) := by
  have ⟨_, _, _, hmlen, hwritten⟩ := hs
  have hl := l.isLt
  rcases State.readToken_cases s l m with ⟨-, h⟩ | ⟨hip, h⟩ <;> rw [h]
  · exact State.failDecode_advances s _ _
  · refine .inr ⟨⟨DState.terminal_ite rfl rfl, ?_, ?_, ?_, hwritten⟩, State.stepsLeft_lt (Nat.lt_succ_self _) hip rfl rfl⟩
    · dsimp only
      split <;> exact nofun
    · show l.toNat ≤ 15 + 255 * (s.ip + 1)
      omega
    · show s.mlen ≤ 19 + 255 * (s.ip + 1)
      omega

theorem State.Decoding.readExtension (hs : State.Decoding s) (b : Byte)
    (hd : s.dstate = .readLiteralExtension ∨ s.dstate = .readMatchExtension) :
    State.Advances s (State.readExtension s b) := by
  have ⟨_, hoffset, hlitlen, hmlen, hwritten⟩ := hs
  have hb := b.isLt
  rcases State.readExtension_cases s b with ⟨-, hip, h⟩ | ⟨hmatch, hip, h⟩ | ⟨-, -, h⟩ | ⟨h1, h2, -⟩
  · rw [h]
    refine .inr ⟨⟨DState.terminal_ite rfl rfl, ?_, ?_, ?_, hwritten⟩, State.stepsLeft_lt (Nat.lt_succ_self _) hip rfl rfl⟩
    · dsimp only
      split <;> exact nofun
    · show s.litlen + b.toNat ≤ 15 + 255 * (s.ip + 1)
      omega
    · show s.mlen ≤ 19 + 255 * (s.ip + 1)
      omega
  · rw [h]
    refine .inr ⟨⟨DState.terminal_ite rfl rfl, fun _ => hoffset (by rw [hmatch]; rfl), ?_, ?_, hwritten⟩,
      State.stepsLeft_lt (Nat.lt_succ_self _) hip rfl rfl⟩
    · show s.litlen ≤ 15 + 255 * (s.ip + 1)
      omega
    · show s.mlen + b.toNat ≤ 19 + 255 * (s.ip + 1)
      omega
  · rw [h]
    exact State.failDecode_advances s _ _
  · exact absurd hd (not_or.2 ⟨h1, h2⟩)

theorem State.Decoding.copyLiterals (hs : State.Decoding s) {lits : List Byte} (hlen : lits.length = s.litlen)
    (hd : s.dstate = .copyLiterals) : State.Advances s (State.copyLiterals s lits) := by
  have ⟨_, _, hlitlen, hmlen, hwritten⟩ := hs
  rcases State.copyLiterals_cases s lits with ⟨-, h⟩ | ⟨-, -, h⟩ | ⟨-, -, h⟩ <;> rw [h]
  · exact State.failDecode_advances s _ _
  · exact State.failDecode_advances s _ _
  · rcases State.endLiterals_cases _ with ⟨-, h'⟩ | ⟨-, h'⟩ <;> rw [h']
    · exact .inl ⟨rfl, rfl⟩
    · refine .inr ⟨⟨rfl, nofun, ?_, ?_, hlen ▸ hwritten.writeList lits⟩, ?_⟩
      · show s.litlen ≤ 15 + 255 * (s.ip + s.litlen)
        omega
      · show s.mlen ≤ 19 + 255 * (s.ip + s.litlen)
        omega
      · show 2 * (s.n - (s.ip + s.litlen)) + 0 < 2 * (s.n - s.ip) + s.dstate.idleSteps
        rw [hd]
        show 2 * (s.n - (s.ip + s.litlen)) + 0 < 2 * (s.n - s.ip) + 1
        omega

theorem State.Decoding.readOffset (hs : State.Decoding s) (d : BitVec 16) : State.Advances s (State.readOffset s d) := by
  have ⟨_, _, hlitlen, _, hwritten⟩ := hs
  have hm := s.mnib.isLt
  rcases State.readOffset_cases s d with ⟨-, h⟩ | ⟨-, -, h⟩ | ⟨htwo, hzero, hle, h⟩ <;> rw [h]
  · exact State.failDecode_advances s _ _
  · exact State.failDecode_advances s _ _
  · have hpos : 1 ≤ d.toNat := Nat.one_le_iff_ne_zero.2 fun h0 => hzero (BitVec.eq_of_toNat_eq h0)
    refine .inr ⟨⟨DState.terminal_ite rfl rfl, fun _ => ⟨hpos, hle⟩, ?_, ?_, hwritten⟩,
      State.stepsLeft_lt (ip := s.ip + 2) (by omega) (by omega) rfl rfl⟩
    · show s.litlen ≤ 15 + 255 * (s.ip + 2)
      omega
    · show s.mnib.toNat + 4 ≤ 19 + 255 * (s.ip + 2)
      omega

theorem State.Decoding.copyMatch (hs : State.Decoding s) (hd : s.dstate = .copyMatch) :
    State.Advances s (State.copyMatch s) := by
  have ⟨_, _, hlitlen, hmlen, hwritten⟩ := hs
  rcases State.copyMatch_cases s with ⟨-, h⟩ | ⟨-, h⟩ <;> rw [h]
  · exact State.failDecode_advances s _ _
  · refine .inr ⟨⟨rfl, nofun, hlitlen, hmlen, hwritten.copySerial _ _ _⟩, ?_⟩
    show 2 * (s.n - s.ip) + 0 < 2 * (s.n - s.ip) + s.dstate.idleSteps
    rw [hd]
    exact Nat.lt_succ_self _

/-- Every step of a running decoder keeps the invariant or ends the operation (R58, R186, R191, R192, R195). -/
theorem State.Decoding.decoderStep (hs : State.Decoding s) : State.Advances s (State.decoderStep s) := by
  cases hd : s.dstate with
  | readToken => exact decoderStep_eq_readToken hd ▸ hs.readToken _ _
  | readLiteralExtension => exact decoderStep_eq_readExtension (.inl hd) ▸ hs.readExtension _ (.inl hd)
  | readMatchExtension => exact decoderStep_eq_readExtension (.inr hd) ▸ hs.readExtension _ (.inr hd)
  | copyLiterals => exact decoderStep_copyLiterals hd ▸ hs.copyLiterals (slice_length _ _ _) hd
  | readOffset => exact decoderStep_eq_readOffset hd ▸ hs.readOffset _
  | copyMatch => exact decoderStep_copyMatch hd ▸ hs.copyMatch hd
  | done | failed => exact nomatch (congrArg DState.terminal hd).symm.trans hs.live

/-! ## Every step keeps the decoder's invariant -/

/-- A step of the decoder starts no operation. -/
theorem DecoderMove.busy (h : DecoderMove s t) (hb : t.phase = .busy) : s.phase = .busy := by
  cases h with
  | stay | read | copy => exact hb
  | fail => exact nomatch hb
  | literals =>
    rcases State.endLiterals_cases _ with ⟨-, h⟩ | ⟨-, h⟩ <;> rw [h] at hb
    · exact nomatch hb
    · exact hb

theorem State.DecoderOk.decoderStep (hs : State.DecoderOk s) : State.DecoderOk (State.decoderStep s) := by
  refine State.decoderOk_iff.2 fun hb hop => ?_
  have hmove := s.decoderStep_move
  have hsop : s.crOp = 3 := (NoSearch.of_decoderMove hmove).operands.crOp ▸ hop
  rcases (State.decoderOk_iff.1 hs (hmove.busy hb) hsop).decoderStep with ⟨hdone, -⟩ | ⟨hrun, -⟩
  · exact nomatch hb.symm.trans hdone
  · exact hrun

theorem State.decoderOk_of_not_busy (h : s.phase ≠ .busy) : State.DecoderOk s := fun hb => absurd hb h

theorem State.decoderOk_of_compressor (h : s.crOp = 1 ∨ s.crOp = 2) : State.DecoderOk s := by
  intro _ hop
  rcases h with h | h <;> simp [hop] at h

theorem State.crOp_of_encoding (h : State.encoding s = true) : s.crOp = 1 ∨ s.crOp = 2 := by
  simp only [State.encoding, Bool.and_eq_true, Bool.or_eq_true, beq_iff_eq] at h
  exact h.2

/-- R58, R186, R191, R195, for any parameters. -/
theorem decoderOk_keptByParts (P : Config.Params) : KeptByParts P State.DecoderOk where
  hostFields _ _ _ _ hs := hs
  writeOperand _ _ _ _ _ hb _ := State.decoderOk_of_not_busy hb
  start s _ _ := State.decoderOk_iff.2 fun _ _ => s.start_decoding
  writeSrc _ _ _ hs := hs
  writeDst _ a b hs := State.decoderOk_iff.2 fun hb hop =>
    let hrun := State.decoderOk_iff.1 hs hb hop
    { hrun with written := hrun.written.write a.toNat b }
  hardReset _ _ := State.decoderOk_of_not_busy nofun
  raise _ _ _ := State.decoderOk_of_not_busy nofun
  finish _ _ _ _ := State.decoderOk_of_not_busy nofun
  emitSeq s bytes henc _ := State.decoderOk_of_compressor
    ((NoSearch.emitSeq s bytes).operands.crOp ▸ State.crOp_of_encoding henc)
  nextSequence s _ hop _ := by
    rcases State.nextSequence_cases P s with ⟨q, h⟩ | ⟨q, h⟩ <;> rw [h]
    · exact State.decoderOk_of_compressor hop
    · exact State.decoderOk_of_compressor hop
  compressFast _ _ := State.decoderOk_of_not_busy (by simp [State.compressFast, State.emitBlock_phase])
  compressChained _ _ := State.decoderOk_of_not_busy (by simp [State.compressChained, State.emitBlock_phase])
  enterDecoder s _ _ := State.decoderOk_iff.2 fun _ _ => s.enterDecoder_decoding
  decoderStep _ hs := hs.decoderStep

/-- Settles O60: `State.Decoding.decoderStep` for the decoder; no other part of a step leaves DECOMPRESS running with other
working registers than START's. -/
theorem decoderInvariantIsKept : Obligations.DecoderInvariantIsKept :=
  fun _ _ hs h => (decoderOk_keptByParts Config.params).stepWith hs h

/-! # Proofs: where a step stops (spec/70_reset_and_hazards.md R265, R266, spec/20_memory.md R50, R57) -/

/-! ## The codec's moves -/

/-- The two states outside `State.DecoderOk` in which the decoder has no step (log entry 14). -/
def State.Stuck (s : State) : Prop :=
  s.phase = .busy ∧ s.crOp = 3 ∧ (s.dstate.terminal = true ∨ s.dstate = .copyMatch ∧ s.op < s.offset.toNat)

theorem State.DecoderOk.not_stuck (hs : State.DecoderOk s) : ¬ State.Stuck s := by
  rintro ⟨hb, hop, hstop⟩
  have hrun := State.decoderOk_iff.1 hs hb hop
  rcases hstop with hterm | ⟨hd, hlt⟩
  · exact Bool.false_ne_true (hrun.live.symm.trans hterm)
  · exact absurd (hrun.offset (by rw [hd]; rfl)).2 (Nat.not_le.2 hlt)

/-- The decoder state of the two fetches that are no element, no literal run and no lack of input. -/
theorem State.fetchWire_stop (s : State) : (State.fetchWire s = .matchCopy → s.dstate = .copyMatch) ∧
    (State.fetchWire s = .ended → s.dstate.terminal = true) := by
  unfold State.fetchWire
  cases s.dstate with
  | readToken | readLiteralExtension | readOffset | readMatchExtension =>
    dsimp only
    split <;> exact ⟨nofun, nofun⟩
  | copyLiterals => exact ⟨nofun, nofun⟩
  | copyMatch => exact ⟨fun _ => rfl, nofun⟩
  | done | failed => exact ⟨nofun, fun _ => rfl⟩

/-- A move of the codec from `s` answers a next state, or `s` is one of the two stuck states and it is a fault. -/
def MovesOrStuck (s : State) (o : Host.Outcome State Fault Refusal) : Prop :=
  (∃ t, o = .next t) ∨ State.Stuck s ∧ ∃ r, o = .fault r

theorem decompressTick_moves (hb : s.phase = .busy) (hop : s.crOp = 3) : MovesOrStuck s (decompressTick s) := by
  obtain ⟨hcopy, hended⟩ := s.fetchWire_stop
  unfold decompressTick
  cases hf : State.fetchWire s with
  | element i => exact .inl ⟨_, exec_of_fetchWire hb hop hf⟩
  | literals | noInput => exact .inl ⟨_, rfl⟩
  | matchCopy =>
    dsimp only
    split
    · next hlt => exact .inr ⟨⟨hb, hop, .inr ⟨hcopy hf, hlt⟩⟩, _, rfl⟩
    · exact .inl ⟨_, rfl⟩
  | ended => exact .inr ⟨⟨hb, hop, .inl (hended hf)⟩, _, rfl⟩

theorem codecTick_moves (P : Config.Params) (s : State) : MovesOrStuck s (codecTick P s) := by
  rcases codecTick_cases P s with ⟨-, h⟩ | ⟨-, -, h⟩ | ⟨hb, hop, h⟩ | ⟨hb, hop, h⟩ <;> rw [h]
  · exact .inl ⟨_, rfl⟩
  · exact .inl ⟨_, rfl⟩
  · exact decompressTick_moves hb hop
  · rcases compressTick_cases (P := P) hb hop with h | ⟨-, ⟨lits, d, m, h⟩ | ⟨lits, h⟩⟩ <;> exact .inl ⟨_, h⟩

theorem codecRun_moves (P : Config.Params) (s : State) : MovesOrStuck s (codecRun P s) := by
  rcases codecRun_cases P s with ⟨-, -, h⟩ | h <;> rw [h]
  · have hcommand : ∀ op, isCommand (decodeOp op) = true := by decide
    exact .inl (execWith_command P _ s (hcommand s.crOp))
  · exact codecTick_moves P s

/-! ## A step -/

theorem step_of_writeSrc {a : Word32} {b : Byte} {rest : List HostAction} (h : s.host = .writeSrc a b :: rest) :
    step s = hostWriteSrc { s with host := rest } a b := by
  simp [step, stepWith, h, hostStep]

theorem step_of_writeDst {a : Word32} {b : Byte} {rest : List HostAction} (h : s.host = .writeDst a b :: rest) :
    step s = hostWriteDst { s with host := rest } a b := by
  simp [step, stepWith, h, hostStep]

theorem step_of_readDst {a : Word32} {rest : List HostAction} (h : s.host = .readDst a :: rest) :
    step s = .next (State.hostReadDst { s with host := rest } a) := by
  simp [step, stepWith, h, hostStep]

/-- The host is about to write a byte of a buffer that a running operation uses; `r` names the buffer (R265, R266, I10). -/
def State.BufferWriteDue (s : State) (r : Refusal) : Prop :=
  s.phase = .busy ∧
    ((r = .srcWriteWhileBusy ∧ ∃ a b rest, s.host = .writeSrc a b :: rest ∧ a.toNat < s.n) ∨
     (r = .dstWriteWhileBusy ∧ ∃ a b rest, s.host = .writeDst a b :: rest ∧ a.toNat < s.cap))

/-- Every step is a move of the codec or the host, or a buffer write while BUSY, which is refused. -/
theorem step_outcome (s : State) :
    MovesOrStuck s (step s) ∨ ∃ r, step s = .refused r ∧ State.BufferWriteDue s r := by
  rcases step_cases s with ⟨-, h⟩ | ⟨a, rest, hhost, h⟩ <;> rw [h]
  · exact .inl (codecRun_moves _ s)
  cases a with
  | writeReg | readReg | readDst | reset => exact .inl (.inl ⟨_, rfl⟩)
  | writeSrc a b =>
    rcases hostWriteSrc_cases { s with host := rest } a b with ⟨hb, hlt, h⟩ | ⟨-, h⟩
    · exact .inr ⟨_, h, hb, .inl ⟨rfl, a, b, rest, hhost, hlt⟩⟩
    · exact .inl (.inl ⟨_, h⟩)
  | writeDst a b =>
    rcases hostWriteDst_cases { s with host := rest } a b with ⟨hb, hlt, h⟩ | ⟨-, h⟩
    · exact .inr ⟨_, h, hb, .inr ⟨rfl, a, b, rest, hhost, hlt⟩⟩
    · exact .inl (.inl ⟨_, h⟩)
  | await =>
    left
    change MovesOrStuck s (hostAwait Config.params s rest)
    unfold hostAwait
    split
    · exact codecRun_moves _ s
    · exact .inl ⟨_, rfl⟩
  | tick => exact .inl (codecTick_moves Config.params { s with host := rest })

theorem step_refused_iff (s : State) (r : Refusal) : step s = .refused r ↔ State.BufferWriteDue s r := by
  constructor
  · intro h
    rcases step_outcome s with (⟨t, h'⟩ | ⟨-, f, h'⟩) | ⟨r', h', hdue⟩ <;> rw [h] at h'
    · exact nomatch h'
    · exact nomatch h'
    · exact Host.Outcome.refused.inj h' ▸ hdue
  · rintro ⟨hb, ⟨rfl, a, b, rest, hhost, hlt⟩ | ⟨rfl, a, b, rest, hhost, hlt⟩⟩
    · rw [step_of_writeSrc hhost]
      exact if_pos ⟨hb, hlt⟩
    · rw [step_of_writeDst hhost]
      exact if_pos ⟨hb, hlt⟩

/-- Settles O54: the codec faults in the stuck states only, and the host's actions never do. -/
theorem noFaultInSafeStates : Obligations.NoFaultInSafeStates := by
  intro s r hs h
  rcases step_outcome s with (⟨t, h'⟩ | ⟨hstuck, -⟩) | ⟨r', h', -⟩
  · exact nomatch h.symm.trans h'
  · exact hs.not_stuck hstuck
  · exact nomatch h.symm.trans h'

/-- Settles O53: each access by its own step, and `step_refused_iff`. -/
theorem onlyHostWritesAreRefused : Obligations.OnlyHostWritesAreRefused := by
  refine ⟨fun s a b rest hhost hfree => ?_, fun s a b rest hhost hfree => ?_,
    fun s a rest hhost => ⟨fun hfree => ?_, fun hb hlt => ?_⟩, step_refused_iff⟩
  · refine ⟨_, (step_of_writeSrc hhost).trans (if_neg hfree), ?_, fun x hx => ?_, rfl⟩
    · exact Memory.read_write_same _ _ _ _
    · exact Memory.read_write_other _ _ _ hx
  · refine ⟨_, (step_of_writeDst hhost).trans (if_neg hfree), ?_, fun x hx => ?_, rfl⟩
    · exact Memory.read_write_same _ _ _ _
    · exact Memory.read_write_other _ _ _ hx
  · exact (step_of_readDst hhost).trans (congrArg Host.Outcome.next (if_neg hfree))
  · exact (step_of_readDst hhost).trans (congrArg Host.Outcome.next (if_pos ⟨hb, hlt⟩))

end Sys2Proof.Machine

/-! # Proofs: the match finders read the input only (spec/20_memory.md R60, spec/41_fast_compress.md, spec/44_hc_compress.md) -/

namespace Sys2Proof.Machine

/-- Scans that agree on the finders a parse can meet give the same parse. -/
theorem parseWith_congr {src : Nat → Byte} {n : Nat} {F : Type} {scan scan' : F → Option SeqDesc × F} {anchor : F → Nat}
    {Ok : F → Prop} (hscan : ∀ f, Ok f → scan' f = scan f)
    (hres : ∀ f, Ok f → ScanResult src n anchor Ok (anchor f) (scan f)) (fuel : Nat) {f : F} (hf : Ok f) :
    parseWith scan' anchor n fuel f = parseWith scan anchor n fuel f := by
  induction fuel generalizing f with
  | zero => rfl
  | succ fuel ih =>
    have hf' := hres f hf
    unfold parseWith
    rw [hscan f hf]
    split
    · next heq =>
      rw [heq] at hf'
      rw [ih hf'.1]
    · rfl

section

variable {P : Config.Params} {src src' : Nat → Byte} {n : Nat} (hsrc : ∀ x, x < n → src' x = src x)

include hsrc

/-! ## The bytes a candidate is judged by -/

theorem word4_congr {p : Nat} (h : p + 3 < n) : word4 src' p = word4 src p := by
  unfold word4
  rw [hsrc p (by omega), hsrc (p + 1) (by omega), hsrc (p + 2) (by omega), hsrc (p + 3) h]

theorem hash_congr (log : Nat) {p : Nat} (h : p + 3 < n) : hash P src' p log = hash P src p log := by
  unfold hash
  rw [word4_congr hsrc h]

theorem backlen_congr {q ip : Nat} (anchor : Nat) (hq : q ≤ ip) (hip : ip ≤ n) :
    backlen src' q ip anchor = backlen src q ip anchor := by
  induction q generalizing ip with
  | zero => rfl
  | succ q ih => rw [backlen, backlen, hsrc (ip - 1) (by omega), hsrc q (by omega), ih (by omega) (by omega)]

theorem fwdLen_congr {q ip : Nat} (hq : q ≤ ip) (hip : ip + 12 < n) : fwdLen src' n q ip = fwdLen src n q ip := by
  have hlim : ip + 4 + (n - 5 - (ip + 4)) ≤ n := by omega
  have hrun : common src' (q + 4) (ip + 4) (n - 5) = common src (q + 4) (ip + 4) (n - 5) :=
    equalRun_congr (Nat.add_le_add_right hq 4) fun x hx => hsrc x (Nat.lt_of_lt_of_le hx hlim)
  exact congrArg (4 + ·) hrun

/-! ## The Fast parse -/

theorem insertFast_congr (ht : Table Nat) {p : Nat} (h : p + 3 < n) : insertFast P src' ht p = insertFast P src ht p := by
  unfold insertFast
  rw [hash_congr hsrc _ h]

theorem insertRun_congr (ht : Table Nat) {k p : Nat} (h : p + k + 3 ≤ n) :
    insertRun P src' k ht p = insertRun P src k ht p := by
  induction k generalizing ht p with
  | zero => rfl
  | succ k ih => rw [insertRun, insertRun, insertFast_congr hsrc ht (by omega), ih _ (by omega)]

theorem validCand_congr {q ip : Nat} (hq : q < ip) (hip : ip + 12 < n) : validCand src' q ip = validCand src q ip := by
  unfold validCand
  rw [word4_congr hsrc (p := q) (by omega), word4_congr hsrc (p := ip) (by omega)]

theorem fastCand_congr {f : FastFinder} (hf : FastFinder.Ok n f) (hip : f.ip + 12 < n) :
    fastCand P src' f = fastCand P src f := by
  unfold fastCand lookupFast
  rw [hash_congr hsrc _ (by omega)]
  cases hq : Table.get f.ht (hash P src f.ip P.fastHashLog) with
  | none => rfl
  | some q =>
    dsimp only
    rw [validCand_congr hsrc (hf.below _ q hq) hip]

theorem fastTake_congr {f : FastFinder} {q : Nat} (hq : q < f.ip) (hip : f.ip + 12 < n) :
    fastTake P src' n f q = fastTake P src n f q := by
  have hend := add_fwdLen_le (src := src) q hip
  unfold fastTake
  dsimp only
  rw [backlen_congr hsrc _ (Nat.le_of_lt hq) (by omega), fwdLen_congr hsrc (Nat.le_of_lt hq) hip,
    insertRun_congr hsrc _ (by omega)]

theorem fastScan_congr (fuel : Nat) {f : FastFinder} (hf : FastFinder.Ok n f) :
    fastScan P src' n fuel f = fastScan P src n fuel f := by
  induction fuel generalizing f with
  | zero => rfl
  | succ fuel ih =>
    unfold fastScan
    split
    · next hip =>
      rw [fastCand_congr hsrc hf hip]
      split
      · next q hq =>
        obtain ⟨hlook, -⟩ := fastCand_some hq
        rw [fastTake_congr hsrc (hf.below _ q hlook) hip]
      · have hin : f.ip + 12 < n := hip
        rw [insertFast_congr hsrc _ (by omega), ih (hf.advance hip)]
    · rfl

/-- The Fast parse depends on the input bytes only. -/
theorem parseFast_congr : parseFast P src' n = parseFast P src n :=
  parseWith_congr (fun _ hf => fastScan_congr hsrc _ hf) (fun _ hf => fastScan_result _ hf) _ (FastFinder.init_ok n)

/-! ## The HC parse -/

theorem insertHc_congr (c : Chains) {p : Nat} (h : p + 3 < n) : insertHc P src' c p = insertHc P src c p := by
  unfold insertHc hcHash
  rw [hash_congr hsrc _ h]

theorem insertNext_congr {k : Nat} {c : Chains} (h : c.nti + k + 3 ≤ n) : insertNext P src' k c = insertNext P src k c := by
  induction k generalizing c with
  | zero => rfl
  | succ k ih =>
    rw [insertNext, insertNext, insertHc_congr hsrc c (by omega), ih (by show c.nti + 1 + k + 3 ≤ n; omega)]

theorem candidate_congr {cp q : Nat} (anchor : Nat) (hlt : cp < q) (hq : q + 12 < n) :
    candidate src' n q anchor cp = candidate src n q anchor cp := by
  unfold candidate
  rw [word4_congr hsrc (p := cp) (by omega), word4_congr hsrc (p := q) (by omega),
    backlen_congr hsrc _ (Nat.le_of_lt hlt) (by omega), fwdLen_congr hsrc (Nat.le_of_lt hlt) hq]

theorem walk_congr {q : Nat} (anchor : Nat) {prev : Table Nat} (hprev : Table.Below prev q) (hq : q + 12 < n) (depth : Nat)
    {cand : Option Nat} (hcand : ∀ cp, cand = some cp → cp < q) (best : Option Found) :
    walk P src' n q anchor prev depth cand best = walk P src n q anchor prev depth cand best := by
  induction depth generalizing cand best with
  | zero => rfl
  | succ depth ih =>
    cases cand with
    | none => rfl
    | some cp => rw [walk, walk, candidate_congr hsrc anchor (hcand cp rfl) hq, ih (fun p hp => hprev _ p hp)]

theorem find_congr {depth q : Nat} (anchor : Nat) {c : Chains} (hc : Chains.Ok c) (hle : c.nti ≤ q) (hq : q + 12 < n) :
    find P src' n depth c q anchor = find P src n depth c q anchor := by
  have hinsert : insertUpto P src' c q = insertUpto P src c q := insertNext_congr hsrc (by omega)
  obtain ⟨hok, hnti⟩ := insertUpto_ok (P := P) (src := src) hc hle
  have hbelow := Nat.le_of_eq hnti
  unfold find hcHash
  rw [hinsert, hash_congr hsrc _ (by omega)]
  dsimp only
  rw [walk_congr hsrc anchor (hok.prev.mono hbelow) hq depth (fun cp hcp => hok.head.mono hbelow _ cp hcp)]

theorem lazyMatch_congr {depth : Nat} (fuel : Nat) {f : HcFinder} (m : Found) (hf : HcFinder.Ok n f) :
    lazyMatch P src' n depth fuel f m = lazyMatch P src n depth fuel f m := by
  induction fuel generalizing f m with
  | zero => rfl
  | succ fuel ih =>
    unfold lazyMatch
    split
    · next hin =>
      have hin' : f.ip + 1 + 12 < n := hin
      rw [find_congr hsrc f.anchor hf.chains (Nat.le_add_right_of_le hf.nti_le) hin']
      dsimp only
      split
      · split
        · exact ih _ (hf.search (Nat.le_succ _) (Nat.le_refl _) (by omega))
        · rfl
      · rfl
    · rfl

theorem hcScan_congr {depth : Nat} (fuel : Nat) {f : HcFinder} (hf : HcFinder.Ok n f) :
    hcScan P src' n depth fuel f = hcScan P src n depth fuel f := by
  induction fuel generalizing f with
  | zero => rfl
  | succ fuel ih =>
    unfold hcScan
    split
    · next hin =>
      have hin' : f.ip + 12 < n := hin
      rw [find_congr hsrc f.anchor hf.chains hf.nti_le hin']
      dsimp only
      split
      · exact ih (hf.search (Nat.le_refl _) (Nat.le_succ _) (by omega))
      · rw [lazyMatch_congr hsrc n _ (hf.search (Nat.le_refl _) (Nat.le_refl _) hf.ip_le)]
    · rfl

/-- The HC parse depends on the input bytes only. -/
theorem parseHc_congr (depth : Nat) : parseHc P src' n depth = parseHc P src n depth :=
  parseWith_congr (fun _ hf => hcScan_congr hsrc _ hf) (fun _ hf => hcScan_result _ hf) _ (HcFinder.init_ok n)

/-! ## The block of a parse -/

theorem slice_congr {a k : Nat} (h : a + k ≤ n) : slice src' a k = slice src a k := by
  induction k generalizing a with
  | zero => rfl
  | succ k ih => rw [slice, slice, hsrc a (by omega), ih (by omega)]

/-- The literals of a parse lie inside the input (R124, R166). -/
theorem encodeBlock_congr {seqs : List SeqDesc} {a : Nat} (hp : ParseOk src n seqs a) :
    encodeBlock src' seqs = encodeBlock src seqs := by
  induction seqs generalizing a with
  | nil => rfl
  | cons q rest ih =>
    rw [encodeBlock_cons, encodeBlock_cons]
    cases q with
    | matchSeq a l d m =>
      obtain ⟨-, hgood, hrest⟩ := parseOk_matchSeq.1 hp
      have := hgood.startIn
      rw [ih hrest, SeqDesc.toInstr, SeqDesc.toInstr, slice_congr hsrc (by omega)]
    | lastSeq a l =>
      cases rest with
      | nil => rw [SeqDesc.toInstr, SeqDesc.toInstr, slice_congr hsrc (Nat.le_of_eq hp.2)]; rfl
      | cons => exact hp.elim

end

end Sys2Proof.Machine

/-! # Proofs: the result of an operation depends on its operands only (spec/20_memory.md R60, spec/46_command_interface.md
R219) -/

namespace Sys2Proof.Machine

variable {s s' t t' u u' : State}

/-! ## What two runs have in common -/

/-- Two states with the same operands: SRC_LEN, DST_CAP, LEVEL and SRC[0..SRC_LEN) (R71). -/
structure SameInput (s s' : State) : Prop where
  srcLen : s'.srcLen = s.srcLen
  dstCap : s'.dstCap = s.dstCap
  level : s'.level = s.level
  src : ∀ a, a < s.n → s'.srcByte a = s.srcByte a

theorem SameInput.n (h : SameInput s s') : s'.n = s.n := congrArg BitVec.toNat h.srcLen

theorem SameInput.cap (h : SameInput s s') : s'.cap = s.cap := congrArg BitVec.toNat h.dstCap

/-- Two states with the same result: the result registers and, on Ok, the bytes produced. -/
structure SameOutcome (t t' : State) : Prop where
  results : SameResults t t'
  out : t.status = .ok → ∀ a, a < t.produced.toNat → t'.dstByte a = t.dstByte a

theorem SameOutcome.raise (s s' : State) (kind : ResultKind) : SameOutcome (State.raise s kind) (State.raise s' kind) :=
  ⟨⟨rfl, rfl, rfl, rfl⟩, fun _ a ha => absurd ha (Nat.not_lt_zero a)⟩

theorem SameOutcome.finish (count : Nat) {produced : Nat} (h : ∀ a, a < produced → s'.dstByte a = s.dstByte a) :
    SameOutcome (State.finish s count produced) (State.finish s' count produced) := by
  refine ⟨⟨rfl, rfl, rfl, rfl⟩, fun _ a ha => h a (Nat.lt_of_lt_of_le ha ?_)⟩
  exact (BitVec.toNat_ofNat produced 32).trans_le (Nat.mod_le _ _)

/-- Two runs that branch on the same test are alike when both branches are. -/
theorem related_ite {R : State → State → Prop} {c c' : Prop} [Decidable c] [Decidable c'] (hc : c' ↔ c)
    (hpos : c → R t t') (hneg : ¬ c → R u u') : R (if c then t else u) (if c' then t' else u') := by
  by_cases h : c
  · rw [if_pos h, if_pos (hc.2 h)]
    exact hpos h
  · rw [if_neg h, if_neg (mt hc.1 h)]
    exact hneg h

/-! ## Writing the same bytes -/

theorem read_writeList_congr {free : Nat → Nat → Byte} {m m' : Memory} {o : Nat} (bytes : List Byte)
    (h : ∀ x, x < o → Memory.read free m' x = Memory.read free m x) {x : Nat} (hx : x < o + bytes.length) :
    Memory.read free (Memory.writeList m' o bytes) x = Memory.read free (Memory.writeList m o bytes) x := by
  rcases Nat.lt_or_ge x o with hlow | hhigh
  · rw [Memory.read_writeList_outside free _ _ _ _ (.inl hlow), Memory.read_writeList_outside free _ _ _ _ (.inl hlow),
      h x hlow]
  · obtain ⟨i, rfl⟩ := Nat.exists_eq_add_of_le hhigh
    have hi : i < bytes.length := by omega
    rw [Memory.read_writeList_inside free _ _ _ _ hi, Memory.read_writeList_inside free _ _ _ _ hi]

/-- A match copy at a legal offset reads bytes below the one it writes only (R56). -/
theorem read_copySerial_congr {free : Nat → Nat → Byte} {m m' : Memory} {o off : Nat} (hoff : 1 ≤ off) (hlow : off ≤ o)
    (h : ∀ x, x < o → Memory.read free m' x = Memory.read free m x) (k : Nat) {x : Nat} (hx : x < o + k) :
    Memory.read free (Memory.copySerial free m' o off k) x = Memory.read free (Memory.copySerial free m o off k) x := by
  induction k generalizing x with
  | zero => exact h x hx
  | succ k ih =>
    unfold Memory.copySerial
    dsimp only
    rcases Nat.lt_or_ge x (o + k) with hxk | hxk
    · rw [Memory.read_write_other free _ _ (Nat.ne_of_lt hxk), Memory.read_write_other free _ _ (Nat.ne_of_lt hxk), ih hxk]
    · obtain rfl : x = o + k := by omega
      rw [Memory.read_write_same, Memory.read_write_same, ih (by omega)]

/-! ## The compressors -/

theorem SameOutcome.emitBlock (hcap : u'.cap = u.cap) (block : List Byte) :
    SameOutcome (State.emitBlock u block) (State.emitBlock u' block) := by
  refine related_ite (R := SameOutcome) (by rw [hcap]) (fun _ => .raise u u' _) (fun _ => .finish _ fun a ha => ?_)
  exact read_writeList_congr block (fun x hx => absurd hx (Nat.not_lt_zero x)) (by omega)

theorem SameInput.compressFast (h : SameInput s s') (P : Config.Params) :
    SameOutcome (State.compressFast P s) (State.compressFast P s') := by
  unfold State.compressFast
  dsimp only
  rw [h.n, parseFast_congr h.src, encodeBlock_congr h.src (parseFast_parseOk P _ _)]
  exact .emitBlock (u := State.withFast s _) (u' := State.withFast s' _) h.cap _

theorem SameInput.compressChained (h : SameInput s s') (P : Config.Params) :
    SameOutcome (State.compressChained P s) (State.compressChained P s') := by
  unfold State.compressChained
  dsimp only
  rw [h.n, h.level, parseHc_congr h.src, encodeBlock_congr h.src (parseHc_parseOk P _ _ _)]
  exact .emitBlock (u := State.withHc s _) (u' := State.withHc s' _) h.cap _

theorem SameInput.compressWith (h : SameInput s s') (P : Config.Params) :
    SameOutcome (State.compressWith P s) (State.compressWith P s') :=
  related_ite (R := SameOutcome) (by rw [h.n]) (fun _ => .raise s s' _) fun _ => h.compressFast P

theorem SameInput.compressHcWith (h : SameInput s s') (P : Config.Params) :
    SameOutcome (State.compressHcWith P s) (State.compressHcWith P s') :=
  related_ite (R := SameOutcome) (by rw [h.n]) (fun _ => .raise s s' _) fun _ =>
    related_ite (R := SameOutcome) (by rw [State.hcBypass, State.hcBypass, h.n, h.cap]) (fun _ => h.compressFast P)
      fun _ => h.compressChained P

/-! ## The decoder -/

/-- Two decoders that are not at their end agree on the operands, on their own registers and on the bytes written so far. -/
structure SameDecoder (s s' : State) : Prop extends SameInput s s' where
  live : s.dstate.terminal = false
  ip : s'.ip = s.ip
  op : s'.op = s.op
  litlen : s'.litlen = s.litlen
  mlen : s'.mlen = s.mlen
  offset : s'.offset = s.offset
  mnib : s'.mnib = s.mnib
  dstate : s'.dstate = s.dstate
  out : ∀ a, a < s.op → s'.dstByte a = s.dstByte a

/-- Two decoders after the same step: both run on and agree, or both have ended with the same result. -/
inductive DecodeAlike (t t' : State) : Prop where
  | running (h : SameDecoder t t')
  | ended (hend : t.dstate.terminal = true) (hend' : t'.dstate.terminal = true) (h : SameOutcome t t')

theorem DecodeAlike.fail (u u' : State) (kind : ResultKind) : DecodeAlike (State.failDecode u kind) (State.failDecode u' kind) :=
  .ended rfl rfl (.raise _ _ kind)

theorem SameDecoder.readToken (h : SameDecoder s s') {l m l' m' : Nibble} (hread : s.ip < s.n → l' = l ∧ m' = m) :
    DecodeAlike (State.readToken s l m) (State.readToken s' l' m') := by
  refine related_ite (R := DecodeAlike) (by rw [h.n, h.ip]) (fun _ => .fail s s' _) fun hip => ?_
  obtain ⟨rfl, rfl⟩ := hread (Nat.not_le.1 hip)
  exact .running { h with
    live := DState.terminal_ite rfl rfl
    ip := congrArg (· + 1) h.ip
    litlen := rfl
    mnib := rfl
    dstate := rfl }

theorem SameDecoder.readExtension (h : SameDecoder s s')
    (hd : s.dstate = .readLiteralExtension ∨ s.dstate = .readMatchExtension) {b b' : Byte} (hread : s.ip < s.n → b' = b) :
    DecodeAlike (State.readExtension s b) (State.readExtension s' b') := by
  unfold State.readExtension
  rw [h.dstate]
  rcases hd with hd | hd <;> rw [hd] <;> dsimp only
  · refine related_ite (R := DecodeAlike) (by rw [h.n, h.ip]) (fun _ => .fail s s' _) fun hip => ?_
    obtain rfl := hread (Nat.not_le.1 hip)
    exact .running { h with
      live := DState.terminal_ite rfl rfl
      ip := congrArg (· + 1) h.ip
      litlen := congrArg (· + b'.toNat) h.litlen
      dstate := rfl }
  · refine related_ite (R := DecodeAlike) (by rw [h.n, h.ip]) (fun _ => .fail s s' _) fun hip => ?_
    obtain rfl := hread (Nat.not_le.1 hip)
    exact .running { h with
      live := DState.terminal_ite rfl rfl
      ip := congrArg (· + 1) h.ip
      mlen := congrArg (· + b'.toNat) h.mlen
      dstate := rfl }

theorem SameDecoder.endLiterals (h : SameDecoder s s') : DecodeAlike (State.endLiterals s) (State.endLiterals s') := by
  refine related_ite (R := DecodeAlike) (by rw [h.n, h.ip]) (fun _ => .ended rfl rfl ?_) fun _ =>
    .running { h with live := rfl, dstate := rfl }
  rw [h.ip, h.op]
  exact .finish _ h.out

theorem SameDecoder.copyLiterals (h : SameDecoder s s') {lits lits' : List Byte} (hlen : lits.length = s.litlen)
    (hread : s.litlen ≤ s.n - s.ip → lits' = lits) :
    DecodeAlike (State.copyLiterals s lits) (State.copyLiterals s' lits') := by
  refine related_ite (R := DecodeAlike) (by rw [h.cap, h.op, h.litlen]) (fun _ => .fail s s' _) fun _ => ?_
  refine related_ite (R := DecodeAlike) (by rw [h.n, h.ip, h.litlen]) (fun _ => .fail s s' _) fun hin => ?_
  obtain rfl := hread (Nat.not_lt.1 hin)
  rw [h.ip, h.op, h.litlen]
  exact SameDecoder.endLiterals { h with
    ip := rfl
    op := rfl
    litlen := rfl
    out := fun a ha => read_writeList_congr lits' h.out (hlen ▸ ha) }

theorem SameDecoder.readOffset (h : SameDecoder s s') {d d' : BitVec 16} (hread : 2 ≤ s.n - s.ip → d' = d) :
    DecodeAlike (State.readOffset s d) (State.readOffset s' d') := by
  refine related_ite (R := DecodeAlike) (by rw [h.n, h.ip]) (fun _ => .fail s s' _) fun htwo => ?_
  obtain rfl := hread (Nat.not_lt.1 htwo)
  refine related_ite (R := DecodeAlike) Iff.rfl (fun _ => .fail _ _ _) fun _ => ?_
  refine related_ite (R := DecodeAlike) (by rw [h.op]) (fun _ => .fail _ _ _) fun _ => ?_
  exact .running { h with
    live := DState.terminal_ite rfl rfl
    ip := congrArg (· + 2) h.ip
    offset := rfl
    mlen := by dsimp only; rw [h.mnib]
    dstate := by dsimp only; rw [h.mnib] }

theorem SameDecoder.copyMatch (h : SameDecoder s s') (hoff : 1 ≤ s.offset.toNat ∧ s.offset.toNat ≤ s.op) :
    DecodeAlike (State.copyMatch s) (State.copyMatch s') := by
  refine related_ite (R := DecodeAlike) (by rw [h.cap, h.op, h.mlen]) (fun _ => .fail s s' _) fun _ => ?_
  rw [h.op, h.offset, h.mlen]
  exact .running { h with
    live := rfl
    op := rfl
    mlen := rfl
    offset := rfl
    dstate := rfl
    out := fun a ha => read_copySerial_congr hoff.1 hoff.2 h.out s.mlen ha }

/-- The same step of two decoders that agree; what is read there is read below SRC_LEN and below `op`. -/
theorem SameDecoder.decoderStep (h : SameDecoder s s') (hs : State.Decoding s) :
    DecodeAlike (State.decoderStep s) (State.decoderStep s') := by
  have hbyte : s.ip < s.n → s'.srcByte s'.ip = s.srcByte s.ip := by
    rw [h.ip]
    exact h.src s.ip
  cases hd : s.dstate with
  | readToken =>
    rw [decoderStep_eq_readToken hd, decoderStep_eq_readToken (h.dstate.trans hd)]
    exact h.readToken fun hip => by rw [hbyte hip]; exact ⟨rfl, rfl⟩
  | readLiteralExtension =>
    rw [decoderStep_eq_readExtension (.inl hd), decoderStep_eq_readExtension (.inl (h.dstate.trans hd))]
    exact h.readExtension (.inl hd) hbyte
  | readMatchExtension =>
    rw [decoderStep_eq_readExtension (.inr hd), decoderStep_eq_readExtension (.inr (h.dstate.trans hd))]
    exact h.readExtension (.inr hd) hbyte
  | copyLiterals =>
    rw [decoderStep_copyLiterals hd, decoderStep_copyLiterals (h.dstate.trans hd)]
    refine h.copyLiterals (slice_length _ _ _) fun hin => ?_
    rw [h.ip, h.litlen]
    rcases Nat.eq_zero_or_pos s.litlen with hzero | hpos
    · rw [hzero]
      rfl
    · exact slice_congr h.src (by omega)
  | readOffset =>
    rw [decoderStep_eq_readOffset hd, decoderStep_eq_readOffset (h.dstate.trans hd)]
    refine h.readOffset fun htwo => ?_
    rw [hbyte (by omega), h.ip, h.src (s.ip + 1) (by omega)]
  | copyMatch =>
    rw [decoderStep_copyMatch hd, decoderStep_copyMatch (h.dstate.trans hd)]
    exact h.copyMatch (hs.offset (by rw [hd]; rfl))
  | done | failed => exact nomatch (congrArg DState.terminal hd).symm.trans h.live

/-- Two decoders that agree run to the same result, when there are steps enough (R192). -/
theorem SameDecoder.runDecoder (h : SameDecoder s s') (hs : State.Decoding s) {fuel : Nat} (hfuel : State.stepsLeft s < fuel) :
    SameOutcome (State.runDecoder fuel s) (State.runDecoder fuel s') := by
  induction fuel generalizing s s' with
  | zero => exact absurd hfuel (Nat.not_lt_zero _)
  | succ fuel ih =>
    have hlive' : s'.dstate.terminal = false := h.dstate ▸ h.live
    rw [State.runDecoder, State.runDecoder, if_neg (by simp [h.live]), if_neg (by simp [hlive'])]
    cases h.decoderStep hs with
    | ended hend hend' hout => rwa [runDecoder_terminal hend, runDecoder_terminal hend']
    | running hnext =>
      rcases hs.decoderStep with ⟨-, hend⟩ | ⟨hrun, hless⟩
      · exact nomatch hend.symm.trans hnext.live
      · exact ih hnext hrun (by omega)

theorem SameInput.enterDecoder (h : SameInput s s') : SameDecoder (State.enterDecoder s) (State.enterDecoder s') :=
  { h with
    live := rfl, ip := rfl, op := rfl, litlen := rfl, mlen := rfl, offset := rfl, mnib := rfl, dstate := rfl
    out := fun a ha => absurd ha (Nat.not_lt_zero a) }

theorem SameInput.decompress (h : SameInput s s') :
    SameOutcome (State.runDecoder (2 * s.n + 2) (State.enterDecoder s))
      (State.runDecoder (2 * s'.n + 2) (State.enterDecoder s')) := by
  rw [h.n]
  refine h.enterDecoder.runDecoder s.enterDecoder_decoding ?_
  show 2 * (s.n - 0) + 0 < 2 * s.n + 2
  omega

/-- Settles O45: the compressors by the parses, which read the input only; DECOMPRESS step by step. -/
theorem resultDependsOnOperandsOnly : Obligations.ResultDependsOnOperandsOnly := by
  intro i s s' t t' hi hlen hcap hlevel hsrc ht ht'
  have h : SameInput s s' := ⟨hlen, hcap, hlevel, hsrc⟩
  suffices hout : SameOutcome t t' from ⟨hout.results, hout.out⟩
  cases i with
  | bound =>
    obtain rfl := Host.Outcome.next.inj ht
    obtain rfl := Host.Outcome.next.inj ht'
    rw [State.boundWith, State.boundWith, h.n]
    exact .finish _ fun a ha => absurd ha (Nat.not_lt_zero a)
  | compress => exact Host.Outcome.next.inj ht ▸ Host.Outcome.next.inj ht' ▸ h.compressWith Config.params
  | compressHc => exact Host.Outcome.next.inj ht ▸ Host.Outcome.next.inj ht' ▸ h.compressHcWith Config.params
  | decompress => exact Host.Outcome.next.inj ht ▸ Host.Outcome.next.inj ht' ▸ h.decompress
  | token | lenextCont | lenextTerm | offset | literal | seqMatch | seqLast => exact absurd hi Bool.false_ne_true

end Sys2Proof.Machine

/-! # Proofs: the wire format read and written (spec/30_encoding.md R72 to R79) -/

namespace Sys2Proof

/-! ## The nibbles of a token -/

theorem tokenByte_toNat (l m : Nibble) : (tokenByte l m).toNat = 16 * l.toNat + m.toNat := by
  have := l.isLt
  have := m.isLt
  simp only [tokenByte, BitVec.toNat_ofNat]
  omega

theorem tokenLit_toNat (t : Byte) : (tokenLit t).toNat = t.toNat / 16 := by
  have := t.isLt
  simp only [tokenLit, BitVec.extractLsb'_toNat, Nat.shiftRight_eq_div_pow]
  omega

theorem tokenMatch_toNat (t : Byte) : (tokenMatch t).toNat = t.toNat % 16 := by
  simp only [tokenMatch, BitVec.extractLsb'_toNat, Nat.shiftRight_zero]

@[simp] theorem tokenByte_tokenLit_tokenMatch (t : Byte) : tokenByte (tokenLit t) (tokenMatch t) = t := by
  apply BitVec.eq_of_toNat_eq
  rw [tokenByte_toNat, tokenLit_toNat, tokenMatch_toNat]
  omega

/-- Settles O2: the values of the nibbles and of the byte, and each read back from the other. -/
theorem tokenIsTwoNibbles : Obligations.TokenIsTwoNibbles :=
  ⟨fun t => ⟨tokenLit_toNat t, tokenMatch_toNat t, tokenByte_tokenLit_tokenMatch t⟩,
    fun l m => ⟨tokenByte_toNat l m, tokenLit_tokenByte l m, tokenMatch_tokenByte l m⟩⟩

/-! ## The bytes of an offset -/

@[simp] theorem lowByte_le16 (b0 b1 : Byte) : lowByte (le16 b0 b1) = b0 := by
  apply BitVec.eq_of_toNat_eq
  have := b0.isLt
  rw [lowByte_toNat, le16_toNat]
  omega

@[simp] theorem highByte_le16 (b0 b1 : Byte) : highByte (le16 b0 b1) = b1 := by
  apply BitVec.eq_of_toNat_eq
  have := b0.isLt
  rw [highByte_toNat, le16_toNat]
  omega

/-! ## Length fields (R75, R77) -/

theorem readExt_cont (acc : Nat) (bytes : List Byte) : readExt acc (255 :: bytes) = readExt (acc + 255) bytes := rfl

theorem readExt_term (acc : Nat) {e : Byte} (he : e ≠ 255) (rest : List Byte) :
    readExt acc (e :: rest) = some (acc + e.toNat, rest) := if_neg he

theorem readExt_replicate (acc k : Nat) (bytes : List Byte) :
    readExt acc (List.replicate k 255 ++ bytes) = readExt (acc + 255 * k) bytes := by
  induction k generalizing acc with
  | zero => rfl
  | succ k ih => rw [List.replicate_succ, List.cons_append, readExt_cont, ih, Nat.mul_succ, Nat.add_assoc, Nat.add_comm 255]

/-- `ext(r)` is read as `r` (R131). -/
theorem readExt_ext (acc r : Nat) (rest : List Byte) : readExt acc (ext r ++ rest) = some (acc + r, rest) := by
  have hmod : r % 255 < 255 := Nat.mod_lt r (by decide)
  have hval : (BitVec.ofNat 8 (r % 255)).toNat = r % 255 := by rw [BitVec.toNat_ofNat]; omega
  have hne : BitVec.ofNat 8 (r % 255) ≠ 255 := fun h => by rw [h] at hval; simp at hval; omega
  rw [ext, Config.extCont, List.append_assoc, readExt_replicate, List.singleton_append, readExt_term _ hne, hval,
    Nat.add_assoc, Nat.div_add_mod]

/-- Extension bytes that read as a value are the extension of what they add (R77). -/
theorem eq_ext_of_readExt {acc v : Nat} {bytes rest : List Byte} (h : readExt acc bytes = some (v, rest)) :
    acc ≤ v ∧ bytes = ext (v - acc) ++ rest := by
  induction bytes generalizing acc with
  | nil => exact nomatch h
  | cons b bytes ih =>
    by_cases hb : b = 255
    · subst hb
      obtain ⟨hle, rfl⟩ := ih (readExt_cont acc bytes ▸ h)
      refine ⟨by omega, ?_⟩
      rw [← List.cons_append, ← ext_add_255, show v - (acc + 255) + 255 = v - acc by omega]
    · rw [readExt_term acc hb] at h
      obtain ⟨rfl, rfl⟩ := Prod.mk.inj (Option.some.inj h)
      have hlt : b.toNat < 255 := by
        have := b.isLt
        have : b.toNat ≠ 255 := fun h => hb (BitVec.eq_of_toNat_eq h)
        omega
      simp [ext_of_lt hlt]

theorem readLen_of_lt {nib : Nibble} (h : nib.toNat < 15) (bytes : List Byte) :
    readLen nib bytes = some (nib.toNat, bytes) := if_neg (Nat.ne_of_lt h)

theorem lenNibble_of_le {v : Nat} (h : 15 ≤ v) : lenNibble v = 15 := by
  apply BitVec.eq_of_toNat_eq
  rw [lenNibble_toNat, Nat.min_eq_right h]
  rfl

theorem lenNibble_nibble_toNat (nib : Nibble) : lenNibble nib.toNat = nib := by
  apply BitVec.eq_of_toNat_eq
  have := nib.isLt
  rw [lenNibble_toNat]
  omega

/-- A nibble and bytes read as a length exactly when they are its encoding (R75, R77). -/
theorem readLen_eq_some {nib : Nibble} {bytes rest : List Byte} {v : Nat} :
    readLen nib bytes = some (v, rest) ↔ nib = lenNibble v ∧ bytes = lenExt v ++ rest := by
  constructor
  · intro h
    by_cases hnib : nib.toNat = 15
    · obtain rfl : nib = 15 := BitVec.eq_of_toNat_eq hnib
      obtain ⟨hle, hbytes⟩ := eq_ext_of_readExt (acc := 15) h
      exact ⟨(lenNibble_of_le hle).symm, by rw [lenExt_of_le hle, hbytes]⟩
    · have hlt : nib.toNat < 15 := by have := nib.isLt; omega
      rw [readLen_of_lt hlt] at h
      obtain ⟨rfl, rfl⟩ := Prod.mk.inj (Option.some.inj h)
      exact ⟨(lenNibble_nibble_toNat nib).symm, by rw [lenExt_of_lt hlt, List.nil_append]⟩
  · rintro ⟨rfl, rfl⟩
    rcases Nat.lt_or_ge v 15 with hv | hv
    · have hval : (lenNibble v).toNat = v := by rw [lenNibble_toNat, Nat.min_eq_left (Nat.le_of_lt hv)]
      rw [readLen_of_lt (by rwa [hval]), lenExt_of_lt hv, hval, List.nil_append]
    · rw [lenNibble_of_le hv, lenExt_of_le hv]
      show readExt 15 _ = _
      rw [readExt_ext, Nat.add_sub_cancel' hv]

@[simp] theorem readLen_lenNibble_lenExt (v : Nat) (rest : List Byte) :
    readLen (lenNibble v) (lenExt v ++ rest) = some (v, rest) := readLen_eq_some.2 ⟨rfl, rfl⟩

/-- Settles O4: reading by `readLen_of_lt` and `readExt_replicate`, reading back by `readLen_eq_some`. -/
theorem lengthFieldsReadBack : Obligations.LengthFieldsReadBack := by
  refine ⟨fun nib rest h => readLen_of_lt h rest, fun k e rest he => ?_,
    fun v rest => ⟨lenNibble_toNat v, rfl, readLen_lenNibble_lenExt v rest⟩, by decide⟩
  show readExt 15 _ = _
  rw [readExt_replicate, readExt_term _ he]

/-- Settles O5: `readLen_eq_some` from left to right. -/
theorem lengthEncodingIsUnique : Obligations.LengthEncodingIsUnique := fun _ _ _ _ h => readLen_eq_some.1 h

/-! ## Sequences (R72, R76, R78) -/

/-- Behind the literals of a sequence its tail is decoded. -/
theorem decodeSeq_encodeLast_append (lits : List Byte) (m : Nibble) (tail : List Byte) :
    decodeSeq (encodeLast lits m ++ tail) = decodeTail lits m tail := by
  have hlen : ¬ (lits ++ tail).length < lits.length := by simp
  rw [encodeLast, List.cons_append, List.append_assoc, decodeSeq, tokenLit_tokenByte, tokenMatch_tokenByte,
    readLen_lenNibble_lenExt]
  simp only [if_neg hlen, List.take_left, List.drop_left]

theorem decodeTail_match {d : BitVec 16} {mlen : Nat} (hd : d ≠ 0) (hm : 4 ≤ mlen) (lits rest : List Byte) :
    decodeTail lits (lenNibble (mlen - 4)) (lowByte d :: highByte d :: (lenExt (mlen - 4) ++ rest)) =
      .ok (.seqMatch lits d mlen, rest) := by
  rw [decodeTail, le16_lowByte_highByte, if_neg hd, readLen_lenNibble_lenExt]
  simp only [Config.minMatch, Nat.sub_add_cancel hm]

/-- What decodes as a sequence begins with the encoding of its token and literals. -/
theorem decodeSeq_ok {bytes : List Byte} {r : Instr × List Byte} (h : decodeSeq bytes = .ok r) :
    ∃ lits m tail, bytes = encodeLast lits m ++ tail ∧ decodeTail lits m tail = .ok r := by
  cases bytes with
  | nil => exact nomatch h
  | cons t bytes =>
    unfold decodeSeq at h
    dsimp only at h
    split at h
    · exact nomatch h
    · next len rest hlen =>
      obtain ⟨hnib, rfl⟩ := readLen_eq_some.1 hlen
      split at h
      · exact nomatch h
      · next hle =>
        have htake : (rest.take len).length = len := by rw [List.length_take]; omega
        refine ⟨_, _, _, ?_, h⟩
        rw [encodeLast, htake, ← hnib, tokenByte_tokenLit_tokenMatch, List.cons_append, List.append_assoc,
          List.take_append_drop]

/-- What decodes behind the literals: the end of the block, or a legal offset and the encoding of a match length. -/
theorem decodeTail_ok {lits : List Byte} {m : Nibble} {tail rest : List Byte} {i : Instr}
    (h : decodeTail lits m tail = .ok (i, rest)) :
    (i = .seqLast lits m ∧ tail = [] ∧ rest = []) ∨
    ∃ d mlen, i = .seqMatch lits d mlen ∧ d ≠ 0 ∧ 4 ≤ mlen ∧ m = lenNibble (mlen - 4) ∧
      tail = lowByte d :: highByte d :: (lenExt (mlen - 4) ++ rest) := by
  match tail, h with
  | [], h =>
    obtain ⟨rfl, rfl⟩ := Prod.mk.inj (Except.ok.inj h)
    exact .inl ⟨rfl, rfl, rfl⟩
  | b0 :: b1 :: bytes, h =>
    unfold decodeTail at h
    dsimp only at h
    split at h
    · exact nomatch h
    · next hd =>
      split at h
      · exact nomatch h
      · next v rest' hlen =>
        obtain ⟨rfl, rfl⟩ := Prod.mk.inj (Except.ok.inj h)
        obtain ⟨hnib, rfl⟩ := readLen_eq_some.1 hlen
        exact .inr ⟨_, _, rfl, hd, Nat.le_add_left 4 v, hnib, by rw [lowByte_le16, highByte_le16]; rfl⟩

/-- The two kinds of sequence that decode, and the bytes of each (R132, R133). -/
theorem decodeSeq_cases {bytes rest : List Byte} {i : Instr} (h : decodeSeq bytes = .ok (i, rest)) :
    (∃ lits m, i = .seqLast lits m ∧ rest = [] ∧ bytes = encodeLast lits m) ∨
    ∃ lits d mlen, i = .seqMatch lits d mlen ∧ d ≠ 0 ∧ 4 ≤ mlen ∧ bytes = encodeMatch lits d mlen ++ rest := by
  obtain ⟨lits, m, tail, rfl, htail⟩ := decodeSeq_ok h
  rcases decodeTail_ok htail with ⟨rfl, rfl, rfl⟩ | ⟨d, mlen, rfl, hd, hm, rfl, rfl⟩
  · exact .inl ⟨lits, m, rfl, rfl, List.append_nil _⟩
  · exact .inr ⟨lits, d, mlen, rfl, hd, hm, by rw [encodeMatch_eq, List.append_assoc]; rfl⟩

/-! ## Decoding and encoding -/

/-- Settles O7: an element by its own bytes, a sequence by its literals and then its tail. -/
theorem decodeInvertsEncode : Obligations.DecodeInvertsEncode := by
  intro i rest hwf hlast
  cases i with
  | bound | compress | compressHc | decompress | lenextCont | literal => rfl
  | token l m =>
    show Except.ok (Instr.token (tokenLit (tokenByte l m)) (tokenMatch (tokenByte l m)), rest) = _
    rw [tokenLit_tokenByte, tokenMatch_tokenByte]
  | lenextTerm v =>
    have hv : v ≠ 255 := bne_iff_ne.1 hwf
    show Except.ok (decodeExt v, rest) = _
    rw [decodeExt, if_neg hv]
  | offset d =>
    show Except.ok (Instr.offset (le16 (lowByte d) (highByte d)), rest) = _
    rw [le16_lowByte_highByte]
  | seqMatch lits d mlen =>
    obtain ⟨hd, hm⟩ := Bool.and_eq_true_iff.1 hwf
    show decodeSeq (encodeMatch lits d mlen ++ rest) = _
    rw [encodeMatch_eq, List.append_assoc, decodeSeq_encodeLast_append]
    exact decodeTail_match (bne_iff_ne.1 hd) (of_decide_eq_true hm) lits rest
  | seqLast lits m =>
    obtain rfl := hlast lits m rfl
    exact decodeSeq_encodeLast_append lits m []

/-- An extension byte that is read is its own encoding (R75). -/
theorem decodeExt_spec (b : Byte) :
    slotOf (decodeExt b) = .extension ∧ WellFormed (decodeExt b) = true ∧ encode (decodeExt b) = [b] := by
  unfold decodeExt
  split
  · next hb => exact ⟨rfl, rfl, by rw [hb]; rfl⟩
  · next hb => exact ⟨rfl, bne_iff_ne.2 hb, rfl⟩

/-- Settles O8: an element by its own bytes, a sequence by `decodeSeq_cases`. -/
theorem encodeInvertsDecode : Obligations.EncodeInvertsDecode := by
  intro slot bytes rest i hslot h
  cases slot with
  | command => exact absurd rfl hslot
  | sequence =>
    rcases decodeSeq_cases h with ⟨lits, m, rfl, rfl, rfl⟩ | ⟨lits, d, mlen, rfl, hd, hm, rfl⟩
    · exact ⟨rfl, rfl, List.append_nil _⟩
    · exact ⟨rfl, Bool.and_eq_true_iff.2 ⟨bne_iff_ne.2 hd, decide_eq_true hm⟩, rfl⟩
  | token =>
    match bytes, h with
    | b :: bytes, h =>
      obtain ⟨rfl, rfl⟩ := Prod.mk.inj (Except.ok.inj h)
      exact ⟨rfl, rfl, congrArg (· :: bytes) (tokenByte_tokenLit_tokenMatch b)⟩
  | extension =>
    match bytes, h with
    | b :: bytes, h =>
      obtain ⟨rfl, rfl⟩ := Prod.mk.inj (Except.ok.inj h)
      obtain ⟨hslotOf, hwf, hencode⟩ := decodeExt_spec b
      exact ⟨hslotOf, hwf, congrArg (· ++ bytes) hencode⟩
  | literal =>
    match bytes, h with
    | b :: bytes, h =>
      obtain ⟨rfl, rfl⟩ := Prod.mk.inj (Except.ok.inj h)
      exact ⟨rfl, rfl, rfl⟩
  | offset =>
    match bytes, h with
    | b0 :: b1 :: bytes, h =>
      obtain ⟨rfl, rfl⟩ := Prod.mk.inj (Except.ok.inj h)
      refine ⟨rfl, rfl, ?_⟩
      show lowByte (le16 b0 b1) :: highByte (le16 b0 b1) :: bytes = _
      rw [lowByte_le16, highByte_le16]

/-- Settles O9: by evaluation of the decoder at each word. -/
theorem sampleWordsDecode : Obligations.SampleWordsDecode :=
  ⟨rfl, rfl, rfl, rfl, rfl, rfl, rfl, rfl, rfl, rfl, rfl, rfl, rfl, rfl, rfl⟩

end Sys2Proof

/-! # Proofs: the elements of a block as instructions (spec/45_block_decoder.md R182 to R187) -/

namespace Sys2Proof.Machine

variable {s t : State}

/-! ## The decoder at an element -/

theorem State.decoderAt_iff {d : DState} :
    State.decoderAt s d = true ↔ s.phase = .busy ∧ s.crOp = 3 ∧ s.dstate = d := by
  simp [State.decoderAt, and_assoc]

theorem State.extensionDue_iff : State.extensionDue s = true ↔
    s.phase = .busy ∧ s.crOp = 3 ∧ (s.dstate = .readLiteralExtension ∨ s.dstate = .readMatchExtension) := by
  rw [State.extensionDue, Bool.or_eq_true, State.decoderAt_iff, State.decoderAt_iff, ← and_or_left, ← and_or_left]

/-- Outside the two stuck states an elementary step of DECOMPRESS is the decoder's step. -/
theorem codecTick_eq_decoderStep (P : Config.Params) (hb : s.phase = .busy) (hop : s.crOp = 3) (hs : ¬ State.Stuck s) :
    codecTick P s = .next (State.decoderStep s) := by
  have htick : codecTick P s = decompressTick s := by simp [codecTick, hb, hop]
  rcases decompressTick_moves hb hop with ⟨t, ht⟩ | ⟨hstuck, -⟩
  · rw [htick, ht, decompressTick_next hb hop ht]
  · exact absurd hstuck hs

/-- Only in CopyMatch, Done and Failed can the decoder be stuck. -/
theorem State.not_stuck_of_dstate {d : DState} (hd : s.dstate = d) (hlive : d.terminal = false) (hcopy : d ≠ .copyMatch) :
    ¬ State.Stuck s := by
  subst hd
  rintro ⟨-, -, hterm | ⟨hd, -⟩⟩
  · exact Bool.false_ne_true (hlive.symm.trans hterm)
  · exact hcopy hd

theorem State.failDecode_failedWith (s : State) (k : ResultKind) : FailedWith k (State.failDecode s k) := by
  constructor <;> rfl

/-! ## Extension bytes (R183, R187) -/

theorem exec_lenextCont (h : State.extensionDue s = true) : exec .lenextCont s = .next (State.readExtension s 255) :=
  if_pos h

theorem exec_lenextTerm (h : State.extensionDue s = true) (v : Byte) :
    exec (.lenextTerm v) s = .next (State.readExtension s v) := if_pos h

theorem exec_decodeExt (h : State.extensionDue s = true) (b : Byte) :
    exec (decodeExt b) s = .next (State.readExtension s b) := by
  unfold decodeExt
  split
  · next hb => exact hb ▸ exec_lenextCont h
  · exact exec_lenextTerm h b

theorem codecTick_extension (P : Config.Params) (h : State.extensionDue s = true) :
    codecTick P s = .next (State.readExtension s (s.srcByte s.ip)) := by
  obtain ⟨hb, hop, hd⟩ := State.extensionDue_iff.1 h
  rw [codecTick_eq_decoderStep P hb hop, decoderStep_eq_readExtension hd]
  rcases hd with hd | hd
  · exact State.not_stuck_of_dstate hd rfl nofun
  · exact State.not_stuck_of_dstate hd rfl nofun

theorem State.readExtension_of_end (hd : s.dstate = .readLiteralExtension ∨ s.dstate = .readMatchExtension) (h : s.n ≤ s.ip)
    (b : Byte) : State.readExtension s b = State.failDecode s .inputTruncated := by
  rcases hd with hd | hd <;> simp [State.readExtension, hd, h]

theorem State.readExtension_literal (hd : s.dstate = .readLiteralExtension) (h : s.ip < s.n) (b : Byte) :
    State.readExtension s b =
      { s with
        ip := s.ip + 1
        litlen := s.litlen + b.toNat
        dstate := if b = 255 then .readLiteralExtension else .copyLiterals } := by
  have hb : b.toNat = Config.extCont ↔ b = 255 := BitVec.toNat_inj (y := 255)
  simp only [State.readExtension, hd, Nat.not_le.2 h, hb, if_false]

theorem State.readExtension_match (hd : s.dstate = .readMatchExtension) (h : s.ip < s.n) (b : Byte) :
    State.readExtension s b =
      { s with
        ip := s.ip + 1
        mlen := s.mlen + b.toNat
        dstate := if b = 255 then .readMatchExtension else .copyMatch } := by
  have hb : b.toNat = Config.extCont ↔ b = 255 := BitVec.toNat_inj (y := 255)
  simp only [State.readExtension, hd, Nat.not_le.2 h, hb, if_false]

/-- Settles O35: `State.readExtension` in each of its two states, which the instructions and the elementary step
run. -/
theorem extensionBytesAccumulate : Obligations.ExtensionBytesAccumulate := by
  intro P s
  refine ⟨fun hat hip => ?_, fun hat hip => ?_, fun hdue hip => ?_⟩
  · obtain ⟨hb, hop, hd⟩ := State.decoderAt_iff.1 hat
    have hdue : State.extensionDue s = true := State.extensionDue_iff.2 ⟨hb, hop, .inl hd⟩
    refine ⟨(codecTick_extension P hdue).trans (exec_decodeExt hdue _).symm, ?_, fun v hv => ?_⟩
    · rw [exec_lenextCont hdue, State.readExtension_literal hd hip, if_pos rfl, ← hd]
      rfl
    · rw [exec_lenextTerm hdue, State.readExtension_literal hd hip, if_neg hv]
  · obtain ⟨hb, hop, hd⟩ := State.decoderAt_iff.1 hat
    have hdue : State.extensionDue s = true := State.extensionDue_iff.2 ⟨hb, hop, .inr hd⟩
    refine ⟨(codecTick_extension P hdue).trans (exec_decodeExt hdue _).symm, ?_, fun v hv => ?_⟩
    · rw [exec_lenextCont hdue, State.readExtension_match hd hip, if_pos rfl, ← hd]
      rfl
    · rw [exec_lenextTerm hdue, State.readExtension_match hd hip, if_neg hv]
  · obtain ⟨-, -, hd⟩ := State.extensionDue_iff.1 hdue
    have hfail := State.readExtension_of_end hd hip
    refine ⟨State.failDecode s .inputTruncated, ?_, ?_, fun v => ?_, State.failDecode_failedWith _ _, rfl⟩
    · rw [codecTick_extension P hdue, hfail]
    · rw [exec_lenextCont hdue, hfail]
    · rw [exec_lenextTerm hdue, hfail]

/-! ## The offset (R186) -/

theorem exec_offset (h : State.decoderAt s .readOffset = true) (d : BitVec 16) :
    exec (.offset d) s = .next (State.readOffset s d) := if_pos h

theorem codecTick_readOffset (P : Config.Params) (h : State.decoderAt s .readOffset = true) : codecTick P s =
    exec (.offset (le16 (s.srcByte s.ip) (s.srcByte (s.ip + 1)))) s := by
  obtain ⟨hb, hop, hd⟩ := State.decoderAt_iff.1 h
  rw [codecTick_eq_decoderStep P hb hop (State.not_stuck_of_dstate hd rfl nofun), decoderStep_eq_readOffset hd,
    exec_offset h]

/-- Settles O39: the three outcomes of `State.readOffset`, which the instruction and the elementary step run. -/
theorem offsetCompletes : Obligations.OffsetCompletes := by
  intro P s d hat
  refine ⟨fun hcut => ?_, fun htwo => ⟨codecTick_readOffset P hat, fun hbad => ?_, fun hd hle => ?_⟩⟩
  · have hfail : ∀ d, State.readOffset s d = State.failDecode s .inputTruncated := fun d => if_pos hcut
    refine ⟨State.failDecode s .inputTruncated, ?_, ?_, State.failDecode_failedWith _ _, rfl⟩
    · rw [codecTick_readOffset P hat, exec_offset hat, hfail]
    · rw [exec_offset hat, hfail]
  · refine ⟨_, exec_offset hat d, ?_⟩
    rcases State.readOffset_cases s d with ⟨hcut, -⟩ | ⟨-, -, h⟩ | ⟨-, hd, hle, -⟩
    · omega
    · rw [h]
      exact ⟨State.failDecode_failedWith _ _, rfl⟩
    · exact absurd hbad (not_or.2 ⟨hd, Nat.not_lt.2 hle⟩)
  · have hnib : s.mnib.toNat = Config.nibEsc ↔ s.mnib = 15 := BitVec.toNat_inj (y := 15)
    rw [exec_offset hat, State.readOffset_of_legal (by omega) hd hle]
    simp only [hnib, Config.minMatch]

/-! ## Literals (R184, R185) -/

/-- One byte of a literal run copied, with `litlen` counted down (R184; log entry 9). -/
def State.literalCopied (s : State) (b : Byte) : State :=
  { s with dst := Memory.write s.dst s.op b, ip := s.ip + 1, op := s.op + 1, litlen := s.litlen - 1 }

theorem exec_literal (h : State.decoderAt s .copyLiterals = true) (hpos : 0 < s.litlen) (b : Byte) :
    exec (.literal b) s = .next (State.copyLiteral s b) :=
  if_pos (by rw [h, Bool.true_and, bne_iff_ne]; exact Nat.ne_of_gt hpos)

theorem State.copyLiteral_of_more (hlen : 1 < s.litlen) (hcap : s.litlen ≤ s.cap - s.op) (hin : s.litlen ≤ s.n - s.ip)
    (b : Byte) : State.copyLiteral s b = State.literalCopied s b := by
  rw [State.copyLiteral, if_neg (Nat.not_lt.2 hcap), if_neg (Nat.not_lt.2 hin)]
  exact if_neg (Nat.sub_ne_zero_of_lt hlen)

theorem State.copyLiteral_of_last (hlen : s.litlen = 1) (hcap : s.litlen ≤ s.cap - s.op) (hin : s.litlen ≤ s.n - s.ip)
    (b : Byte) : State.copyLiteral s b = State.endLiterals (State.literalCopied s b) := by
  rw [State.copyLiteral, if_neg (Nat.not_lt.2 hcap), if_neg (Nat.not_lt.2 hin)]
  exact if_pos (Nat.sub_eq_zero_of_le hlen.le)

/-- The end of a literal run writes no other field than these. -/
theorem State.endLiterals_fields (s : State) : ∃ phase status count produced dstate, State.endLiterals s =
    { s with phase := phase, status := status, count := count, produced := produced, dstate := dstate } := by
  rcases State.endLiterals_cases s with ⟨-, h⟩ | ⟨-, h⟩ <;> rw [h] <;> exact ⟨_, _, _, _, _, rfl⟩

/-- A literal that fits leaves the fields of `State.literalCopied`, but for those that the end of the run may write. -/
theorem State.copyLiteral_fields (hpos : 0 < s.litlen) (hcap : s.litlen ≤ s.cap - s.op) (hin : s.litlen ≤ s.n - s.ip)
    (b : Byte) : ∃ phase status count produced dstate, State.copyLiteral s b =
    { State.literalCopied s b with
      phase := phase, status := status, count := count, produced := produced, dstate := dstate } := by
  rcases Nat.lt_or_ge 1 s.litlen with hlen | hlen
  · exact ⟨_, _, _, _, _, State.copyLiteral_of_more hlen hcap hin b⟩
  · rw [State.copyLiteral_of_last (by omega) hcap hin]
    exact State.endLiterals_fields _

/-- Settles O36: the fields of a literal that fits, and the end of the run where it is the last. -/
theorem literalCompletes : Obligations.LiteralCompletes := by
  intro s b hat hpos hcap hin
  obtain ⟨-, -, hd⟩ := State.decoderAt_iff.1 hat
  refine ⟨State.copyLiteral s b, exec_literal hat hpos b, ?_⟩
  have hkeep := NoSearch.copyLiteral s b
  have hmore := fun hlen => State.copyLiteral_of_more (s := s) hlen hcap hin b
  have hlast := fun hlen => State.copyLiteral_of_last (s := s) hlen hcap hin b
  obtain ⟨_, _, _, _, _, hfields⟩ := State.copyLiteral_fields hpos hcap hin b
  refine ⟨?_, fun x hx => ?_, hfields ▸ rfl, hfields ▸ rfl, hfields ▸ rfl, hkeep.operands, hkeep.tables, hkeep.anchor,
    hkeep.nti, hfields ▸ rfl, hfields ▸ rfl, hfields ▸ rfl, fun hlen => ?_, fun hlen hend => ?_, fun hlen hend => ?_⟩
  · rw [hfields]
    exact Memory.read_write_same _ s.dst s.op b
  · rw [hfields]
    exact Memory.read_write_other _ s.dst b (by omega)
  · rw [hmore hlen]
    exact ⟨hd, rfl, rfl, rfl, rfl⟩
  · rw [hlast hlen, State.endLiterals_of_end (s := State.literalCopied s b) hend]
    have hroom : s.cap < 2 ^ 32 := s.dstCap.isLt
    have hop : s.op + 1 < 2 ^ 32 := by omega
    exact ⟨rfl, rfl, Nat.mod_eq_of_lt s.srcLen.isLt, Nat.mod_eq_of_lt hop, rfl⟩
  · rw [hlast hlen, State.endLiterals_of_more (s := State.literalCopied s b) hend]
    exact ⟨rfl, rfl, rfl, rfl, rfl⟩

/-- The end of a literal run does not depend on `litlen`. -/
theorem State.endLiterals_setLitlen (s : State) (k : Nat) :
    State.endLiterals { s with litlen := k } = { State.endLiterals s with litlen := k } := by
  rcases State.endLiterals_cases s with ⟨hip, h⟩ | ⟨hip, h⟩ <;> rw [h]
  · exact if_pos hip
  · exact if_neg hip

/-- The first byte of a fitting run copied by itself, then the others: the same but for `litlen`. -/
theorem State.copyLiterals_cons (hpos : 0 < s.litlen) (hcap : s.litlen ≤ s.cap - s.op) (hin : s.litlen ≤ s.n - s.ip)
    (b : Byte) (bs : List Byte) : { State.copyLiterals (State.literalCopied s b) bs with litlen := 0 } =
      { State.copyLiterals s (b :: bs) with litlen := 0 } := by
  rw [State.copyLiterals_of_fits _ hcap hin, State.copyLiterals_of_fits (s := State.literalCopied s b) bs
    (by show s.litlen - 1 ≤ s.cap - (s.op + 1); omega) (by show s.litlen - 1 ≤ s.n - (s.ip + 1); omega),
    ← State.endLiterals_setLitlen, ← State.endLiterals_setLitlen]
  have hip : s.ip + 1 + (s.litlen - 1) = s.ip + s.litlen := by omega
  have hop : s.op + 1 + (s.litlen - 1) = s.op + s.litlen := by omega
  simp only [State.literalCopied, Memory.writeList, hip, hop]

/-- The literals of a run that fits, one after another, are one CopyLiterals with `litlen` counted down (R184; log entry 9). -/
theorem literalRun_slice {k : Nat} (hk : s.litlen = k + 1) (hat : State.decoderAt s .copyLiterals = true)
    (hcap : s.litlen ≤ s.cap - s.op) (hin : s.litlen ≤ s.n - s.ip) :
    literalRun (slice s.srcByte s.ip (k + 1)) s =
      .next { State.copyLiterals s (slice s.srcByte s.ip (k + 1)) with litlen := 0 } := by
  have hpos : 0 < s.litlen := by omega
  induction k generalizing s with
  | zero =>
    rw [State.copyLiterals_of_fits _ hcap hin, ← State.endLiterals_setLitlen]
    simp only [slice, literalRun, exec_literal hat hpos, State.copyLiteral_of_last hk hcap hin, State.literalCopied, hk,
      Memory.writeList]
  | succ k ih =>
    have hrest := ih (s := State.literalCopied s (s.srcByte s.ip)) (by show s.litlen - 1 = _; omega) hat
      (by show s.litlen - 1 ≤ s.cap - (s.op + 1); omega) (by show s.litlen - 1 ≤ s.n - (s.ip + 1); omega)
      (by show 0 < s.litlen - 1; omega)
    rw [slice, literalRun, exec_literal hat hpos, State.copyLiteral_of_more (by omega) hcap hin,
      ← State.copyLiterals_cons hpos hcap hin]
    exact hrest

/-- Settles O38: `literalRun_slice`, and CopyLiterals is the elementary step. -/
theorem literalRunIsCopyLiterals : Obligations.LiteralRunIsCopyLiterals := by
  intro P s lits hat hpos hcap hin hlits
  obtain ⟨hb, hop, hd⟩ := State.decoderAt_iff.1 hat
  obtain ⟨k, hk⟩ := Nat.exists_eq_add_one.2 hpos
  refine ⟨_, State.copyLiterals s lits, ?_, ?_, rfl⟩
  · rw [hlits, hk]
    exact literalRun_slice hk hat hcap hin
  · rw [codecTick_eq_decoderStep P hb hop (State.not_stuck_of_dstate hd rfl nofun), decoderStep_copyLiterals hd, hlits]

end Sys2Proof.Machine

/-! # Proofs: a sequence and its elementary steps (spec/30_encoding.md R72, R78, spec/45_block_decoder.md R180 to R189) -/

namespace Sys2Proof.Machine

variable {s t : State}

/-! ## A block of one last sequence -/

theorem holdsBytes_iff {space : Nat → Byte} {bytes : List Byte} : holdsBytes space bytes ↔ holdsAt space 0 bytes := by
  rw [holdsAt_iff]
  refine forall₂_congr fun i hi => ?_
  rw [List.getElem?_eq_getElem hi, Option.some_inj, Nat.zero_add, eq_comm]

/-- Settles O33: the decoder's run over a last sequence that fits, `runDecoder_lastSeq`. -/
theorem decompressCompletes : Obligations.DecompressCompletes := by
  intro s lits m hn hin hcap
  have hrun := runDecoder_lastSeq (s := State.enterDecoder s) rfl (holdsBytes_iff.1 hin) ((Nat.zero_add _).trans hn.symm)
    ((Nat.zero_add _).trans_le hcap)
  have hfuel : 2 + (lenExt lits.length).length ≤ 2 * s.n + 2 := by
    rw [hn, encodeLast_length]
    omega
  have hroom : s.cap < 2 ^ 32 := s.dstCap.isLt
  have hexec : exec .decompress s = .next _ := congrArg Host.Outcome.next (runDecoder_of_le hrun rfl hfuel)
  refine ⟨_, hexec, ⟨rfl, ?_, ?_, rfl⟩, ?_, Nat.zero_add _, rfl, ?_, fun x hx => ?_, ?_, ?_⟩
  · exact Nat.mod_eq_of_lt s.srcLen.isLt
  · show (0 + lits.length) % 2 ^ 32 = _
    rw [Nat.zero_add, Nat.mod_eq_of_lt (by omega)]
  · exact (Nat.zero_add _).trans hn.symm
  · exact holdsBytes_iff.2 (holdsAt_writeList _ _ _ _)
  · exact Memory.read_writeList_outside _ _ _ _ _ hx
  · constructor <;> rfl
  · constructor <;> rfl

/-! ## Elementary steps of the codec as a run of the decoder -/

/-- While DECOMPRESS runs, its decoder is not stuck: it is live as long as the operation is BUSY, and an offset that is read has
passed its check (R186, R191). -/
structure State.Steady (s : State) : Prop where
  crOp : s.crOp = 3
  live : s.phase = .busy ↔ s.dstate.terminal = false
  offset : s.dstate.hasOffset = true → s.offset.toNat ≤ s.op

theorem State.Steady.not_stuck (hs : State.Steady s) : ¬ State.Stuck s := by
  rintro ⟨hb, -, hterm | ⟨hd, hlt⟩⟩
  · exact Bool.false_ne_true ((hs.live.1 hb).symm.trans hterm)
  · exact absurd (hs.offset (by rw [hd]; rfl)) (Nat.not_le.2 hlt)

theorem State.Steady.failDecode (h : s.crOp = 3) (kind : ResultKind) : State.Steady (State.failDecode s kind) :=
  ⟨h, ⟨nofun, nofun⟩, nofun⟩

theorem State.Steady.endLiterals (hop : s.crOp = 3) (hb : s.phase = .busy) : State.Steady (State.endLiterals s) := by
  rcases State.endLiterals_cases s with ⟨-, h⟩ | ⟨-, h⟩ <;> rw [h]
  · exact ⟨hop, ⟨nofun, nofun⟩, nofun⟩
  · exact ⟨hop, ⟨fun _ => rfl, fun _ => hb⟩, nofun⟩

/-- Every step of a decoder that is not stuck leads to such a decoder. -/
theorem State.Steady.decoderStep (hs : State.Steady s) : State.Steady (State.decoderStep s) := by
  have ⟨hop, hlive, hoffset⟩ := hs
  have hrun : ∀ {d}, s.dstate = d → d.terminal = false → s.phase = .busy := fun hd h => hlive.2 (hd ▸ h)
  cases hd : s.dstate with
  | readToken =>
    rw [decoderStep_eq_readToken hd]
    rcases State.readToken_cases s _ _ with ⟨-, h⟩ | ⟨-, h⟩ <;> rw [h]
    · exact .failDecode hop _
    · refine ⟨hop, iff_of_true (hrun hd rfl) (DState.terminal_ite rfl rfl), ?_⟩
      dsimp only
      split <;> exact nofun
  | readLiteralExtension =>
    rw [decoderStep_eq_readExtension (.inl hd)]
    rcases Nat.lt_or_ge s.ip s.n with hip | hip
    · rw [State.readExtension_literal hd hip]
      refine ⟨hop, iff_of_true (hrun hd rfl) (DState.terminal_ite rfl rfl), ?_⟩
      dsimp only
      split <;> exact nofun
    · rw [State.readExtension_of_end (.inl hd) hip]
      exact .failDecode hop _
  | readMatchExtension =>
    rw [decoderStep_eq_readExtension (.inr hd)]
    rcases Nat.lt_or_ge s.ip s.n with hip | hip
    · rw [State.readExtension_match hd hip]
      exact ⟨hop, iff_of_true (hrun hd rfl) (DState.terminal_ite rfl rfl), fun _ => hoffset (by rw [hd]; rfl)⟩
    · rw [State.readExtension_of_end (.inr hd) hip]
      exact .failDecode hop _
  | copyLiterals =>
    rw [decoderStep_copyLiterals hd]
    rcases State.copyLiterals_cases s _ with ⟨-, h⟩ | ⟨-, -, h⟩ | ⟨-, -, h⟩ <;> rw [h]
    · exact .failDecode hop _
    · exact .failDecode hop _
    · exact .endLiterals hop (hrun hd rfl)
  | readOffset =>
    rw [decoderStep_eq_readOffset hd]
    rcases State.readOffset_cases s _ with ⟨-, h⟩ | ⟨-, -, h⟩ | ⟨-, -, hle, h⟩ <;> rw [h]
    · exact .failDecode hop _
    · exact .failDecode (by exact hop) _
    · exact ⟨hop, iff_of_true (hrun hd rfl) (DState.terminal_ite rfl rfl), fun _ => hle⟩
  | copyMatch =>
    rw [decoderStep_copyMatch hd]
    rcases State.copyMatch_cases s with ⟨-, h⟩ | ⟨-, h⟩ <;> rw [h]
    · exact .failDecode hop _
    · exact ⟨hop, iff_of_true (hrun hd rfl) rfl, nofun⟩
  | done | failed => simpa [State.decoderStep, State.fetchWire, hd] using hs

/-- The elementary steps of DECOMPRESS are the decoder's run (R180, R216). -/
theorem tickRun_eq_runDecoder (P : Config.Params) (k : Nat) (hs : State.Steady s) :
    tickRun P k s = .next (State.runDecoder k s) := by
  induction k generalizing s with
  | zero => rfl
  | succ k ih =>
    cases hlive : s.dstate.terminal with
    | false =>
      simp only [tickRun, codecTick_eq_decoderStep P (hs.live.2 hlive) hs.crOp hs.not_stuck, ih hs.decoderStep,
        State.runDecoder, hlive, Bool.false_eq_true, if_false]
    | true =>
      have hidle : s.phase ≠ .busy := fun hb => Bool.false_ne_true ((hs.live.1 hb).symm.trans hlive)
      have htick : codecTick P s = .next s := if_neg hidle
      simp only [tickRun, htick, ih hs, runDecoder_terminal hlive]

/-! ## The parts of a sequence as runs of the decoder -/

/-- `k` bytes 255 and one more byte read one after another are the decoder's run over them (R183, R187). -/
theorem runDecoder_extensionBytes (k : Nat) {e : Byte} (hd : s.dstate = .readLiteralExtension ∨ s.dstate = .readMatchExtension)
    (hin : holdsAt s.srcByte s.ip (List.replicate k 255 ++ [e])) (hn : s.ip + k < s.n) :
    State.runDecoder (k + 1) s = (List.replicate k 255 ++ [e]).foldl State.readExtension s := by
  have hlive : s.dstate.terminal = false := by rcases hd with hd | hd <;> rw [hd] <;> rfl
  induction k generalizing s with
  | zero =>
    rw [runDecoder_one hlive, decoderStep_eq_readExtension hd, (holdsAt_cons.1 hin).1]
    rfl
  | succ k ih =>
    rw [List.replicate_succ, List.cons_append] at hin ⊢
    obtain ⟨hb, hrest⟩ := holdsAt_cons.1 hin
    obtain ⟨hdstate, hip, hn', hsrc, -⟩ := State.readExtension_cont hd (by omega)
    rw [Nat.add_comm (k + 1) 1, runDecoder_add, runDecoder_one hlive, decoderStep_eq_readExtension hd, hb, List.foldl_cons]
    exact ih (hdstate ▸ hd) (by rwa [hsrc, hip]) (by omega) (hdstate ▸ hlive)

/-- Reading the extension of a length is the decoder's run over it, when the decoder expects one exactly if there is one. -/
theorem runDecoder_lenExt {v : Nat} (hd : 15 ≤ v → s.dstate = .readLiteralExtension ∨ s.dstate = .readMatchExtension)
    (hin : holdsAt s.srcByte s.ip (lenExt v)) (hn : s.ip + (lenExt v).length ≤ s.n) :
    State.runDecoder (lenExt v).length s = (lenExt v).foldl State.readExtension s := by
  rcases Nat.lt_or_ge v 15 with hv | hv
  · rw [lenExt_of_lt hv]
    rfl
  · rw [lenExt_of_le hv] at hin hn ⊢
    rw [ext, List.length_append, List.length_replicate] at hn ⊢
    exact runDecoder_extensionBytes _ (hd hv) hin hn

/-- The bytes of the literal length read as parts of an instruction (R182, R183). -/
theorem State.readLiteralLength {len : Nat} {m : Nibble} (hd : s.dstate = .readToken)
    (hin : holdsAt s.srcByte s.ip (tokenByte (lenNibble len) m :: lenExt len))
    (hn : s.ip + (lenExt len).length < s.n) :
    (lenExt len).foldl State.readExtension (State.readToken s (lenNibble len) m) =
      State.atLiterals s (1 + (lenExt len).length) len m := by
  rw [← runDecoder_literalLength hd hin hn]
  obtain ⟨htok, hext⟩ := holdsAt_cons.1 hin
  rw [runDecoder_add, runDecoder_one (by rw [hd]; rfl), decoderStep_eq_readToken hd, htok, tokenLit_tokenByte,
    tokenMatch_tokenByte]
  rcases State.readToken_cases s (lenNibble len) m with ⟨hend, -⟩ | ⟨-, htoken⟩
  · omega
  · rw [htoken]
    refine (runDecoder_lenExt (fun hlen => .inl ?_) hext (by show s.ip + 1 + _ ≤ s.n; omega)).symm
    rw [lenNibble_of_le hlen]
    rfl

theorem State.readLiteralPart_eq {lits : List Byte} {m : Nibble} (hd : s.dstate = .readToken)
    (hin : holdsAt s.srcByte s.ip (encodeLast lits m)) (hn : s.ip + (encodeLast lits m).length ≤ s.n) :
    State.readLiteralPart s lits m =
      State.copyLiterals (State.atLiterals s (1 + (lenExt lits.length).length) lits.length m) lits := by
  rw [encodeLast, ← List.cons_append] at hin
  have hsize := encodeLast_length lits m
  unfold State.readLiteralPart
  dsimp only
  rw [State.readLiteralLength hd (holdsAt_append.1 hin).1 (by omega)]
  rfl

/-- The first three parts of a sequence are steps of the decoder, whether the literals fit or not (R182 to R185). -/
theorem runDecoder_readLiteralPart {lits : List Byte} {m : Nibble} (hd : s.dstate = .readToken)
    (hin : holdsAt s.srcByte s.ip (encodeLast lits m)) (hn : s.ip + (encodeLast lits m).length ≤ s.n) :
    State.runDecoder (1 + (lenExt lits.length).length + 1) s = State.readLiteralPart s lits m := by
  rw [State.readLiteralPart_eq hd hin hn]
  rw [encodeLast, ← List.cons_append] at hin
  obtain ⟨hlen, hlits⟩ := holdsAt_append.1 hin
  rw [holdsAt, List.length_cons, Nat.add_comm _ 1] at hlits
  have hsize := encodeLast_length lits m
  rw [runDecoder_add, runDecoder_literalLength hd hlen (by omega), runDecoder_one rfl, decoderStep_copyLiterals rfl]
  exact congrArg _ hlits

/-- The first three parts of a sequence that more bytes follow: the literals do not fit, or the offset is due. -/
theorem State.readLiteralPart_more {lits : List Byte} {m : Nibble} (hd : s.dstate = .readToken)
    (hin : holdsAt s.srcByte s.ip (encodeLast lits m)) (hn : s.ip + (encodeLast lits m).length < s.n) :
    (State.readLiteralPart s lits m).dstate = .failed ∨
      State.readLiteralPart s lits m = { State.literalsCopied s lits m with dstate := .readOffset } := by
  have hsize := encodeLast_length lits m
  rw [State.readLiteralPart_eq hd hin hn.le]
  rcases State.copyLiterals_cases (State.atLiterals s (1 + (lenExt lits.length).length) lits.length m) lits with
    ⟨-, h⟩ | ⟨-, hcut, -⟩ | ⟨-, -, h⟩
  · exact .inl (h ▸ rfl)
  · have : s.n - (s.ip + (1 + (lenExt lits.length).length)) < lits.length := hcut
    omega
  · right
    rw [h, State.endLiterals_of_more (by show s.ip + _ + lits.length ≠ s.n; omega)]
    simp only [State.atLiterals, State.literalsCopied, hsize, Nat.add_assoc]

/-! ## The parts behind the literals -/

theorem State.whenAt_of_eq {d : DState} (h : s.dstate = d) (f : State → State) : State.whenAt s d f = f s := if_pos h

theorem State.whenAt_of_ne {d : DState} (h : s.dstate ≠ d) (f : State → State) : State.whenAt s d f = s := if_neg h

/-- The last three parts of a match sequence: offset, match extension, match copy (R186 to R188). -/
def State.readMatchPart (s : State) (d : BitVec 16) (mlen : Nat) : State :=
  State.whenAt ((lenExt (mlen - Config.minMatch)).foldl State.readExtension
    (State.whenAt s .readOffset (fun t => State.readOffset t d))) .copyMatch State.copyMatch

theorem State.readMatchSeq_eq (s : State) (lits : List Byte) (d : BitVec 16) (mlen : Nat) : State.readMatchSeq s lits d mlen =
    State.readMatchPart (State.readLiteralPart s lits (lenNibble (mlen - 4))) d mlen := rfl

theorem State.foldl_readExtension_of_failed (hd : s.dstate = .failed) (bytes : List Byte) :
    bytes.foldl State.readExtension s = s := by
  induction bytes with
  | nil => rfl
  | cons b bs ih =>
    have hstay : State.readExtension s b = s := by simp only [State.readExtension, hd]
    rw [List.foldl_cons, hstay, ih]

/-- After a failure the later parts of a sequence do nothing. -/
theorem State.readMatchPart_of_failed (hd : s.dstate = .failed) (d : BitVec 16) (mlen : Nat) :
    State.readMatchPart s d mlen = s := by
  have hfold := State.foldl_readExtension_of_failed hd (lenExt (mlen - Config.minMatch))
  rw [State.readMatchPart, State.whenAt_of_ne (d := .readOffset) (by rw [hd]; exact nofun), hfold,
    State.whenAt_of_ne (by rw [hd]; exact nofun)]

/-- The last three parts of a match sequence are steps of the decoder, whether they end well or fail (R186 to R188). -/
theorem runDecoder_readMatchPart {d : BitVec 16} {mlen : Nat} (hs : s.dstate = .readOffset)
    (hin : holdsAt s.srcByte s.ip (lowByte d :: highByte d :: lenExt (mlen - 4)))
    (hn : s.ip + (2 + (lenExt (mlen - 4)).length) ≤ s.n) (hnib : s.mnib = lenNibble (mlen - 4)) (hd : d ≠ 0)
    (hm : 4 ≤ mlen) : ∃ k, State.runDecoder k s = State.readMatchPart s d mlen := by
  have hmatch := runDecoder_matchLength (d := d) hs hin hn hnib hd
  obtain ⟨hlow, hin1⟩ := holdsAt_cons.1 hin
  obtain ⟨hhigh, hext⟩ := holdsAt_cons.1 hin1
  have hoffset : State.runDecoder 1 s = State.readOffset s d := by
    rw [runDecoder_one (by rw [hs]; rfl), decoderStep_eq_readOffset hs, hlow, hhigh, le16_lowByte_highByte]
  rw [State.readMatchPart, State.whenAt_of_eq hs]
  rcases State.readOffset_cases s d with ⟨hcut, -⟩ | ⟨-, -, hbad⟩ | ⟨-, -, hle, hgood⟩
  · omega
  · have hfailed : (State.readOffset s d).dstate = .failed := by rw [hbad]; rfl
    refine ⟨1, ?_⟩
    rw [State.foldl_readExtension_of_failed hfailed, hoffset,
      State.whenAt_of_ne (by rw [hfailed]; exact nofun)]
  · have hlength : (lenExt (mlen - 4)).foldl State.readExtension (State.readOffset s d) = State.atMatch s d mlen := by
      rw [← hmatch hle hm, runDecoder_add, hoffset, hgood]
      refine (runDecoder_lenExt (fun hlen => .inr ?_) hext (by show s.ip + 2 + _ ≤ s.n; omega)).symm
      rw [hnib, lenNibble_of_le hlen]
      rfl
    refine ⟨1 + (lenExt (mlen - 4)).length + 1, ?_⟩
    rw [runDecoder_add, hmatch hle hm, runDecoder_one rfl, decoderStep_copyMatch rfl]
    exact (congrArg (State.whenAt · .copyMatch State.copyMatch) hlength).symm

/-- A match sequence read part by part is a run of the decoder, whether it ends well or fails (R182 to R188). -/
theorem runDecoder_readMatchSeq {lits : List Byte} {d : BitVec 16} {mlen : Nat} (hs : s.dstate = .readToken)
    (hin : holdsAt s.srcByte s.ip (encodeMatch lits d mlen)) (hn : s.ip + (encodeMatch lits d mlen).length ≤ s.n)
    (hd : d ≠ 0) (hm : 4 ≤ mlen) : ∃ k, State.runDecoder k s = State.readMatchSeq s lits d mlen := by
  rw [encodeMatch_eq] at hin hn
  obtain ⟨hlits, hmatch⟩ := holdsAt_append.1 hin
  simp only [List.length_append, List.length_cons] at hn
  have hfirst := runDecoder_readLiteralPart hs hlits (by omega)
  rw [State.readMatchSeq_eq]
  rcases State.readLiteralPart_more hs hlits (by omega) with hfailed | hdue
  · exact ⟨_, by rw [State.readMatchPart_of_failed hfailed]; exact hfirst⟩
  · obtain ⟨k, hk⟩ := runDecoder_readMatchPart
      (s := { State.literalsCopied s lits (lenNibble (mlen - 4)) with dstate := .readOffset }) rfl hmatch
      (by show s.ip + _ + _ ≤ s.n; omega) rfl hd hm
    exact ⟨_ + k, by rw [runDecoder_add, hfirst, hdue, hk]⟩

/-! ## Sequences as instructions -/

theorem State.not_encoding_of_decompress (hop : s.crOp = 3) : ¬ State.encoding s = true := by
  intro henc
  rcases State.crOp_of_encoding henc with h | h <;> simp [hop] at h

theorem exec_seqLast_of_readToken (h : State.decoderAt s .readToken = true) (lits : List Byte) (m : Nibble) :
    exec (.seqLast lits m) s = .next (State.readLiteralPart s lits m) :=
  (if_neg (State.not_encoding_of_decompress (State.decoderAt_iff.1 h).2.1)).trans (if_pos h)

theorem exec_seqMatch_of_readToken (h : State.decoderAt s .readToken = true) (lits : List Byte) (d : BitVec 16) (mlen : Nat) :
    exec (.seqMatch lits d mlen) s = .next (State.readMatchSeq s lits d mlen) :=
  (if_neg (State.not_encoding_of_decompress (State.decoderAt_iff.1 h).2.1)).trans (if_pos h)

/-- The bytes at the front of the remaining input. -/
theorem holdsAt_of_slice_eq {space : Nat → Byte} {a k : Nat} {bytes rest : List Byte} (h : slice space a k = bytes ++ rest) :
    holdsAt space a bytes ∧ bytes.length ≤ k := by
  have hlen := congrArg List.length h
  rw [slice_length, List.length_append] at hlen
  exact ⟨(holdsAt_append.1 (h ▸ holdsAt_slice space a k)).1, by omega⟩

/-- Settles O42: the bytes are those of a sequence by `decodeSeq_cases`; its parts are a run of the decoder, which the elementary
steps are too. -/
theorem sequenceIsItsElements : Obligations.SequenceIsItsElements := by
  intro P s i rest hat hdecode
  obtain ⟨hb, hop, hd⟩ := State.decoderAt_iff.1 hat
  have hsteady : State.Steady s := ⟨hop, iff_of_true hb (by rw [hd]; rfl), by rw [hd]; exact nofun⟩
  suffices hrun : ∃ k t, State.runDecoder k s = t ∧ exec i s = .next t by
    obtain ⟨k, t, hk, hexec⟩ := hrun
    exact ⟨k, t, hk ▸ tickRun_eq_runDecoder P k hsteady, hexec⟩
  have hpos : s.ip < s.n := by
    by_contra hle
    rw [Nat.sub_eq_zero_of_le (Nat.not_lt.1 hle)] at hdecode
    exact decode_nil_ne_ok _ _ hdecode
  rcases decodeSeq_cases hdecode with ⟨lits, m, rfl, rfl, hbytes⟩ | ⟨lits, d, mlen, rfl, hzero, hm, hbytes⟩
  · obtain ⟨hin, hlen⟩ := holdsAt_of_slice_eq (hbytes.trans (List.append_nil _).symm)
    exact ⟨_, _, runDecoder_readLiteralPart hd hin (by omega), exec_seqLast_of_readToken hat lits m⟩
  · obtain ⟨hin, hlen⟩ := holdsAt_of_slice_eq hbytes
    obtain ⟨k, hk⟩ := runDecoder_readMatchSeq hd hin (by omega) hzero hm
    exact ⟨k, _, hk, exec_seqMatch_of_readToken hat lits d mlen⟩

end Sys2Proof.Machine

/-! # Proofs: the hash and the Fast index (spec/40_hash_index.md R100 to R102) -/

namespace Sys2Proof.Machine

variable {P : Config.Params} {src : Nat → Byte}

/-! ## The hash (R100) -/

theorem hash_lt (P : Config.Params) (src : Nat → Byte) (p log : Nat) : hash P src p log < 2 ^ log := by
  rw [hash, Nat.and_two_pow_sub_one_eq_mod]
  exact Nat.mod_lt _ (Nat.two_pow_pos log)

/-- The mask of R100 does nothing: the top `log` bits of a 32-bit number are below `2 ^ log`. -/
theorem hash_eq_div (P : Config.Params) (src : Nat → Byte) (p : Nat) {log : Nat} (hlog : log ≤ 32) :
    hash P src p log = (word4 src p * P.hashMult % 2 ^ 32) / 2 ^ (32 - log) := by
  have htop : (word4 src p * P.hashMult % 2 ^ 32) / 2 ^ (32 - log) < 2 ^ log := by
    rw [Nat.div_lt_iff_lt_mul (Nat.two_pow_pos _), ← Nat.pow_add, Nat.add_sub_cancel' hlog]
    exact Nat.mod_lt _ (Nat.two_pow_pos 32)
  rw [hash, Nat.shiftRight_eq_div_pow, Nat.and_two_pow_sub_one_eq_mod, Nat.mod_eq_of_lt htop]

/-- The hash reads nothing but the word. -/
theorem hash_eq_of_word4_eq (P : Config.Params) (log : Nat) {src' : Nat → Byte} {p q : Nat} (h : word4 src q = word4 src' p) :
    hash P src q log = hash P src' p log := by
  rw [hash, hash, h]

theorem hash_eq_zero {p : Nat} (h : word4 src p = 0) (log : Nat) : hash P src p log = 0 := by
  rw [hash, h, Nat.zero_mul, Nat.zero_mod, Nat.zero_shiftRight, Nat.zero_and]

/-- The example of R100 and R101: the word of "abcd". -/
theorem word4_abcd {p : Nat} (h0 : src p = 0x61) (h1 : src (p + 1) = 0x62) (h2 : src (p + 2) = 0x63)
    (h3 : src (p + 3) = 0x64) : word4 src p = 0x64636261 := by
  rw [word4, h0, h1, h2, h3]
  rfl

/-- The hashes of "abcd" at the two default widths. -/
theorem hash_abcd {p : Nat} (h : word4 src p = 0x64636261) :
    hash Config.params src p 12 = 1584 ∧ hash Config.params src p 15 = 12678 := by
  rw [hash, hash, h]
  decide

/-- A source with a collision at the default width: the word 0 at position 0 and the word 4181 at position 4. -/
def collidingSource (a : Nat) : Byte := if a = 4 then 0x55 else if a = 5 then 0x10 else 0

/-- Settles O10: `hash_eq_div`, `hash_lt`, and the collision of `collidingSource`. -/
theorem hashIsTopBitsOfProduct : Obligations.HashIsTopBitsOfProduct := by
  refine ⟨fun P src p log hlog => ⟨hash_eq_div P src p hlog, hash_lt P src p log, fun h => hash_eq_zero h log,
    fun _ h => hash_eq_of_word4_eq P log h⟩, fun _ _ => rfl, ⟨collidingSource, 0, 4, by decide, by decide⟩, ?_⟩
  intro src p h0 h1 h2 h3
  have hword := word4_abcd h0 h1 h2 h3
  exact ⟨hword, hash_abcd hword⟩

/-! ## The newest position with a property -/

/-- A position that has the property is the latest one below its successor. -/
theorem isLatest_succ_self {good : Nat → Prop} {q : Nat} (h : good q) : isLatest good (q + 1) (some q) :=
  ⟨Nat.lt_succ_self q, h, fun _ hlt hle => absurd hlt (by omega)⟩

/-- A position without the property changes nothing. -/
theorem isLatest_succ_of_not {good : Nat → Prop} {q : Nat} {o : Option Nat} (hq : ¬ good q) (h : isLatest good q o) :
    isLatest good (q + 1) o := by
  have hlast {p : Nat} (hp : p < q + 1) (hnone : p < q → ¬ good p) : ¬ good p := by
    rcases Nat.lt_succ_iff_lt_or_eq.1 hp with hlt | rfl
    · exact hnone hlt
    · exact hq
  cases o with
  | none => exact fun p hp => hlast hp (h p)
  | some p =>
    obtain ⟨hp, hgood, hnone⟩ := h
    exact ⟨Nat.lt_succ_of_lt hp, hgood, fun p' hp' hlt => hlast hlt (hnone p' hp')⟩

/-! ## The Fast index (R101, R102) -/

/-- Of two writes at one index the later one counts. -/
theorem Table.set_set {α : Type} (t : Table α) (a : Nat) (v w : α) : Table.set (Table.set t a v) a w = Table.set t a w := by
  induction t with
  | nil => simp [Table.set]
  | cons c t ih =>
    obtain ⟨k, u⟩ := c
    by_cases hlt : a < k
    · simp [Table.set, hlt]
    · by_cases heq : k = a
      · simp [Table.set, heq]
      · simp [Table.set, hlt, heq, ih]

/-- An insertion writes the one bucket of the hash (R101). -/
theorem get_insertFast (ht : Table Nat) (p b : Nat) : Table.get (insertFast P src ht p) b =
    if b = hash P src p P.fastHashLog then some p else Table.get ht b :=
  Table.get_set _ _ _ _

/-- A run of insertions, its last one split off. -/
theorem insertRun_succ (k : Nat) (ht : Table Nat) (p : Nat) :
    insertRun P src (k + 1) ht p = insertFast P src (insertRun P src k ht p) (p + k) := by
  induction k generalizing ht p with
  | zero => rfl
  | succ k ih => rw [insertRun, ih, insertRun, Nat.add_right_comm, Nat.add_assoc]

/-- After the positions below `q` have been inserted in order, every bucket holds its newest position (R101). -/
theorem get_insertRun_isLatest (q b : Nat) :
    isLatest (fun p => hash P src p P.fastHashLog = b) q (Table.get (insertRun P src q [] 0) b) := by
  induction q with
  | zero => exact fun p hp => absurd hp (Nat.not_lt_zero p)
  | succ q ih =>
    rw [insertRun_succ, Nat.zero_add, get_insertFast]
    split
    · next hb => exact isLatest_succ_self hb.symm
    · next hb => exact isLatest_succ_of_not (Ne.symm hb) ih

/-- Settles O11: the buckets after a run by `get_insertRun_isLatest`, one insertion by `get_insertFast`. -/
theorem fastIndexKeepsNewest : Obligations.FastIndexKeepsNewest := by
  refine ⟨fun P src q => get_insertRun_isLatest q _, fun P src ht p => ⟨get_insertFast ht p, fun _ => rfl,
    Table.set_set _ _ _ _, rfl, ?_⟩⟩
  rintro rfl rfl h0 h1 h2 h3
  have hbucket : hash Config.params src 0 Config.params.fastHashLog = 1584 := (hash_abcd (word4_abcd h0 h1 h2 h3)).1
  rw [get_insertFast, hbucket, if_pos rfl]

end Sys2Proof.Machine

/-! # Proofs: the run of a parse (spec/41_fast_compress.md R113, R123, spec/44_hc_compress.md R163, R169) -/

namespace Sys2Proof.Machine

variable {P : Config.Params} {src : Nat → Byte} {n : Nat}

/-- A parse without a bound on its matches: the matches a scan finds one after another from the finder `f` on, then the last
sequence; `g` is the finder at the end. -/
inductive ParseRun {F : Type} (scan : F → Option SeqDesc × F) (anchor : F → Nat) (n : Nat) : F → List SeqDesc × F → Prop
  | last {f g : F} (h : scan f = (none, g)) : ParseRun scan anchor n f ([.lastSeq (anchor g) (n - anchor g)], g)
  | found {f f' : F} {a l d m : Nat} {r : List SeqDesc × F} (h : scan f = (some (.matchSeq a l d m), f'))
      (hrest : ParseRun scan anchor n f' r) : ParseRun scan anchor n f (.matchSeq a l d m :: r.1, r.2)

/-- Every match moves the anchor, so that the bound on the matches never cuts a parse short (R123, R169). -/
theorem parseWith_run {F : Type} {scan : F → Option SeqDesc × F} {anchor : F → Nat} {Ok : F → Prop}
    (hscan : ∀ f, Ok f → ScanResult src n anchor Ok (anchor f) (scan f)) (hle : ∀ f, Ok f → anchor f ≤ n) {fuel : Nat}
    {f : F} (hf : Ok f) (hfuel : n < fuel + anchor f) : ParseRun scan anchor n f (parseWith scan anchor n fuel f) := by
  induction fuel generalizing f with
  | zero =>
    have := hle f hf
    omega
  | succ fuel ih =>
    have hres := hscan f hf
    unfold parseWith
    split
    · next q f' heq =>
      rw [heq] at hres
      obtain ⟨hf', l, d, m, rfl, hgood, hanchor⟩ := hres
      have := hgood.lenLow
      exact .found heq (ih hf' (by omega))
    · next f' heq => exact .last heq

theorem parseFast_run (P : Config.Params) (src : Nat → Byte) (n : Nat) :
    ParseRun (fastScan P src n (n + 1)) FastFinder.anchor n FastFinder.init (parseFast P src n) :=
  parseWith_run (fun _ hf => fastScan_result _ hf) (fun _ hf => Nat.le_trans hf.anchor_le hf.ip_le) (FastFinder.init_ok n)
    (Nat.lt_succ_self n)

theorem parseHc_run (P : Config.Params) (src : Nat → Byte) (n depth : Nat) :
    ParseRun (hcScan P src n depth (n + 1)) HcFinder.anchor n HcFinder.init (parseHc P src n depth) :=
  parseWith_run (fun _ hf => hcScan_result _ hf) (fun _ hf => Nat.le_trans hf.anchor_le hf.ip_le) (HcFinder.init_ok n)
    (Nat.lt_succ_self n)

/-- The finder a parse ends with is one whose scan has found no match. -/
theorem ParseRun.scan_none {F : Type} {scan : F → Option SeqDesc × F} {anchor : F → Nat} {f : F} {r : List SeqDesc × F}
    (h : ParseRun scan anchor n f r) : ∃ f', scan f' = (none, r.2) := by
  induction h with
  | last h => exact ⟨_, h⟩
  | found _ _ ih => exact ih

end Sys2Proof.Machine

/-! # Proofs: the choices of the Fast parse (spec/41_fast_compress.md R106, R113 to R119) -/

namespace Sys2Proof.Machine

variable {P : Config.Params} {src : Nat → Byte} {n : Nat}

/-! ## The candidate of a position (R102, R106, R114) -/

/-- There is one latest position with a property. -/
theorem isLatest_some_iff {good : Nat → Prop} {q p : Nat} {o : Option Nat} (h : isLatest good q o) :
    isLatest good q (some p) ↔ o = some p := by
  refine ⟨fun ⟨hlt, hgood, hnone⟩ => ?_, fun ho => ho ▸ h⟩
  cases o with
  | none => exact absurd hgood (h p hlt)
  | some p' =>
    obtain ⟨hlt', hgood', hnone'⟩ := h
    rcases Nat.lt_trichotomy p p' with hp | hp | hp
    · exact absurd hgood' (hnone p' hp hlt')
    · rw [hp]
    · exact absurd hgood (hnone' p hp hlt)

/-- The Fast finder of a parse at `ip`: exactly the earlier positions are in the table, in order (R103, R117, R118). -/
def fastAt (P : Config.Params) (src : Nat → Byte) (ip anchor : Nat) : FastFinder :=
  { ip := ip, anchor := anchor, ht := insertRun P src ip [] 0 }

theorem fastAt_zero : fastAt P src 0 0 = FastFinder.init := rfl

/-- A pass without a match goes on at the next position. -/
theorem fastAt_advance (ip a : Nat) :
    { fastAt P src ip a with ip := ip + 1, ht := insertFast P src (fastAt P src ip a).ht ip } = fastAt P src (ip + 1) a := by
  simp only [fastAt, insertRun_succ, Nat.zero_add]

theorem insertRun_insertRun (j k : Nat) (ht : Table Nat) (p : Nat) :
    insertRun P src k (insertRun P src j ht p) (p + j) = insertRun P src (j + k) ht p := by
  induction k with
  | zero => rfl
  | succ k ih => rw [insertRun_succ, ih, ← Nat.add_assoc, insertRun_succ, Nat.add_assoc]

/-- A match goes on at its end (R117, R118). -/
theorem fastTake_fastAt (ip a cp : Nat) : (fastTake P src n (fastAt P src ip a) cp).2 =
    fastAt P src (ip + fwdLen src n cp ip) (ip + fwdLen src n cp ip) := by
  have hrun := insertRun_insertRun (P := P) (src := src) ip (fwdLen src n cp ip) [] 0
  rw [Nat.zero_add] at hrun
  simp only [fastTake, fastAt, hrun]

/-- The valid candidate the finder looks up is the largest earlier position with the same hash, when that is valid. -/
theorem fastCand_fastAt (ip a cp : Nat) : fastCand P src (fastAt P src ip a) = some cp ↔ takeable P src ip cp := by
  have hlatest := get_insertRun_isLatest (P := P) (src := src) ip (hash P src ip P.fastHashLog)
  rw [takeable, isLatest_some_iff hlatest]
  constructor
  · exact fastCand_some
  · rintro ⟨hlook, hvalid⟩
    have hlook' : lookupFast P src (fastAt P src ip a).ht (fastAt P src ip a).ip = some cp := hlook
    simp only [fastCand, hlook']
    exact if_pos hvalid

/-! ## A scan -/

/-- What a scan from `ip` on answers: the match of the first position outside the margin that has a valid candidate, or none where
there is no such position, and then it has reached the margin. -/
inductive FastScanned (P : Config.Params) (src : Nat → Byte) (n ip a : Nat) : Option SeqDesc × FastFinder → Prop
  | taken (q cp : Nat) (hle : ip ≤ q) (hin : q + 12 < n) (hnone : ∀ p, ip ≤ p → p < q → ∀ cp', ¬ takeable P src p cp')
      (htake : takeable P src q cp) :
      FastScanned P src n ip a
        (some (.matchSeq a (q - backlen src cp q a - a) (q - cp) (backlen src cp q a + fwdLen src n cp q)),
          fastAt P src (q + fwdLen src n cp q) (q + fwdLen src n cp q))
  | margin (q : Nat) (hend : n ≤ q + 12) (hnone : ∀ p, ip ≤ p → p + 12 < n → ∀ cp, ¬ takeable P src p cp) :
      FastScanned P src n ip a (none, fastAt P src q a)

/-- A position without a valid candidate is passed over. -/
theorem FastScanned.of_succ {ip a : Nat} {r : Option SeqDesc × FastFinder} (hhere : ∀ cp, ¬ takeable P src ip cp)
    (h : FastScanned P src n (ip + 1) a r) : FastScanned P src n ip a r := by
  have hfrom : ∀ {p : Nat}, ip ≤ p → (ip + 1 ≤ p → ∀ cp, ¬ takeable P src p cp) → ∀ cp, ¬ takeable P src p cp := by
    intro p hp hlater
    rcases Nat.eq_or_lt_of_le hp with rfl | hlt
    · exact hhere
    · exact hlater hlt
  cases h with
  | taken q cp hle hin hnone htake =>
    exact .taken q cp (by omega) hin (fun p hp hlt => hfrom hp fun hp' => hnone p hp' hlt) htake
  | margin q hend hnone => exact .margin q hend fun p hp hin => hfrom hp fun hp' => hnone p hp' hin

/-- The bound on the passes never cuts a scan short (R123). -/
theorem fastScan_scanned {fuel ip : Nat} (a : Nat) (hfuel : n ≤ fuel + ip) :
    FastScanned P src n ip a (fastScan P src n fuel (fastAt P src ip a)) := by
  induction fuel generalizing ip with
  | zero => exact .margin ip (by omega) fun p hp hin => by omega
  | succ fuel ih =>
    unfold fastScan
    split
    · next hin =>
      split
      · next cp hcp =>
        rw [fastTake_fastAt]
        exact .taken ip cp (Nat.le_refl _) hin (fun p hp hlt => by omega) ((fastCand_fastAt ip a cp).1 hcp)
      · next hcp =>
        have hhere : ∀ cp, ¬ takeable P src ip cp := fun cp h =>
          nomatch hcp.symm.trans ((fastCand_fastAt ip a cp).2 h)
        change FastScanned P src n ip a (fastScan P src n fuel
          { fastAt P src ip a with ip := ip + 1, ht := insertFast P src (fastAt P src ip a).ht ip })
        rw [fastAt_advance]
        exact (ih (by omega)).of_succ hhere
    · next hin =>
      have hend : ¬ ip + 12 < n := hin
      exact .margin ip (by omega) fun p hp hq => by omega

/-- The parse from a position on, with everything before it in the table, makes the choices of R113 to R119 and ends within the
margin. -/
theorem ParseRun.fast {f : FastFinder} {r : List SeqDesc × FastFinder}
    (h : ParseRun (fastScan P src n (n + 1)) FastFinder.anchor n f r) {a : Nat} (hf : f = fastAt P src a a) :
    FastGreedy P src n r.1 ∧ n ≤ r.2.ip + 12 := by
  have hscan (a : Nat) := fastScan_scanned (P := P) (src := src) (n := n) (fuel := n + 1) (ip := a) a (by omega)
  induction h generalizing a with
  | last heq =>
    have hlast := hscan a
    rw [← hf, heq] at hlast
    cases hlast with
    | margin q hend hnone => exact ⟨⟨hnone, trivial⟩, hend⟩
  | found heq _ ih =>
    have hfound := hscan a
    rw [← hf, heq] at hfound
    cases hfound with
    | taken q cp hle hin hnone htake =>
      obtain ⟨hgreedy, hend⟩ := ih rfl
      have hback := anchor_add_backlen_le (src := src) cp hle
      exact ⟨⟨⟨q, cp, hle, hin, hnone, htake, rfl, by omega, rfl⟩, hgreedy⟩, hend⟩

theorem parseFast_greedy (P : Config.Params) (src : Nat → Byte) (n : Nat) :
    FastGreedy P src n (parseFast P src n).1 ∧ n ≤ (parseFast P src n).2.ip + 12 :=
  (parseFast_run P src n).fast fastAt_zero.symm

/-- Settles O16: the parse is well formed, and its scans take the first valid candidate, `fastScan_scanned`. -/
theorem fastParseInvariants : Obligations.FastParseInvariants := fun P src n =>
  ⟨parseFast_parseOk P src n, (parseFast_greedy P src n).1⟩

end Sys2Proof.Machine

/-! # Proofs: the parses run to the margin, and lazy matching to its end (spec/44_hc_compress.md R163, R164, R169) -/

namespace Sys2Proof.Machine

variable {P : Config.Params} {src : Nat → Byte} {n depth : Nat}

/-! ## Searches that share an index (R156) -/

theorem insertNext_nti (k : Nat) (c : Chains) : (insertNext P src k c).nti = c.nti + k := by
  induction k generalizing c with
  | zero => rfl
  | succ k ih => rw [insertNext, ih, Nat.add_assoc, Nat.add_comm 1]

theorem insertNext_insertNext (j k : Nat) (c : Chains) :
    insertNext P src k (insertNext P src j c) = insertNext P src (j + k) c := by
  induction j generalizing c with
  | zero => rw [insertNext, Nat.zero_add]
  | succ j ih => rw [insertNext, ih, Nat.add_right_comm, insertNext]

/-- Inserting up to an earlier position first makes no difference. -/
theorem insertUpto_insertUpto {q q' : Nat} (h : q ≤ q') (c : Chains) :
    insertUpto P src (insertUpto P src c q) q' = insertUpto P src c q' := by
  rw [insertUpto, insertUpto, insertNext_nti, insertNext_insertNext, insertUpto]
  congr 1
  omega

/-- A search finds the same whether or not an earlier position was searched before. -/
theorem find_find {q q' : Nat} (h : q ≤ q') (c : Chains) (a a' : Nat) :
    find P src n depth (find P src n depth c q a).2 q' a' = find P src n depth c q' a' := by
  rw [find, find, find, insertUpto_insertUpto h]

/-! ## Lazy matching (R164) -/

/-- Lazy matching without a bound, from the search position `q` with the match `m` on: it ends at the margin or where the search one
position later finds no longer match, and moves on where it finds one. -/
inductive LazyRun (n : Nat) (search : Nat → Option Found) : Nat → Found → Nat → Found → Prop
  | margin {q : Nat} {m : Found} (h : n ≤ q + 1 + 12) : LazyRun n search q m q m
  | stay {q : Nat} {m : Found} (h : ∀ m2, search (q + 1) = some m2 → m2.len ≤ m.len) : LazyRun n search q m q m
  | move {q q' : Nat} {m m2 m' : Found} (hin : q + 1 + 12 < n) (hsearch : search (q + 1) = some m2) (hlt : m.len < m2.len)
      (h : LazyRun n search (q + 1) m2 q' m') : LazyRun n search q m q' m'

/-- The bound on the moves never cuts lazy matching short, and it searches from the index it starts with. -/
theorem lazyMatch_run {search : Nat → Option Found} {fuel : Nat} {f : HcFinder} (m : Found) (hfuel : n ≤ fuel + f.ip)
    (hsearch : ∀ p, f.ip < p → search p = (find P src n depth f.chains p f.anchor).1) :
    LazyRun n search f.ip m (lazyMatch P src n depth fuel f m).2.ip (lazyMatch P src n depth fuel f m).1 := by
  induction fuel generalizing f m with
  | zero => exact .margin (by omega)
  | succ fuel ih =>
    have hnext := hsearch (f.ip + 1) (Nat.lt_succ_self _)
    unfold lazyMatch
    split
    · next hin =>
      dsimp only
      split
      · next m2 hm2 =>
        rw [hm2] at hnext
        split
        · next hlt =>
          refine .move hin hnext hlt (ih (f := { f with ip := f.ip + 1, chains := _ }) m2 ?_ fun p hp => ?_)
          · show n ≤ fuel + (f.ip + 1)
            omega
          · have hp' : f.ip + 1 < p := hp
            rw [find_find (Nat.le_of_lt hp'), hsearch p (by omega)]
        · next hle => exact .stay fun m3 hm3 => Option.some.inj (hnext.symm.trans hm3) ▸ Nat.not_lt.1 hle
      · next hnone =>
        rw [hnone] at hnext
        exact .stay fun m2 hm2 => nomatch hnext.symm.trans hm2
    · next hin => exact .margin (Nat.not_lt.1 hin)

theorem lazyMatch_anchor (fuel : Nat) (f : HcFinder) (m : Found) :
    (lazyMatch P src n depth fuel f m).2.anchor = f.anchor := by
  induction fuel generalizing f m with
  | zero => rfl
  | succ fuel ih =>
    unfold lazyMatch
    split
    · dsimp only
      split
      · split
        · exact ih _ _
        · rfl
      · rfl
    · rfl

namespace LazyRun

variable {search : Nat → Option Found} {q q' : Nat} {m m' : Found}

theorem le (h : LazyRun n search q m q' m') : q ≤ q' := by
  induction h with
  | margin => exact Nat.le_refl _
  | stay => exact Nat.le_refl _
  | move _ _ _ _ ih => exact Nat.le_of_succ_le ih

theorem eq_of_stay (h : LazyRun n search q m q' m') (hq : q' = q) : m' = m := by
  cases h with
  | margin => rfl
  | stay => rfl
  | move _ _ _ h => exact absurd h.le (by omega)

/-- The match at the end is what the last search found. -/
theorem found_last (h : LazyRun n search q m q' m') (hq : q < q') : q' + 12 < n ∧ search q' = some m' := by
  induction h with
  | margin => exact absurd hq (Nat.lt_irrefl _)
  | stay => exact absurd hq (Nat.lt_irrefl _)
  | move hin hsearch _ h ih =>
    rcases Nat.eq_or_lt_of_le h.le with rfl | hlt
    · exact ⟨hin, hsearch.trans (congrArg some (h.eq_of_stay rfl).symm)⟩
    · exact ih hlt

theorem found_first (h : LazyRun n search q m q' m') (hq : q < q') : ∃ m1, search (q + 1) = some m1 ∧ m.len < m1.len := by
  cases h with
  | margin => exact absurd hq (Nat.lt_irrefl _)
  | stay => exact absurd hq (Nat.lt_irrefl _)
  | move _ hsearch hlt _ => exact ⟨_, hsearch, hlt⟩

/-- Every search passed over is improved by the next. -/
theorem improves_between (h : LazyRun n search q m q' m') {p : Nat} (hp : q < p) (hlt : p < q') : improves search p := by
  induction h with
  | margin => omega
  | stay => omega
  | move _ hsearch _ h ih =>
    rcases Nat.eq_or_lt_of_le hp with rfl | hp'
    · obtain ⟨m1, hm1, hlen⟩ := h.found_first hlt
      exact ⟨_, m1, hsearch, hm1, hlen⟩
    · exact ih hp' hlt

theorem ended (h : LazyRun n search q m q' m') :
    n ≤ q' + 1 + 12 ∨ ∀ m2, search (q' + 1) = some m2 → m2.len ≤ m'.len := by
  induction h with
  | margin h => exact .inl h
  | stay h => exact .inr h
  | move _ _ _ _ ih => exact ih

end LazyRun

/-! ## The margin -/

/-- An HC scan without a match has reached the margin: the bound on the passes never cuts it short (R169). -/
theorem hcScan_none {fuel : Nat} {f g : HcFinder} (hfuel : n ≤ fuel + f.ip)
    (h : hcScan P src n depth fuel f = (none, g)) : n ≤ g.ip + 12 := by
  induction fuel generalizing f with
  | zero =>
    obtain rfl : f = g := congrArg Prod.snd h
    omega
  | succ fuel ih =>
    unfold hcScan at h
    split at h
    · dsimp only at h
      split at h
      · refine ih ?_ h
        show n ≤ fuel + (f.ip + 1)
        omega
      · exact nomatch h
    · next hin =>
      obtain rfl : f = g := congrArg Prod.snd h
      exact Nat.not_lt.1 hin

theorem parseHc_margin (P : Config.Params) (src : Nat → Byte) (n depth : Nat) : n ≤ (parseHc P src n depth).2.ip + 12 := by
  obtain ⟨f, hf⟩ := (parseHc_run P src n depth).scan_none
  exact hcScan_none (by omega) hf

/-- Settles O18: the scans reach the margin, and lazy matching is a `LazyRun`. -/
theorem parsesRunToTheMargin : Obligations.ParsesRunToTheMargin := by
  refine ⟨fun P src n depth => ⟨(parseFast_greedy P src n).2, parseHc_margin P src n depth⟩, ?_⟩
  intro P src n depth f f' m m' search hsearch hlazy
  have hrun := lazyMatch_run (n := n) (fuel := n) m (Nat.le_add_right n f.ip) fun p _ => hsearch p
  have hanchor := lazyMatch_anchor (P := P) (src := src) (n := n) (depth := depth) n f m
  rw [hlazy] at hrun hanchor
  exact ⟨hanchor, hrun.le, hrun.eq_of_stay, fun hlt => ⟨(hrun.found_last hlt).1, (hrun.found_last hlt).2,
    hrun.found_first hlt⟩, fun p => hrun.improves_between, hrun.ended⟩

end Sys2Proof.Machine

/-! # Proofs: inputs below 13 bytes (spec/41_fast_compress.md R121) -/

namespace Sys2Proof.Machine

variable {P : Config.Params} {src : Nat → Byte} {n : Nat}

theorem parseFast_small (hn : n < 13) : (parseFast P src n).1 = [.lastSeq 0 n] := by
  have hscan : fastScan P src n (n + 1) FastFinder.init = (none, FastFinder.init) := if_neg (by show ¬ 0 + 12 < n; omega)
  rw [parseFast, parseWith, hscan]
  rfl

theorem parseHc_small (depth : Nat) (hn : n < 13) : (parseHc P src n depth).1 = [.lastSeq 0 n] := by
  have hscan : hcScan P src n depth (n + 1) HcFinder.init = (none, HcFinder.init) := if_neg (by show ¬ 0 + 12 < n; omega)
  rw [parseHc, parseWith, hscan]
  rfl

/-- The token of a last sequence of fewer than 15 literals holds their number in its upper nibble, and no extension follows. -/
theorem encodeLast_short {lits : List Byte} (h : lits.length < 15) :
    encodeLast lits 0 = BitVec.ofNat 8 (16 * lits.length) :: lits := by
  rw [encodeLast, lenExt_of_lt h, tokenByte, lenNibble_toNat, Nat.min_eq_left (Nat.le_of_lt h)]
  rfl

theorem encodeBlock_lastSeq (src : Nat → Byte) (a l : Nat) :
    encodeBlock src [.lastSeq a l] = encodeLast (slice src a l) 0 := by
  rw [encodeBlock_cons, encode_lastSeq, encodeBlock, List.flatMap_nil, List.append_nil]

theorem encodeBlock_parseFast_small (hn : n < 13) :
    encodeBlock src (parseFast P src n).1 = BitVec.ofNat 8 (16 * n) :: slice src 0 n := by
  rw [parseFast_small hn, encodeBlock_lastSeq, encodeLast_short (by rw [slice_length]; omega), slice_length]

/-- Settles O19: no position of such an input lies outside the margin, so that no scan makes a pass. -/
theorem smallInputsAreLiterals : Obligations.SmallInputsAreLiterals := fun _ _ _ depth hn =>
  ⟨parseFast_small hn, parseHc_small depth hn, encodeBlock_parseFast_small hn, encodeBlock_parseFast_small (by decide)⟩

end Sys2Proof.Machine

/-! # Proofs: what the Sequence Encoder writes (spec/42_sequence_encoder.md R130 to R137, spec/41_fast_compress.md R110, R120) -/

namespace Sys2Proof.Machine

variable {s t : State}

/-! ## Bytes appended to DST -/

theorem holdsBytes_writeList (free : Nat → Nat → Byte) (m : Memory) (a : Nat) (bytes : List Byte) :
    holdsBytes (fun i => Memory.read free (Memory.writeList m a bytes) (a + i)) bytes := fun i hi => by
  rw [List.getElem?_eq_getElem hi]
  exact congrArg some (Memory.read_writeList_inside free bytes m a i hi).symm

theorem Memory.writeList_append (m : Memory) (a : Nat) (xs ys : List Byte) :
    Memory.writeList m a (xs ++ ys) = Memory.writeList (Memory.writeList m a xs) (a + xs.length) ys := by
  induction xs generalizing m a with
  | nil => rfl
  | cons x xs ih => rw [List.cons_append, Memory.writeList, ih, Memory.writeList, List.length_cons, Nat.add_assoc, Nat.add_comm 1]

/-- `t` is `s` with bytes appended at the output cursor. -/
structure Appended (s t : State) (bytes : List Byte) : Prop where
  holds : holdsBytes (fun i => t.dstByte (s.op + i)) bytes
  outside : State.sameDstOutside s t s.op bytes.length
  op : t.op = s.op + bytes.length

theorem State.emitSeq_of_fits {bytes : List Byte} (h : s.op + bytes.length ≤ s.cap) : State.emitSeq s bytes =
    { s with dst := Memory.writeList s.dst s.op bytes, op := s.op + bytes.length } := if_neg (Nat.not_lt.2 h)

theorem State.emitSeq_of_full {bytes : List Byte} (h : s.cap < s.op + bytes.length) : State.emitSeq s bytes =
    State.raise s .insufficientOutputSpace := if_pos h

theorem State.emitSeq_appended {bytes : List Byte} (h : s.op + bytes.length ≤ s.cap) :
    Appended s (State.emitSeq s bytes) bytes := by
  rw [State.emitSeq_of_fits h]
  exact ⟨holdsBytes_writeList _ _ _ _, fun x hx => Memory.read_writeList_outside _ _ _ _ _ hx, rfl⟩

theorem State.emitSeq_sameResults {bytes : List Byte} (h : s.op + bytes.length ≤ s.cap) :
    SameResults s (State.emitSeq s bytes) := by
  rw [State.emitSeq_of_fits h]
  constructor <;> rfl

@[simp] theorem State.emitSeq_ip (s : State) (bytes : List Byte) : (State.emitSeq s bytes).ip = s.ip := by
  rcases State.emitSeq_cases s bytes with ⟨-, h⟩ | ⟨-, h⟩ <;> rw [h]
  rfl

/-! ## The end of a compressor -/

theorem State.finish_endedOk (s : State) {count produced : Nat} (hc : count < 2 ^ 32) (hp : produced < 2 ^ 32) :
    EndedOk count produced (State.finish s count produced) :=
  ⟨rfl, Nat.mod_eq_of_lt hc, Nat.mod_eq_of_lt hp, rfl⟩

theorem State.cap_lt (s : State) : s.cap < 2 ^ 32 := s.dstCap.isLt

/-- The last bytes of a block appended, and the end of the compressor. -/
def State.emitRest (s : State) (bytes : List Byte) : State :=
  if (State.emitSeq s bytes).phase = .busy then
    State.finish (State.emitSeq s bytes) (State.emitSeq s bytes).op (State.emitSeq s bytes).op
  else State.emitSeq s bytes

theorem State.putLast_eq_emitRest (s : State) (lits : List Byte) : State.putLast s lits = State.emitRest s (encodeLast lits 0) :=
  rfl

theorem State.emitRest_of_fits {bytes : List Byte} (hb : s.phase = .busy) (h : s.op + bytes.length ≤ s.cap) :
    State.emitRest s bytes = State.finish (State.emitSeq s bytes) (s.op + bytes.length) (s.op + bytes.length) := by
  rw [State.emitRest, if_pos ((State.emitSeq_sameResults h).phase.trans hb), (State.emitSeq_appended h).op]

theorem State.emitRest_of_full {bytes : List Byte} (h : s.cap < s.op + bytes.length) :
    State.emitRest s bytes = State.raise s .insufficientOutputSpace := by
  rw [State.emitRest, State.emitSeq_of_full h, if_neg nofun]

/-! ## SEQ.MATCH and SEQ.LAST under a compressor -/

theorem State.busy_of_encoding (h : State.encoding s = true) : s.phase = .busy :=
  eq_of_beq (Bool.and_eq_true_iff.1 h).1

theorem exec_seqMatch_encoding (h : State.encoding s = true) (lits : List Byte) (d : BitVec 16) (mlen : Nat) :
    exec (.seqMatch lits d mlen) s = .next (State.emitSeq s (encodeMatch lits d mlen)) := if_pos h

theorem exec_seqLast_encoding (h : State.encoding s = true) (lits : List Byte) (mnib : Nibble) :
    exec (.seqLast lits mnib) s = .next (State.emitRest s (encodeLast lits 0)) := if_pos h

/-- Settles O41: the bytes appended by `emitSeq_appended`; SEQ.LAST then ends the compressor, `emitRest_of_fits`. -/
theorem sequencesAreWritten : Obligations.SequencesAreWritten := by
  intro s lits d mlen mnib henc
  rw [exec_seqMatch_encoding henc, exec_seqLast_encoding henc]
  have hcap := s.cap_lt
  refine ⟨fun hfits => ⟨_, rfl, ?_⟩, fun hfull => ⟨_, rfl, ?_⟩, fun hfits => ⟨_, rfl, ?_⟩, fun hfull => ⟨_, rfl, ?_⟩⟩
  · obtain ⟨hholds, houtside, hop⟩ := State.emitSeq_appended hfits
    obtain ⟨hoperands, htables, hnti, hanchor⟩ := NoSearch.emitSeq s (encodeMatch lits d mlen)
    exact ⟨hholds, houtside, hop, hoperands, htables, State.emitSeq_sameResults hfits, s.emitSeq_ip _, hanchor, hnti⟩
  · rw [State.emitSeq_of_full hfull]
    exact s.raise_failedWith _
  · obtain ⟨hholds, houtside, hop⟩ := State.emitSeq_appended hfits
    have hframe := NoSearch.putLast s lits
    rw [State.putLast_eq_emitRest, State.emitRest_of_fits (State.busy_of_encoding henc) hfits] at hframe
    obtain ⟨hoperands, htables, hnti, hanchor⟩ := hframe
    rw [State.emitRest_of_fits (State.busy_of_encoding henc) hfits]
    exact ⟨hholds, houtside, hoperands, htables, State.finish_endedOk _ (by omega) (by omega), hop, s.emitSeq_ip _, hanchor,
      hnti⟩
  · rw [State.emitRest_of_full hfull]
    exact s.raise_failedWith _

/-! ## A whole block -/

/-- COMPRESS of an input whose block fits (R110). -/
theorem State.compressFast_of_fits {P : Config.Params} {block : List Byte}
    (hblock : block = encodeBlock s.srcByte (parseFast P s.srcByte s.n).1) (h : block.length ≤ s.cap) :
    State.compressFast P s = State.finish
      { State.withFast s (parseFast P s.srcByte s.n).2 with dst := Memory.writeList s.dst 0 block, op := block.length }
      block.length block.length := by
  subst hblock
  exact if_neg (Nat.not_lt.2 h)

/-- R120, R167: the space test is exact. -/
theorem State.emitBlock_failedWith_iff (block : List Byte) :
    FailedWith .insufficientOutputSpace (State.emitBlock s block) ↔ s.cap < block.length := by
  rcases State.emitBlock_cases s block with ⟨hfull, h⟩ | ⟨hfits, h⟩ <;> rw [h]
  · exact iff_of_true (s.raise_failedWith _) hfull
  · exact iff_of_false (fun hfail => nomatch hfail.status) (Nat.not_lt.2 hfits)

theorem State.compressWith_eq_fast {P : Config.Params} (h : s.n ≤ P.maxInputSize) :
    State.compressWith P s = State.compressFast P s := if_neg (Nat.not_lt.2 h)

theorem State.compressHcWith_eq_fast {P : Config.Params} (h : s.n ≤ P.maxInputSize) (hbypass : State.hcBypass s = true) :
    State.compressHcWith P s = State.compressFast P s := (if_neg (Nat.not_lt.2 h)).trans (if_pos hbypass)

theorem State.compressHcWith_eq_chained {P : Config.Params} (h : s.n ≤ P.maxInputSize)
    (hsearch : State.hcBypass s = false) : State.compressHcWith P s = State.compressChained P s :=
  (if_neg (Nat.not_lt.2 h)).trans (if_neg (by rw [hsearch]; exact Bool.false_ne_true))

theorem exec_compress (h : s.n ≤ Config.params.maxInputSize) :
    exec .compress s = .next (State.compressFast Config.params s) :=
  congrArg Host.Outcome.next (State.compressWith_eq_fast h)

theorem exec_compressHc_of_bypass (h : s.n ≤ Config.params.maxInputSize) (hbypass : State.hcBypass s = true) :
    exec .compressHc s = .next (State.compressFast Config.params s) :=
  congrArg Host.Outcome.next (State.compressHcWith_eq_fast h hbypass)

theorem exec_compressHc_of_search (h : s.n ≤ Config.params.maxInputSize) (hsearch : State.hcBypass s = false) :
    exec .compressHc s = .next (State.compressChained Config.params s) :=
  congrArg Host.Outcome.next (State.compressHcWith_eq_chained h hsearch)

theorem State.hcBypass_eq_false (hn : 0 < s.n) (hcap : 0 < s.cap) : State.hcBypass s = false := by
  simp [State.hcBypass, Nat.ne_of_gt hn, Nat.ne_of_gt hcap]

/-- Settles O23: `compressFast` writes the block where it fits, with the frame of `compressFast_frame`. -/
theorem compressCompletes : Obligations.CompressCompletes := by
  intro s block hn hblock hfits
  obtain ⟨hoperands, hhead, hprev, hnti⟩ := s.compressFast_frame Config.params
  have hcap := s.cap_lt
  refine ⟨_, exec_compress hn, ?_⟩
  rw [State.compressFast_of_fits hblock hfits] at hoperands hhead hprev hnti ⊢
  refine ⟨State.finish_endedOk _ (by omega) (by omega), rfl, holdsBytes_iff.2 (holdsAt_writeList _ _ _ _),
    fun x hx => Memory.read_writeList_outside _ _ _ _ _ hx, hoperands, rfl, hhead, hprev, hnti, rfl, rfl, rfl, rfl, rfl⟩

/-- A parse has a last sequence, which has a token. -/
theorem encodeBlock_length_pos {src : Nat → Byte} {n a : Nat} {seqs : List SeqDesc} (h : ParseOk src n seqs a) :
    0 < (encodeBlock src seqs).length := by
  cases seqs with
  | nil => exact h.elim
  | cons q rest =>
    rw [encodeBlock_cons, List.length_append]
    cases q with
    | matchSeq => exact Nat.add_pos_left (Nat.succ_pos _) _
    | lastSeq => exact Nat.add_pos_left (Nat.succ_pos _) _

/-- Settles O25: both compressors end with `emitBlock`, whose space test is exact; a block is never empty. -/
theorem spaceTestIsExact : Obligations.SpaceTestIsExact := by
  intro s hn
  have hpos := encodeBlock_length_pos (parseFast_parseOk Config.params s.srcByte s.n)
  have hfast : FailedWith .insufficientOutputSpace (State.compressFast Config.params s) ↔
      s.cap < (encodeBlock s.srcByte (parseFast Config.params s.srcByte s.n).1).length :=
    State.emitBlock_failedWith_iff (s := State.withFast s _) _
  have hnext : ∀ {i u}, exec i s = .next u → ((∃ t, exec i s = .next t ∧ FailedWith .insufficientOutputSpace t) ↔
      FailedWith .insufficientOutputSpace u) := fun h => by simp [h]
  refine ⟨(hnext (exec_compress hn)).trans hfast, fun hexact => ⟨_, exec_compress hn, ?_⟩, fun hzero => ⟨?_, ?_⟩, ?_⟩
  · rw [State.compressFast_of_fits rfl (Nat.le_of_eq hexact.symm), State.finish_status]
  · exact (hnext (exec_compress hn)).2 (hfast.2 (by omega))
  · exact (hnext (exec_compressHc_of_bypass hn (by simp [State.hcBypass, hzero]))).2 (hfast.2 (by omega))
  · intro hin hcap
    exact (hnext (exec_compressHc_of_search hn (State.hcBypass_eq_false hin hcap))).trans
      (State.emitBlock_failedWith_iff (s := State.withHc s _) _)

end Sys2Proof.Machine

/-! # Proofs: a compressor and its elementary steps (spec/41_fast_compress.md R120, spec/46_command_interface.md R216) -/

namespace Sys2Proof.Machine

variable {P : Config.Params} {s s' t u : State}

/-! ## Ends that cannot be told apart -/

/-- The same result registers and the same DST. -/
structure SameEnd (u t : State) : Prop where
  results : SameResults u t
  dst : t.dst = u.dst

theorem SameEnd.refl (u : State) : SameEnd u u := ⟨⟨rfl, rfl, rfl, rfl⟩, rfl⟩

theorem SameEnd.trans (h : SameEnd s t) (h' : SameEnd t u) : SameEnd s u where
  results :=
    { phase := h'.results.phase.trans h.results.phase
      status := h'.results.status.trans h.results.status
      count := h'.results.count.trans h.results.count
      produced := h'.results.produced.trans h.results.produced }
  dst := h'.dst.trans h.dst

/-- What of a running compressor's state its end depends on. -/
structure SameOutput (s s' : State) : Prop where
  phase : s'.phase = s.phase
  cap : s'.cap = s.cap
  op : s'.op = s.op
  dst : s'.dst = s.dst

theorem SameOutput.emitRest (h : SameOutput s s') (hb : s.phase = .busy) (bytes : List Byte) :
    SameEnd (State.emitRest s bytes) (State.emitRest s' bytes) := by
  obtain ⟨hphase, hcap, hop, hdst⟩ := h
  rcases Nat.lt_or_ge s.cap (s.op + bytes.length) with hfull | hfits
  · rw [State.emitRest_of_full hfull, State.emitRest_of_full (by rwa [hcap, hop])]
    exact ⟨⟨rfl, rfl, rfl, rfl⟩, by rw [State.raise_dst, State.raise_dst, hcap, hdst]⟩
  · have hfits' : s'.op + bytes.length ≤ s'.cap := by rwa [hcap, hop]
    rw [State.emitRest_of_fits hb hfits, State.emitRest_of_fits (hphase.trans hb) hfits', State.emitSeq_of_fits hfits,
      State.emitSeq_of_fits hfits', hop, hdst]
    exact ⟨⟨rfl, rfl, rfl, rfl⟩, rfl⟩

/-! ## A block written in parts (R120) -/

theorem Table.dropBelow_set {α : Type} (t : Table α) {a n : Nat} (v : α) (h : a < n) :
    Table.dropBelow (Table.set t a v) n = Table.dropBelow t n := by
  have hdrop {w : α} {t' : Table α} : Table.dropBelow ((a, w) :: t') n = Table.dropBelow t' n :=
    List.filter_cons_of_neg (by simpa using h)
  induction t with
  | nil => exact hdrop
  | cons c t ih =>
    obtain ⟨k, w⟩ := c
    unfold Table.set
    split
    · exact hdrop
    · split
      · next hk =>
        subst hk
        rw [hdrop, hdrop]
      · rw [Table.dropBelow, List.filter_cons, ← Table.dropBelow, ih, Table.dropBelow, Table.dropBelow, List.filter_cons]

/-- Bytes written below `n` leave nothing behind when the bytes below `n` are forgotten (R238). -/
theorem Memory.forget_writeList {n : Nat} (bytes : List Byte) (m : Memory) {a : Nat} (h : a + bytes.length ≤ n) :
    Memory.forget (Memory.writeList m a bytes) n = Memory.forget m n := by
  induction bytes generalizing m a with
  | nil => rfl
  | cons b bs ih =>
    rw [List.length_cons] at h
    rw [Memory.writeList, ih _ (by omega), Memory.forget, Memory.write, Table.dropBelow_set _ _ (by omega), Memory.forget]

/-- A block ends as its rest does when its first bytes have been written and fit. -/
theorem State.emitRest_append {bytes : List Byte} (hb : s.phase = .busy) (hfits : s.op + bytes.length ≤ s.cap)
    (rest : List Byte) : SameEnd (State.emitRest s (bytes ++ rest)) (State.emitRest (State.emitSeq s bytes) rest) := by
  have hlen : s.op + (bytes ++ rest).length = s.op + bytes.length + rest.length := by
    rw [List.length_append, Nat.add_assoc]
  rw [State.emitSeq_of_fits hfits]
  rcases Nat.lt_or_ge s.cap (s.op + (bytes ++ rest).length) with hfull | hall
  · rw [State.emitRest_of_full hfull, State.emitRest_of_full (by rw [hlen] at hfull; exact hfull)]
    exact ⟨⟨rfl, rfl, rfl, rfl⟩, Memory.forget_writeList bytes s.dst hfits⟩
  · have hrest : s.op + bytes.length + rest.length ≤ s.cap := hlen ▸ hall
    rw [State.emitRest_of_fits hb hall, State.emitSeq_of_fits hall, hlen,
      State.emitRest_of_fits (s := { s with dst := _, op := s.op + bytes.length }) hb hrest, State.emitSeq_of_fits hrest]
    exact ⟨⟨rfl, rfl, rfl, rfl⟩, (Memory.writeList_append s.dst s.op bytes rest).symm⟩

/-- The whole block at once is its end from the first address on. -/
theorem State.emitBlock_eq_emitRest (hb : s.phase = .busy) (hop : s.op = 0) (block : List Byte) :
    State.emitBlock s block = State.emitRest s block := by
  rcases State.emitBlock_cases s block with ⟨hfull, h⟩ | ⟨hfits, h⟩
  · rw [h, State.emitRest_of_full (by rwa [hop, Nat.zero_add])]
  · have hfits' : s.op + block.length ≤ s.cap := by rwa [hop, Nat.zero_add]
    rw [h, State.emitRest_of_fits hb hfits', State.emitSeq_of_fits hfits', hop, Nat.zero_add]

/-! ## One elementary step of a compressor -/

/-- What a match finder hands over after a scan (R130): the match, or the last sequence. -/
def handOver {F : Type} (n : Nat) (anchor : F → Nat) (r : Option SeqDesc × F) : SeqDesc :=
  r.1.getD (.lastSeq (anchor r.2) (n - anchor r.2))

/-- With the operands of `s0`, the next sequence is found by the given scan, and `finder` is where a state holds the finder. -/
structure SearchesBy {F : Type} (P : Config.Params) (s0 : State) (scan : F → Option SeqDesc × F) (anchor : F → Nat)
    (finder : State → F) : Prop where
  next_instr : ∀ s, SameOperands s0 s →
    (State.nextSequence P s).2 = SeqDesc.toInstr s0.srcByte (handOver s0.n anchor (scan (finder s)))
  next_finder : ∀ s, SameOperands s0 s → finder (State.nextSequence P s).1 = (scan (finder s)).2
  emitSeq_finder : ∀ s bytes, finder (State.emitSeq s bytes) = finder s

theorem SameOperands.n (h : SameOperands s t) : t.n = s.n := congrArg BitVec.toNat h.srcLen

theorem SameOperands.cap (h : SameOperands s t) : t.cap = s.cap := congrArg BitVec.toNat h.dstCap

theorem SameOperands.srcByte (h : SameOperands s t) : t.srcByte = s.srcByte := by
  unfold State.srcByte
  rw [h.src]

theorem SameOperands.hcBypass (h : SameOperands s t) : State.hcBypass t = State.hcBypass s := by
  rw [State.hcBypass, State.hcBypass, h.n, h.cap]

/-- The Fast finder of a state. -/
def State.fastFinder (s : State) : FastFinder := { ip := s.ip, anchor := s.anchor, ht := s.ht }

/-- The HC finder of a state. -/
def State.hcFinder (s : State) : HcFinder :=
  { ip := s.ip, anchor := s.anchor, chains := { head := s.head, prev := s.prev, nti := s.nti } }

theorem State.nextSequence_fast (h : ¬ (s.crOp = 2 ∧ State.hcBypass s = false)) : State.nextSequence P s =
    (State.withFast s (fastScan P s.srcByte s.n (s.n + 1) s.fastFinder).2,
      SeqDesc.toInstr s.srcByte (handOver s.n FastFinder.anchor (fastScan P s.srcByte s.n (s.n + 1) s.fastFinder))) := by
  rw [State.nextSequence, if_neg h, State.fastFinder]
  dsimp only
  rcases fastScan P s.srcByte s.n (s.n + 1) _ with ⟨_ | q, f⟩ <;> rfl

theorem State.nextSequence_hc (h : s.crOp = 2 ∧ State.hcBypass s = false) : State.nextSequence P s =
    (State.withHc s (hcScan P s.srcByte s.n (P.depth (clampLevel s.level)) (s.n + 1) s.hcFinder).2,
      SeqDesc.toInstr s.srcByte
        (handOver s.n HcFinder.anchor (hcScan P s.srcByte s.n (P.depth (clampLevel s.level)) (s.n + 1) s.hcFinder))) := by
  rw [State.nextSequence, if_pos h, State.hcFinder]
  dsimp only
  rcases hcScan P s.srcByte s.n (P.depth (clampLevel s.level)) (s.n + 1) _ with ⟨_ | q, f⟩ <;> rfl

theorem searchesBy_fast (h : ¬ (s.crOp = 2 ∧ State.hcBypass s = false)) :
    SearchesBy P s (fastScan P s.srcByte s.n (s.n + 1)) FastFinder.anchor State.fastFinder := by
  have hnext (t) (ht : SameOperands s t) := State.nextSequence_fast (P := P) (s := t) (by rwa [ht.crOp, ht.hcBypass])
  refine ⟨fun t ht => ?_, fun t ht => ?_, fun t bytes => ?_⟩
  · rw [hnext t ht, ht.n, ht.srcByte]
  · rw [hnext t ht, ht.n, ht.srcByte]
    rfl
  · obtain ⟨-, htables, -, hanchor⟩ := NoSearch.emitSeq t bytes
    simp only [State.fastFinder, State.emitSeq_ip, htables.ht, hanchor]

theorem searchesBy_hc (h : s.crOp = 2 ∧ State.hcBypass s = false) :
    SearchesBy P s (hcScan P s.srcByte s.n (P.depth (clampLevel s.level)) (s.n + 1)) HcFinder.anchor State.hcFinder := by
  have hnext (t) (ht : SameOperands s t) := State.nextSequence_hc (P := P) (s := t) (by rwa [ht.crOp, ht.hcBypass])
  refine ⟨fun t ht => ?_, fun t ht => ?_, fun t bytes => ?_⟩
  · rw [hnext t ht, ht.n, ht.srcByte, ht.level]
  · rw [hnext t ht, ht.n, ht.srcByte, ht.level]
    rfl
  · obtain ⟨-, htables, hnti, hanchor⟩ := NoSearch.emitSeq t bytes
    simp only [State.hcFinder, State.emitSeq_ip, htables.head, htables.prev, hnti, hanchor]

/-- A finder's run writes the finder's cursors and tables only. -/
theorem State.nextSequence_frame (P : Config.Params) (s : State) :
    SameOperands s (State.nextSequence P s).1 ∧ SameOutput s (State.nextSequence P s).1 := by
  rcases State.nextSequence_cases P s with ⟨q, h⟩ | ⟨q, h⟩ <;> rw [h]
  · exact ⟨s.withFast_sameOperands _, rfl, rfl, rfl, rfl⟩
  · exact ⟨s.withHc_sameOperands _, rfl, rfl, rfl, rfl⟩

/-- An elementary step of a compressor executes the sequence it is handed. -/
theorem SearchesBy.codecTick_eq {F : Type} {s0 : State} {scan : F → Option SeqDesc × F} {anchor : F → Nat}
    {finder : State → F} (h : SearchesBy P s0 scan anchor finder) (hs : SameOperands s0 s) (hb : s.phase = .busy)
    (hop : s0.crOp = 1 ∨ s0.crOp = 2) (hn : s0.n ≤ P.maxInputSize) :
    codecTick P s = exec (SeqDesc.toInstr s0.srcByte (handOver s0.n anchor (scan (finder s)))) (State.nextSequence P s).1 ∧
      State.encoding (State.nextSequence P s).1 = true := by
  obtain ⟨hoperands, hout⟩ := s.nextSequence_frame P
  rw [codecTick_of_compressor hb (by rwa [hs.crOp]) (by rwa [hs.n]), h.next_instr s hs]
  exact ⟨rfl, State.encoding_of_busy (hout.phase.trans hb) (by rwa [hoperands.crOp, hs.crOp])⟩

/-! ## All elementary steps of a compressor -/

theorem tickRun_succ {k : Nat} (h : codecTick P s = .next t) : tickRun P (k + 1) s = tickRun P k t := by
  rw [tickRun, h]

/-- Sequence by sequence, a compressor comes to the end that the whole rest of the block gives. -/
theorem ParseRun.tickRun_end {F : Type} {s0 : State} {scan : F → Option SeqDesc × F} {anchor : F → Nat}
    {finder : State → F} {f : F} {r : List SeqDesc × F} (hrun : ParseRun scan anchor s0.n f r)
    (h : SearchesBy P s0 scan anchor finder) (hop : s0.crOp = 1 ∨ s0.crOp = 2) (hn : s0.n ≤ P.maxInputSize)
    (hs : SameOperands s0 s) (hb : s.phase = .busy) (hf : finder s = f) :
    ∃ k t, tickRun P k s = .next t ∧ SameEnd (State.emitRest s (encodeBlock s0.srcByte r.1)) t := by
  induction hrun generalizing s with
  | last heq =>
    obtain ⟨htick, henc⟩ := h.codecTick_eq hs hb hop hn
    rw [hf, heq] at htick
    rw [encodeBlock_lastSeq]
    exact ⟨1, _, tickRun_succ (htick.trans (exec_seqLast_encoding henc _ _)), (s.nextSequence_frame P).2.emitRest hb _⟩
  | @found f f' a l d m r heq _ ih =>
    obtain ⟨htick, henc⟩ := h.codecTick_eq hs hb hop hn
    obtain ⟨hoperands, hout⟩ := s.nextSequence_frame P
    have hfinder := h.next_finder s hs
    rw [hf, heq] at htick hfinder
    replace htick := htick.trans (exec_seqMatch_encoding henc _ _ _)
    rw [encodeBlock_cons, encode_matchSeq]
    generalize encodeMatch (slice s0.srcByte a l) (BitVec.ofNat 16 d) m = bytes at htick ⊢
    generalize (State.nextSequence P s).1 = s1 at htick hfinder hoperands hout
    have hb1 : s1.phase = .busy := hout.phase.trans hb
    have hsame := hout.emitRest hb (bytes ++ encodeBlock s0.srcByte r.1)
    rcases Nat.lt_or_ge s1.cap (s1.op + bytes.length) with hfull | hfits
    · refine ⟨1, _, tickRun_succ htick, ?_⟩
      rw [State.emitSeq_of_full hfull]
      rwa [State.emitRest_of_full (s := s1) (by rw [List.length_append]; omega)] at hsame
    · obtain ⟨k, t, hk, hend⟩ := ih (s := State.emitSeq s1 bytes)
        ((hs.trans hoperands).trans (NoSearch.emitSeq s1 bytes).operands)
        ((State.emitSeq_sameResults hfits).phase.trans hb1) ((h.emitSeq_finder s1 bytes).trans hfinder)
      exact ⟨k + 1, t, (tickRun_succ htick).trans hk, (hsame.trans (State.emitRest_append hb1 hfits _)).trans hend⟩

/-- The one-step end of a compressor, which has moved a finder and then writes the whole block, from the state START leaves. -/
theorem SameEnd.of_emitBlock {s1 : State} {block : List Byte} (hout : SameOutput (State.start s) s1)
    (h : SameEnd (State.emitRest (State.start s) block) t) : SameEnd (State.emitBlock s1 block) t := by
  have hback : SameOutput s1 (State.start s) := ⟨hout.phase.symm, hout.cap.symm, hout.op.symm, hout.dst.symm⟩
  rw [State.emitBlock_eq_emitRest hout.phase hout.op]
  exact (hback.emitRest hout.phase block).trans h

/-- COMPRESS, and COMPRESS_HC on empty operands (R152). -/
theorem tickRun_compressFast (hop : s.crOp = 1 ∨ s.crOp = 2) (hn : s.n ≤ P.maxInputSize)
    (hfast : ¬ (s.crOp = 2 ∧ State.hcBypass s = false)) :
    ∃ k t, tickRun P k (State.start s) = .next t ∧ SameEnd (State.compressFast P (State.start s)) t := by
  obtain ⟨k, t, hk, hend⟩ := (parseFast_run P (State.start s).srcByte (State.start s).n).tickRun_end
    (searchesBy_fast (P := P) (s := State.start s) hfast) hop hn (.refl _) rfl rfl
  exact ⟨k, t, hk, hend.of_emitBlock ⟨rfl, rfl, rfl, rfl⟩⟩

theorem execWith_compressFast (hop : s.crOp = 1 ∨ s.crOp = 2) (hn : s.n ≤ P.maxInputSize)
    (hfast : ¬ (s.crOp = 2 ∧ State.hcBypass s = false)) :
    execWith P (decodeOp s.crOp) s = .next (State.compressFast P s) := by
  rcases hop with hop | hop
  · rw [hop]
    exact congrArg Host.Outcome.next (State.compressWith_eq_fast hn)
  · have hbypass : State.hcBypass s = true := by simpa [hop] using hfast
    rw [hop]
    exact congrArg Host.Outcome.next (State.compressHcWith_eq_fast hn hbypass)

/-- COMPRESS_HC with a search. -/
theorem tickRun_compressChained (hn : s.n ≤ P.maxInputSize) (hhc : s.crOp = 2 ∧ State.hcBypass s = false) :
    ∃ k t, tickRun P k (State.start s) = .next t ∧ SameEnd (State.compressChained P (State.start s)) t := by
  obtain ⟨k, t, hk, hend⟩ := (parseHc_run P (State.start s).srcByte (State.start s).n _).tickRun_end
    (searchesBy_hc (P := P) (s := State.start s) hhc) (.inr hhc.1) hn (.refl _) rfl rfl
  exact ⟨k, t, hk, hend.of_emitBlock ⟨rfl, rfl, rfl, rfl⟩⟩

theorem execWith_compressChained (hn : s.n ≤ P.maxInputSize) (hhc : s.crOp = 2 ∧ State.hcBypass s = false) :
    execWith P (decodeOp s.crOp) s = .next (State.compressChained P s) := by
  rw [hhc.1]
  exact congrArg Host.Outcome.next (State.compressHcWith_eq_chained hn hhc.2)

theorem codecTick_tooLarge (hb : s.phase = .busy) (hop : s.crOp = 1 ∨ s.crOp = 2) (hn : P.maxInputSize < s.n) :
    codecTick P s = .next (State.raise s .inputTooLarge) := by
  rcases hop with hop | hop <;> simp [codecTick, hb, hop, compressTick, hn]

/-- The elementary steps of either compressor end as the operation in one step does. -/
theorem tickRun_compressor (P : Config.Params) (hop : s.crOp = 1 ∨ s.crOp = 2) :
    ∃ k t u, tickRun P k (State.start s) = .next t ∧ execWith P (decodeOp s.crOp) (State.start s) = .next u ∧
      u.phase = .done ∧ SameEnd u t := by
  rcases Nat.lt_or_ge P.maxInputSize s.n with hlarge | hn
  · have hinstr : decodeOp s.crOp = .compress ∨ decodeOp s.crOp = .compressHc :=
      hop.imp (fun h => by rw [h]; rfl) (fun h => by rw [h]; rfl)
    exact ⟨1, _, _, tickRun_succ (codecTick_tooLarge (s := State.start s) rfl hop hlarge),
      execWith_compressor_tooLarge hinstr hlarge, rfl, .refl _⟩
  · by_cases hhc : s.crOp = 2 ∧ State.hcBypass s = false
    · obtain ⟨k, t, hk, hend⟩ := tickRun_compressChained hn hhc
      exact ⟨k, t, _, hk, execWith_compressChained (s := State.start s) hn hhc, State.emitBlock_phase _ _, hend⟩
    · obtain ⟨k, t, hk, hend⟩ := tickRun_compressFast hop hn hhc
      exact ⟨k, t, _, hk, execWith_compressFast (s := State.start s) hop hn hhc, State.emitBlock_phase _ _, hend⟩

/-- Settles O44: by induction on the sequences of the parse, `ParseRun.tickRun_end`. -/
theorem compressorIsItsSteps : Obligations.CompressorIsItsSteps := by
  intro P s hop
  obtain ⟨k, t, u, hk, hexec, hdone, hend⟩ := tickRun_compressor P hop
  exact ⟨k, t, u, hk, hexec, hend.results, hend.results.phase.trans hdone, hend.dst⟩

end Sys2Proof.Machine

/-! # Proofs: the sizes of sequences and blocks (spec/42_sequence_encoder.md R131, R135, R136) -/

namespace Sys2Proof.Machine

/-! ## Extension bytes (R131) -/

theorem ext_length (r : Nat) : (ext r).length = r / 255 + 1 := by
  rw [ext, List.length_append, List.length_replicate]
  rfl

/-- `e(v)` of R135. -/
theorem lenExt_length (v : Nat) : (lenExt v).length = if v < 15 then 0 else (v - 15) / 255 + 1 := by
  split
  case isTrue hv => rw [lenExt_of_lt hv, List.length_nil]
  case isFalse hv => rw [lenExt_of_le (Nat.not_lt.1 hv), ext_length]

theorem lenExt_length_le (v : Nat) : (lenExt v).length ≤ v / 255 + 1 := by
  rw [lenExt_length]
  split <;> omega

/-- The fixed bytes and the length extension of a match sequence are fewer than the bytes the match covers (R136). -/
theorem matchPart_length_lt {m : Nat} (hm : 4 ≤ m) : 3 + (lenExt (m - 4)).length < m := by
  rw [lenExt_length]
  split <;> omega

/-! ## Sequences (R135) -/

theorem encodeMatch_length (lits : List Byte) (d : BitVec 16) (m : Nat) : (encodeMatch lits d m).length =
    1 + (lenExt lits.length).length + lits.length + 2 + (lenExt (m - 4)).length := by
  simp only [encodeMatch_eq, List.length_append, List.length_cons, encodeLast_length]
  omega

/-- A match of at most 18 bytes has no length extension. -/
theorem encodeMatch_nil_length {m : Nat} (hm : m ≤ 18) (d : BitVec 16) : (encodeMatch [] d m).length = 3 := by
  rw [encodeMatch_length, lenExt_of_lt (show m - 4 < 15 by omega)]
  rfl

theorem encodeMatch_length_le {m : Nat} (hm : 4 ≤ m) (lits : List Byte) (d : BitVec 16) :
    (encodeMatch lits d m).length ≤ lits.length + m + lits.length / 255 := by
  have hmatch := matchPart_length_lt hm
  have hlits := lenExt_length_le lits.length
  rw [encodeMatch_length]
  omega

theorem encodeLast_length_le (lits : List Byte) (m : Nibble) :
    (encodeLast lits m).length ≤ lits.length + lits.length / 255 + 2 := by
  have hlits := lenExt_length_le lits.length
  rw [encodeLast_length]
  omega

/-- Settles O6: the sizes are those of the fields, `encodeMatch_length` and `encodeLast_length`. -/
theorem sequenceSizes : Obligations.SequenceSizes := by
  refine ⟨fun r => ⟨rfl, ext_length r⟩, rfl, rfl, rfl, rfl, rfl, rfl, ?matchSeq, ?lastSeq⟩
  case matchSeq =>
    intro lits d m _
    have hsize := encodeMatch_length lits d m
    refine ⟨by rw [encode, hsize, lenExt_length, lenExt_length], by rw [encode]; omega, ?_⟩
    rintro rfl hm
    exact encodeMatch_nil_length hm d
  case lastSeq =>
    intro lits m
    rw [encode, encodeLast_length, lenExt_length]

/-! ## Blocks (R136) -/

theorem tiling_matchSeq {n a l d m start : Nat} {rest : List SeqDesc} :
    Tiling n (.matchSeq a l d m :: rest) start ↔ a = start ∧ 4 ≤ m ∧ Tiling n rest (a + l + m) := Iff.rfl

/-- The bound from any position of the input on: a match sequence costs no more than the bytes it covers and its literals' share
of the `div 255`. -/
theorem encodeBlock_length_le (src : Nat → Byte) {n start : Nat} {seqs : List SeqDesc} (h : Tiling n seqs start) :
    start ≤ n ∧ (encodeBlock src seqs).length ≤ (n - start) + (n - start) / 255 + 2 := by
  induction seqs generalizing start with
  | nil => exact h.elim
  | cons q rest ih =>
    cases q with
    | matchSeq a l d m =>
      obtain ⟨rfl, hm, hrest⟩ := tiling_matchSeq.1 h
      obtain ⟨hle, hblock⟩ := ih hrest
      have hseq := encodeMatch_length_le hm (slice src a l) (BitVec.ofNat 16 d)
      rw [slice_length] at hseq
      rw [encodeBlock_cons, encode_matchSeq, List.length_append]
      omega
    | lastSeq a l =>
      cases rest with
      | nil =>
        obtain ⟨rfl, rfl⟩ := h
        have hseq := encodeLast_length_le (slice src a l) 0
        rw [slice_length] at hseq
        rw [encodeBlock_lastSeq, Nat.add_sub_cancel_left]
        exact ⟨Nat.le_add_right a l, hseq⟩
      | cons => exact h.elim

/-- Settles O20: the whole block, `encodeBlock_length_le` from position 0. -/
theorem blockSizeBound : Obligations.BlockSizeBound := fun src _ _ h => (encodeBlock_length_le src h).2

end Sys2Proof.Machine

/-! # Proofs: the bound, BOUND, and the room it promises (spec/43_bound.md R140 to R144) -/

namespace Sys2Proof.Machine

variable {P : Config.Params} {n : Nat} {s : State}

/-! ## The formula (R141, R142) -/

theorem bound_of_le (h : n ≤ P.maxInputSize) : bound P n = n + n / 255 + 16 := if_pos h

theorem bound_of_lt (h : P.maxInputSize < n) : bound P n = 0 := if_neg (Nat.not_le.2 h)

/-- The formula grows with the size, so the largest bound is that of the largest admissible input. -/
theorem bound_le (P : Config.Params) (n : Nat) : bound P n ≤ P.maxInputSize + P.maxInputSize / 255 + 16 := by
  rcases Nat.lt_or_ge P.maxInputSize n with h | h
  · exact (bound_of_lt h).trans_le (Nat.zero_le _)
  · rw [bound_of_le h]
    exact Nat.add_le_add_right (Nat.add_le_add h (Nat.div_le_div_right h)) 16

theorem bound_lt_of_ok (hP : P.Ok) (n : Nat) : bound P n < 2 ^ 32 := (bound_le P n).trans_lt hP.boundFits

/-! ## BOUND (R140) -/

theorem exec_bound (s : State) : exec .bound s = .next (State.finish s (bound Config.params s.n) 0) := rfl

theorem NoSearch.finish (s : State) (count produced : Nat) : NoSearch s (State.finish s count produced) := by
  apply NoSearch.update

/-- Settles O22: `finish` writes the result registers only, and the bound fits COUNT. -/
theorem boundCompletes : Obligations.BoundCompletes := by
  intro s
  obtain ⟨hoperands, htables, hnti, hanchor⟩ := NoSearch.finish s (bound Config.params s.n) 0
  exact ⟨_, exec_bound s, State.finish_endedOk s (bound_lt_of_ok Config.params_ok s.n) (Nat.two_pow_pos 32), hoperands, htables,
    rfl, rfl, hanchor, rfl, hnti, rfl, rfl, rfl, rfl, rfl⟩

/-- Settles O21: the two branches of the formula; its maximum, `bound_le`, fits 32 bits by R8. -/
theorem boundFormula : Obligations.BoundFormula := by
  refine ⟨fun P n => ⟨fun h => ?admissible, bound_of_lt, fun hP => ⟨bound_lt_of_ok hP n, fun h => ?wide⟩⟩,
    bound_le Config.params, by decide, rfl, rfl, rfl, rfl, rfl, rfl, rfl, rfl, rfl, rfl, rfl, fun s h => ?example255⟩
  case admissible =>
    rw [bound_of_le h]
    exact ⟨rfl, Nat.le_add_left 16 _⟩
  case wide => exact bound_of_lt (hP.sizeFits.trans_le h)
  case example255 =>
    obtain ⟨t, ht, hend, -⟩ := boundCompletes s
    rw [show s.n = 255 from congrArg BitVec.toNat h] at hend
    exact ⟨t, ht, hend⟩

/-! ## A buffer of that size (R143) -/

theorem ParseOk.tiling {src : Nat → Byte} {start : Nat} {seqs : List SeqDesc} (h : ParseOk src n seqs start) :
    Tiling n seqs start := by
  induction seqs generalizing start with
  | nil => exact h
  | cons q rest ih =>
    cases q with
    | matchSeq a l d m =>
      obtain ⟨ha, hmatch, hrest⟩ := parseOk_matchSeq.1 h
      exact tiling_matchSeq.2 ⟨ha, hmatch.lenLow, ih hrest⟩
    | lastSeq a l =>
      cases rest with
      | nil => exact h
      | cons => exact h.elim

theorem State.emitBlock_status_of_fits {block : List Byte} (h : block.length ≤ s.cap) :
    (State.emitBlock s block).status = .ok := by
  rcases State.emitBlock_cases s block with ⟨hfull, -⟩ | ⟨-, hfinish⟩
  · exact absurd h (Nat.not_le.2 hfull)
  · rw [hfinish, State.finish_status]

/-- Either compressor, at any level, writes the block of a well-formed parse of its input into DST_CAP bytes (R110, R150). -/
theorem execWith_compressor_emitBlock {i : Instr} (hi : i = .compress ∨ i = .compressHc) (hn : s.n ≤ P.maxInputSize) :
    ∃ (u : State) (seqs : List SeqDesc), u.cap = s.cap ∧ ParseOk s.srcByte s.n seqs 0 ∧
      execWith P i s = .next (State.emitBlock u (encodeBlock s.srcByte seqs)) := by
  have hfast := parseFast_parseOk P s.srcByte s.n
  rcases hi with rfl | rfl
  · exact ⟨State.withFast s _, _, rfl, hfast, congrArg Host.Outcome.next (State.compressWith_eq_fast hn)⟩
  · cases hbypass : State.hcBypass s with
    | true => exact ⟨State.withFast s _, _, rfl, hfast, congrArg Host.Outcome.next (State.compressHcWith_eq_fast hn hbypass)⟩
    | false =>
      exact ⟨State.withHc s _, _, rfl, parseHc_parseOk P s.srcByte s.n _,
        congrArg Host.Outcome.next (State.compressHcWith_eq_chained hn hbypass)⟩

/-- Settles O28: a parse tiles the input, so its block meets the size bound of R136, which is below the bound of R141. -/
theorem boundBufferSuffices : Obligations.BoundBufferSuffices := by
  intro s i hi hn hcap
  obtain ⟨u, seqs, hu, hparse, hexec⟩ := execWith_compressor_emitBlock hi hn
  have hsize := blockSizeBound s.srcByte s.n seqs hparse.tiling
  have hroom : s.n + s.n / 255 + 2 ≤ bound Config.params s.n := by
    rw [bound_of_le hn]
    exact Nat.add_le_add_left (by decide) _
  have hok : (State.emitBlock u (encodeBlock s.srcByte seqs)).status = .ok :=
    State.emitBlock_status_of_fits (hu ▸ hsize.trans (hroom.trans hcap))
  refine ⟨_, (execWith_params i s).symm.trans hexec, hok, ?_, hroom⟩
  rw [(State.emitBlock_ok hok).1]
  exact hsize

end Sys2Proof.Machine

/-! # Proofs: the chained index (spec/44_hc_compress.md R154 to R158) -/

namespace Sys2Proof.Machine

variable {P : Config.Params} {src : Nat → Byte}

/-! ## One insertion (R155) -/

theorem get_head_insertHc (c : Chains) (p b : Nat) : Table.get (insertHc P src c p).head b =
    if b = hcHash P src p then some p else Table.get c.head b :=
  Table.get_set _ _ _ _

theorem get_prev_insertHc (c : Chains) (p b : Nat) : Table.get (insertHc P src c p).prev b =
    if b = p % P.chainSize then Table.get c.head (hcHash P src p) else Table.get c.prev b :=
  Table.get_put _ _ _ _

/-- The example of R155 and R159: the bucket of "aaaa". -/
theorem hcHash_aaaa {p : Nat} (h : ∀ i, i < 4 → src (p + i) = 0x61) : hcHash Config.params src p = 4761 := by
  have hword : word4 src p = 0x61616161 := by
    have h0 : src p = 0x61 := h 0 (by decide)
    rw [word4, h0, h 1 (by decide), h 2 (by decide), h 3 (by decide)]
    rfl
  rw [hcHash, hash, hword]
  decide

/-- Settles O12: the two tables after an insertion, `get_head_insertHc` and `get_prev_insertHc`. -/
theorem chainInsertGoesToFront : Obligations.ChainInsertGoesToFront := by
  refine ⟨rfl, fun src hsrc => ?_, fun P src c p => ⟨get_head_insertHc c p, get_prev_insertHc c p, rfl⟩⟩
  have hbucket : ∀ p, p ≤ 1 → hcHash Config.params src p = 4761 := fun p hp => hcHash_aaaa fun i hi => hsrc _ (by omega)
  simp only [get_head_insertHc, get_prev_insertHc, hbucket 0 (by decide), hbucket 1 (by decide)]
  exact ⟨rfl, rfl, rfl⟩

/-! ## The index of all positions below a position (R156 to R158) -/

/-- The index of the positions below `q`: everything a search at `q` reads (R156). -/
def chainsAt (P : Config.Params) (src : Nat → Byte) (q : Nat) : Chains := insertUpto P src HcFinder.init.chains q

@[simp] theorem chainsAt_nti (q : Nat) : (chainsAt P src q).nti = q :=
  (insertNext_nti _ _).trans (Nat.zero_add q)

/-- The insertions split into those below `q` and the one of `q`. -/
theorem chainsAt_succ (q : Nat) :
    chainsAt P src (q + 1) = { insertHc P src (chainsAt P src q) q with nti := q + 1 } := by
  have hsplit : insertNext P src 1 (chainsAt P src q) = chainsAt P src (q + 1) := insertNext_insertNext q 1 _
  rw [← hsplit, insertNext, insertNext, chainsAt_nti]

theorem insertUpto_chainsAt {k q : Nat} (h : k ≤ q) : insertUpto P src (chainsAt P src k) q = chainsAt P src q :=
  insertUpto_insertUpto h _

theorem insertUpto_chainsAt_of_le {k q : Nat} (h : k ≤ q) : insertUpto P src (chainsAt P src q) k = chainsAt P src q := by
  rw [insertUpto, chainsAt_nti, Nat.sub_eq_zero_of_le h, insertNext]

/-- The head of a bucket is its newest position (R157). -/
theorem get_head_chainsAt_isLatest (q b : Nat) :
    isLatest (fun p => hcHash P src p = b) q (Table.get (chainsAt P src q).head b) := by
  induction q with
  | zero => exact fun p hp => absurd hp (Nat.not_lt_zero p)
  | succ q ih =>
    rw [chainsAt_succ]
    show isLatest _ _ (Table.get (insertHc P src (chainsAt P src q) q).head b)
    rw [get_head_insertHc]
    split
    · next hb => exact isLatest_succ_self hb.symm
    · next hb => exact isLatest_succ_of_not (Ne.symm hb) ih

/-- Two positions less than CHAIN_SIZE apart have their links at different entries (R158). -/
theorem mod_ne_of_lt_add {p q k : Nat} (hlt : p < q) (hnear : q < p + k) : p % k ≠ q % k := by
  intro heq
  have hzero : (q - p) % k = 0 := Nat.sub_mod_eq_zero_of_mod_eq heq.symm
  rw [Nat.mod_eq_of_lt (by omega)] at hzero
  omega

/-- The link of a position not more than CHAIN_SIZE behind is the newest earlier position of its bucket (R157, R158): a link is
written from the head of the bucket, and overwritten first by the position CHAIN_SIZE later. -/
theorem get_prev_chainsAt_isLatest {p q : Nat} (hlt : p < q) (hnear : q ≤ p + P.chainSize) :
    isLatest (fun p' => hcHash P src p' = hcHash P src p) p (Table.get (chainsAt P src q).prev (p % P.chainSize)) := by
  induction q with
  | zero => exact absurd hlt (Nat.not_lt_zero p)
  | succ q ih =>
    rw [chainsAt_succ]
    show isLatest _ _ (Table.get (insertHc P src (chainsAt P src q) q).prev _)
    rw [get_prev_insertHc]
    rcases Nat.lt_succ_iff_lt_or_eq.1 hlt with hlt' | rfl
    · rw [if_neg (mod_ne_of_lt_add hlt' hnear)]
      exact ih hlt' (Nat.le_of_succ_le hnear)
    · rw [if_pos rfl]
      exact get_head_chainsAt_isLatest p _

/-- Settles O13: the heads by `get_head_chainsAt_isLatest`, the links by `get_prev_chainsAt_isLatest`. -/
theorem chainLinksNearestEarlier : Obligations.ChainLinksNearestEarlier :=
  ⟨fun _ _ _ _ h => ⟨insertUpto_chainsAt h, insertUpto_chainsAt_of_le h⟩, fun _ _ q _ => ⟨chainsAt_nti q,
    get_head_chainsAt_isLatest q, fun _ => get_prev_chainsAt_isLatest⟩⟩

end Sys2Proof.Machine

/-! # Proofs: the candidate search (spec/44_hc_compress.md R159 to R162) -/

namespace Sys2Proof.Machine

variable {P : Config.Params} {src : Nat → Byte} {n depth : Nat}

/-! ## The chain of a bucket (R157) -/

/-- The positions below `q` with hash `b`, nearest first. -/
def bucketBelow (P : Config.Params) (src : Nat → Byte) (b q : Nat) : List Nat :=
  (List.range q).reverse.filter (fun p => hcHash P src p == b)

theorem mem_bucketBelow {b q p : Nat} : p ∈ bucketBelow P src b q ↔ p < q ∧ hcHash P src p = b := by
  simp [bucketBelow]

theorem bucketBelow_succ (b q : Nat) : bucketBelow P src b (q + 1) =
    if hcHash P src q = b then q :: bucketBelow P src b q else bucketBelow P src b q := by
  simp [bucketBelow, List.range_succ, List.filter_cons]

theorem bucketBelow_pairwise (b q : Nat) : (bucketBelow P src b q).Pairwise (· > ·) :=
  (List.pairwise_reverse.2 List.pairwise_lt_range).filter _

theorem bucketBelow_of_isLatest_none {b q : Nat} (h : isLatest (fun p => hcHash P src p = b) q none) :
    bucketBelow P src b q = [] :=
  List.eq_nil_iff_forall_not_mem.2 fun p hp => h p (mem_bucketBelow.1 hp).1 (mem_bucketBelow.1 hp).2

/-- The chain goes on from its nearest position with the positions of the bucket below that one. -/
theorem bucketBelow_of_isLatest_some {b q p : Nat} (h : isLatest (fun p => hcHash P src p = b) q (some p)) :
    bucketBelow P src b q = p :: bucketBelow P src b p := by
  obtain ⟨hlt, hhash, hnone⟩ := h
  induction q with
  | zero => exact absurd hlt (Nat.not_lt_zero p)
  | succ q ih =>
    rw [bucketBelow_succ]
    rcases Nat.lt_succ_iff_lt_or_eq.1 hlt with hlt' | rfl
    · rw [if_neg (hnone q hlt' (Nat.lt_succ_self q))]
      exact ih hlt' fun p' hp hq => hnone p' hp (Nat.lt_succ_of_lt hq)
    · rw [if_pos hhash]

/-- The positions a walk examines of those below `b`: `examined` is this with `b = q`. -/
def examinedBelow (P : Config.Params) (src : Nat → Byte) (q depth b : Nat) : List Nat :=
  ((bucketBelow P src (hcHash P src q) b).takeWhile (fun p => decide (q - p ≤ Config.maxOffset))).take depth

theorem examinedBelow_self (q : Nat) : examinedBelow P src q depth q = examined P src q depth := rfl

/-- Examined candidates come nearest first. -/
theorem examined_pairwise (q : Nat) : (examined P src q depth).Pairwise (· > ·) :=
  (bucketBelow_pairwise (hcHash P src q) q).sublist ((List.take_sublist _ _).trans (List.takeWhile_sublist _))

/-! ## The walk (R158, R159, R162) -/

/-- The links of an index at the positions in the window behind `q` lead to the newest earlier position of the bucket. -/
def LinksInWindow (P : Config.Params) (src : Nat → Byte) (q : Nat) (prev : Table Nat) : Prop :=
  ∀ p, p < q → q - p ≤ Config.maxOffset →
    isLatest (fun p' => hcHash P src p' = hcHash P src p) p (Table.get prev (p % P.chainSize))

/-- R158: a link in the window is not overwritten before the search, because CHAIN_SIZE is at least the window. -/
theorem chainsAt_linksInWindow (hP : P.Ok) (q : Nat) : LinksInWindow P src q (chainsAt P src q).prev := by
  intro p hlt hwin
  have hbig : 65536 ≤ P.chainSize := hP.chainBig
  have hwin' : q - p ≤ 65535 := hwin
  exact get_prev_chainsAt_isLatest hlt (by omega)

/-- A walk from the newest position of the bucket below `b` judges the examined positions below `b` one after another. -/
theorem walk_eq_foldl {q anchor : Nat} {prev : Table Nat} (hlinks : LinksInWindow P src q prev) {b : Nat} (hb : b ≤ q)
    {cand : Option Nat} (hcand : isLatest (fun p => hcHash P src p = hcHash P src q) b cand) (best : Option Found) :
    walk P src n q anchor prev depth cand best =
      ((examinedBelow P src q depth b).map (candidate src n q anchor)).foldl better best := by
  induction depth generalizing b cand best with
  | zero => rfl
  | succ depth ih =>
    cases cand with
    | none =>
      rw [examinedBelow, bucketBelow_of_isLatest_none hcand]
      rfl
    | some cp =>
      have ⟨hlt, hhash, _⟩ := hcand
      rw [examinedBelow, bucketBelow_of_isLatest_some hcand, walk]
      split
      · next hwin =>
        have hlink := hlinks cp (by omega) hwin
        rw [hhash] at hlink
        rw [List.takeWhile_cons_of_pos (by simpa using hwin), List.take_succ_cons, List.map_cons, List.foldl_cons,
          ih (by omega) hlink, examinedBelow]
      · next hwin =>
        rw [List.takeWhile_cons_of_neg (by simpa using hwin)]
        rfl

theorem found_eq_foldl (hP : P.Ok) (q anchor : Nat) : found P src n depth q anchor =
    ((examined P src q depth).map (candidate src n q anchor)).foldl better none := by
  rw [← examinedBelow_self]
  exact walk_eq_foldl (chainsAt_linksInWindow hP q) (Nat.le_refl q) (get_head_chainsAt_isLatest q _) none

/-- A search finds the same from any index of earlier positions (R156). -/
theorem find_chainsAt {k q : Nat} (h : k ≤ q) (anchor : Nat) :
    find P src n depth (chainsAt P src k) q anchor = (found P src n depth q anchor, chainsAt P src q) := by
  rw [find, insertUpto_chainsAt h]
  rfl

/-! ## The selection (R161) -/

/-- `m` stands against `m'`: no shorter, and at no greater offset where they are equally long. -/
def Found.Stands (m m' : Found) : Prop := m'.len ≤ m.len ∧ (m'.len = m.len → m.offset ≤ m'.offset)

theorem Found.stands_self (m : Found) : m.Stands m := ⟨Nat.le_refl _, fun _ => Nat.le_refl _⟩

/-- `o` is a match that stands against all that `cand` gives at the positions of a list; none when there are none. -/
def IsSelected (cand : Nat → Option Found) (cps : List Nat) : Option Found → Prop
  | none => ∀ cp ∈ cps, cand cp = none
  | some m => (∃ cp ∈ cps, cand cp = some m) ∧ ∀ cp ∈ cps, ∀ m', cand cp = some m' → m.Stands m'

theorem better_none (o : Option Found) : better o none = o := by cases o <;> rfl

section

variable {cand : Nat → Option Found} {cps : List Nat} {o : Option Found} {c : Nat}

/-- A position without a match changes nothing. -/
theorem IsSelected.concat_none (h : IsSelected cand cps o) (hc : cand c = none) : IsSelected cand (cps ++ [c]) o := by
  cases o with
  | none => exact List.forall_mem_append.2 ⟨h, List.forall_mem_singleton.2 hc⟩
  | some m =>
    obtain ⟨⟨cp, hcp, hm⟩, hbest⟩ := h
    exact ⟨⟨cp, List.mem_append_left _ hcp, hm⟩,
      List.forall_mem_append.2 ⟨hbest, List.forall_mem_singleton.2 fun m' hm' => nomatch hc.symm.trans hm'⟩⟩

/-- The match of the last position is selected where it stands against those before it. -/
theorem isSelected_concat_last {m : Found} (hc : cand c = some m)
    (h : ∀ cp ∈ cps, ∀ m', cand cp = some m' → m.Stands m') : IsSelected cand (cps ++ [c]) (some m) :=
  ⟨⟨c, List.mem_append_right _ (List.mem_singleton_self c), hc⟩,
    List.forall_mem_append.2 ⟨h, List.forall_mem_singleton.2 fun _ hm' => Option.some.inj (hc.symm.trans hm') ▸ m.stands_self⟩⟩

/-- The match selected before the last position stays where it stands against that of the last. -/
theorem IsSelected.concat_of_stands {m m' : Found} (h : IsSelected cand cps (some m)) (hc : cand c = some m')
    (hstands : m.Stands m') : IsSelected cand (cps ++ [c]) (some m) := by
  obtain ⟨⟨cp, hcp, hm⟩, hbest⟩ := h
  exact ⟨⟨cp, List.mem_append_left _ hcp, hm⟩,
    List.forall_mem_append.2 ⟨hbest, List.forall_mem_singleton.2 fun _ hm' => Option.some.inj (hc.symm.trans hm') ▸ hstands⟩⟩

/-- One more position, at no smaller offset: its match is selected where it is strictly longer than the best so far. -/
theorem IsSelected.concat (h : IsSelected cand cps o)
    (hfar : ∀ cp ∈ cps, ∀ m m', cand cp = some m → cand c = some m' → m.offset ≤ m'.offset) :
    IsSelected cand (cps ++ [c]) (better o (cand c)) := by
  cases hc : cand c with
  | none =>
    rw [better_none]
    exact h.concat_none hc
  | some m' =>
    cases o with
    | none => exact isSelected_concat_last hc fun cp hcp m hm => nomatch (h cp hcp).symm.trans hm
    | some m =>
      have ⟨⟨cp, hcp, hm⟩, hbest⟩ := h
      by_cases hlt : m.len < m'.len
      · rw [better, if_pos hlt]
        refine isSelected_concat_last hc fun cp' hcp' m1 hm1 => ?_
        have hle := (hbest cp' hcp' m1 hm1).1
        exact ⟨by omega, fun heq => by omega⟩
      · rw [better, if_neg hlt]
        exact h.concat_of_stands hc ⟨Nat.not_lt.1 hlt, fun _ => hfar cp hcp m m' hm hc⟩

end

/-- Replacing the best match by a longer one only selects the longest match of positions that come nearest first. -/
theorem foldl_better_isSelected {cand : Nat → Option Found} {cps : List Nat}
    (hfar : cps.Pairwise fun c c' => ∀ m m', cand c = some m → cand c' = some m' → m.offset ≤ m'.offset) :
    IsSelected cand cps ((cps.map cand).foldl better none) := by
  induction cps using List.reverseRecOn with
  | nil => exact fun cp hcp => nomatch hcp
  | append_singleton cps c ih =>
    obtain ⟨hinit, -, hlast⟩ := List.pairwise_append.1 hfar
    rw [List.map_append, List.foldl_append]
    exact (ih hinit).concat fun cp hcp => hlast cp hcp c (List.mem_singleton_self c)

theorem candidate_offset {q anchor cp : Nat} {m : Found} (h : candidate src n q anchor cp = some m) : m.offset = q - cp := by
  unfold candidate at h
  split at h
  · exact Option.some.inj h ▸ rfl
  · exact nomatch h

/-- R161: a search selects among the examined candidates. -/
theorem found_isSelected (hP : P.Ok) (q anchor : Nat) :
    IsSelected (candidate src n q anchor) (examined P src q depth) (found P src n depth q anchor) := by
  rw [found_eq_foldl hP]
  refine foldl_better_isSelected ((examined_pairwise q).imp fun hlt m m' hm hm' => ?_)
  rw [candidate_offset hm, candidate_offset hm']
  omega

/-- Settles O14: the walk follows the chain, `walk_eq_foldl`, and selects as R161 says, `found_isSelected`. -/
theorem searchFindsLongestNearest : Obligations.SearchFindsLongestNearest := by
  rintro P src n depth k q anchor _ hP hk rfl
  have hfind := find_chainsAt (P := P) (src := src) (n := n) (depth := depth) hk anchor
  rw [chainsAt] at hfind
  have hselected := found_isSelected (src := src) (n := n) (depth := depth) hP q anchor
  rw [hfind]
  refine ⟨rfl, found_eq_foldl hP q anchor, fun hnone => ?_, fun m hm => ?_⟩
  · rwa [show found P src n depth q anchor = none from hnone] at hselected
  · rwa [show found P src n depth q anchor = some m from hm] at hselected

end Sys2Proof.Machine

/-! # Proofs: the choices of the HC parse (spec/44_hc_compress.md R163 to R166) -/

namespace Sys2Proof.Machine

variable {P : Config.Params} {src : Nat → Byte} {n depth : Nat}

/-! ## The index of a finder (R156) -/

/-- The index holds the positions below some position not beyond `b`, and nothing else. -/
def FilledWithin (P : Config.Params) (src : Nat → Byte) (b : Nat) (c : Chains) : Prop := ∃ k, k ≤ b ∧ c = chainsAt P src k

theorem FilledWithin.mono {b b' : Nat} {c : Chains} (h : FilledWithin P src b c) (hb : b ≤ b') : FilledWithin P src b' c := by
  obtain ⟨k, hk, rfl⟩ := h
  exact ⟨k, Nat.le_trans hk hb, rfl⟩

theorem FilledWithin.find_eq {q : Nat} {c : Chains} (h : FilledWithin P src q c) (anchor : Nat) :
    find P src n depth c q anchor = (found P src n depth q anchor, chainsAt P src q) := by
  obtain ⟨k, hk, rfl⟩ := h
  exact find_chainsAt hk anchor

theorem filledWithin_chainsAt (q : Nat) : FilledWithin P src q (chainsAt P src q) := ⟨q, Nat.le_refl q, rfl⟩

/-- Lazy matching searches at most one position beyond the one it ends at. -/
theorem lazyMatch_filledWithin (fuel : Nat) {f : HcFinder} (m : Found) (h : FilledWithin P src f.ip f.chains) :
    FilledWithin P src ((lazyMatch P src n depth fuel f m).2.ip + 1) (lazyMatch P src n depth fuel f m).2.chains := by
  induction fuel generalizing f m with
  | zero => exact h.mono (Nat.le_succ _)
  | succ fuel ih =>
    have hnext := filledWithin_chainsAt (P := P) (src := src) (f.ip + 1)
    unfold lazyMatch
    rw [(h.mono (Nat.le_succ _)).find_eq]
    split
    · dsimp only
      split
      · split
        · exact ih _ hnext
        · exact hnext
      · exact hnext
    · exact h.mono (Nat.le_succ _)

/-! ## Lazy matching from the first match (R164) -/

namespace LazyRun

variable {search : Nat → Option Found} {q q' : Nat} {m m' : Found}

theorem search_last (h : LazyRun n search q m q' m') (hm : search q = some m) : search q' = some m' := by
  rcases Nat.eq_or_lt_of_le h.le with rfl | hlt
  · rw [hm, h.eq_of_stay rfl]
  · exact (h.found_last hlt).2

theorem last_lt (h : LazyRun n search q m q' m') (hq : q + 12 < n) : q' + 12 < n := by
  rcases Nat.eq_or_lt_of_le h.le with rfl | hlt
  · exact hq
  · exact (h.found_last hlt).1

theorem improves_from (h : LazyRun n search q m q' m') (hm : search q = some m) {p : Nat} (hp : q ≤ p) (hlt : p < q') :
    improves search p := by
  rcases Nat.eq_or_lt_of_le hp with rfl | hp'
  · obtain ⟨m1, hm1, hlen⟩ := h.found_first hlt
    exact ⟨m, m1, hm, hm1, hlen⟩
  · exact h.improves_between hp' hlt

theorem not_improves_last (h : LazyRun n search q m q' m') (hm : search q = some m) (hin : q' + 1 + 12 < n) :
    ¬ improves search q' := by
  rintro ⟨m1, m2, hm1, hm2, hlt⟩
  obtain rfl := Option.some.inj (hm1.symm.trans (h.search_last hm))
  rcases h.ended with hend | hend
  · omega
  · exact absurd hlt (Nat.not_lt.2 (hend m2 hm2))

end LazyRun

/-- What a search from the index of all earlier positions finds may be taken. -/
theorem found_good {q a : Nat} {m : Found} (h : found P src n depth q a = some m) (ha : a ≤ q) (hq : q + 12 < n) :
    Found.Good src n a m ∧ q + 4 ≤ m.start + m.len := by
  obtain ⟨-, -, hfound⟩ := find_ok (P := P) (src := src) (n := n) (depth := depth) a (HcFinder.init_ok n).chains
    (Nat.zero_le q)
  exact (hfound m h).good ha hq

/-! ## A scan -/

/-- What a scan from `ip` on answers: the match lazy matching settles on from the first position outside the margin whose search
finds one, or none where no search finds any. -/
inductive HcScanned (P : Config.Params) (src : Nat → Byte) (n depth ip a : Nat) : Option SeqDesc × HcFinder → Prop
  | taken (i q : Nat) (m0 m : Found) (c : Chains) (hle : ip ≤ i) (hin : i + 12 < n)
      (hnone : ∀ p, ip ≤ p → p < i → found P src n depth p a = none) (hfirst : found P src n depth i a = some m0)
      (hlazy : LazyRun n (fun p => found P src n depth p a) i m0 q m) (hc : FilledWithin P src (q + 1) c) :
      HcScanned P src n depth ip a (some (.matchSeq a (m.start - a) m.offset m.len),
        { ip := m.start + m.len, anchor := m.start + m.len, chains := c })
  | margin (f : HcFinder) (ha : f.anchor = a) (hnone : ∀ p, ip ≤ p → p + 12 < n → found P src n depth p a = none) :
      HcScanned P src n depth ip a (none, f)

/-- A position whose search finds nothing is passed over. -/
theorem HcScanned.of_succ {ip a : Nat} {r : Option SeqDesc × HcFinder} (hhere : found P src n depth ip a = none)
    (h : HcScanned P src n depth (ip + 1) a r) : HcScanned P src n depth ip a r := by
  have hfrom {p : Nat} (hp : ip ≤ p) (hlater : ip + 1 ≤ p → found P src n depth p a = none) :
      found P src n depth p a = none := by
    rcases Nat.eq_or_lt_of_le hp with rfl | hlt
    · exact hhere
    · exact hlater hlt
  cases h with
  | taken i q m0 m c hle hin hnone hfirst hlazy hc =>
    exact .taken i q m0 m c (Nat.le_of_succ_le hle) hin (fun p hp hlt => hfrom hp fun hp' => hnone p hp' hlt) hfirst hlazy hc
  | margin f ha hnone => exact .margin f ha fun p hp hin => hfrom hp fun hp' => hnone p hp' hin

/-- The bound on the passes never cuts a scan short (R169). -/
theorem hcScan_scanned {fuel : Nat} {f : HcFinder} (hfuel : n ≤ fuel + f.ip) (hf : FilledWithin P src f.ip f.chains) :
    HcScanned P src n depth f.ip f.anchor (hcScan P src n depth fuel f) := by
  induction fuel generalizing f with
  | zero => exact .margin f rfl fun p hp hin => by omega
  | succ fuel ih =>
    unfold hcScan
    rw [hf.find_eq]
    have hfilled := filledWithin_chainsAt (P := P) (src := src) f.ip
    split
    · next hin =>
      dsimp only
      split
      · next hnone =>
        refine (ih (f := { f with ip := f.ip + 1, chains := _ }) ?_ (hfilled.mono (Nat.le_succ _))).of_succ hnone
        show n ≤ fuel + (f.ip + 1)
        omega
      · next m hm =>
        have hlazy := lazyMatch_run (P := P) (src := src) (n := n) (depth := depth) (fuel := n)
          (f := { f with chains := chainsAt P src f.ip }) (search := fun p => found P src n depth p f.anchor) m
          (Nat.le_add_right n _) fun p hp => by rw [(hfilled.mono (Nat.le_of_lt hp)).find_eq]
        have hc := lazyMatch_filledWithin (n := n) (depth := depth) n (f := { f with chains := chainsAt P src f.ip }) m hfilled
        rw [hcTake, lazyMatch_anchor]
        exact .taken f.ip _ m _ _ (Nat.le_refl _) hin (fun p hp hlt => by omega) hm hlazy hc
    · next hin =>
      have hend : ¬ f.ip + 12 < n := hin
      exact .margin f rfl fun p hp hq => by omega

/-- The parse from a finder between two sequences makes the choices of R163 to R165. -/
theorem ParseRun.hc {f : HcFinder} {r : List SeqDesc × HcFinder}
    (h : ParseRun (hcScan P src n depth (n + 1)) HcFinder.anchor n f r) (hip : f.ip = f.anchor)
    (hf : FilledWithin P src f.ip f.chains) : HcGreedy P src n depth r.1 := by
  induction h with
  | last heq =>
    have hlast := hcScan_scanned (n := n) (depth := depth) (fuel := n + 1) (by omega) hf
    rw [heq, hip] at hlast
    cases hlast with
    | margin _ ha hnone => exact ⟨ha ▸ hnone, trivial⟩
  | found heq _ ih =>
    have hfound := hcScan_scanned (n := n) (depth := depth) (fuel := n + 1) (by omega) hf
    rw [heq, hip] at hfound
    cases hfound with
    | taken i q m0 m c hle hin hnone hfirst hlazy hc =>
      have hlast := hlazy.search_last hfirst
      obtain ⟨hgood, hend⟩ := found_good hlast (Nat.le_trans hle hlazy.le) (hlazy.last_lt hin)
      refine ⟨⟨i, q, hle, hlazy.le, hlazy.last_lt hin, hnone, fun p => hlazy.improves_from hfirst, ?_,
        hlazy.not_improves_last hfirst⟩, ih rfl (hc.mono (Nat.le_trans (Nat.add_le_add_left (by decide) q) hend))⟩
      rw [Nat.add_sub_cancel' hgood.start_le]
      exact hlast

/-- Settles O17: the parse is well formed, and its scans take what lazy matching settles on, `hcScan_scanned`. -/
theorem hcParseInvariants : Obligations.HcParseInvariants := fun P src n depth =>
  ⟨parseHc_parseOk P src n depth, (parseHc_run P src n depth).hc rfl (filledWithin_chainsAt 0)⟩

end Sys2Proof.Machine

/-! # Proofs: the ends of COMPRESS_HC (spec/44_hc_compress.md R150, R152) -/

namespace Sys2Proof.Machine

variable {s : State}

/-- COMPRESS_HC of an input whose block fits (R150). -/
theorem State.compressChained_of_fits {P : Config.Params} {block : List Byte}
    (hblock : block = encodeBlock s.srcByte (parseHc P s.srcByte s.n (P.depth (clampLevel s.level))).1)
    (h : block.length ≤ s.cap) : State.compressChained P s = State.finish
      { State.withHc s (parseHc P s.srcByte s.n (P.depth (clampLevel s.level))).2 with
        dst := Memory.writeList s.dst 0 block, op := block.length } block.length block.length := by
  subst hblock
  exact if_neg (Nat.not_lt.2 h)

/-- Settles O24: `compressChained` writes the block where it fits, with the frame of `compressChained_frame`. -/
theorem compressHcCompletes : Obligations.CompressHcCompletes := by
  intro s block hn hin hroom hblock hfits
  obtain ⟨hoperands, hht⟩ := s.compressChained_frame Config.params
  have hcap := s.cap_lt
  refine ⟨_, exec_compressHc_of_search hn (State.hcBypass_eq_false hin hroom), ?_⟩
  rw [State.compressChained_of_fits hblock hfits] at hoperands hht ⊢
  exact ⟨State.finish_endedOk _ (by omega) (by omega), rfl, holdsBytes_iff.2 (holdsAt_writeList _ _ _ _),
    fun x hx => Memory.read_writeList_outside _ _ _ _ _ hx, hoperands, hht, rfl, rfl, rfl, rfl, rfl⟩

theorem State.hcBypass_iff : State.hcBypass s = true ↔ s.n = 0 ∨ s.cap = 0 := by simp [State.hcBypass]

/-- R152, behind the size test of R112, which both compressors make. -/
theorem State.compressHcWith_eq_compressWith (P : Config.Params) (h : State.hcBypass s = true) :
    State.compressHcWith P s = State.compressWith P s := by
  rw [State.compressHcWith, if_pos h, State.compressWith]

/-- COMPRESS of the empty input writes the one byte 00 (R121). -/
theorem exec_compress_empty (hn : s.n = 0) (hcap : 0 < s.cap) :
    ∃ t, exec .compress s = .next t ∧ EndedOk 1 1 t ∧ t.dstByte 0 = 0x00 := by
  have hblock : [0x00] = encodeBlock s.srcByte (parseFast Config.params s.srcByte s.n).1 := by
    rw [hn, encodeBlock_parseFast_small (by decide)]
    rfl
  obtain ⟨t, hexec, hended, -, hholds, -⟩ := compressCompletes s _ (hn ▸ Nat.zero_le _) hblock hcap
  exact ⟨t, hexec, hended, (Option.some.inj (hholds 0 Nat.one_pos)).symm⟩

/-- Settles O27: COMPRESS_HC is COMPRESS there, `compressHcWith_eq_compressWith`, which ends as R110 and R120 say. -/
theorem hcBypassIsCompress : Obligations.HcBypassIsCompress := by
  intro s h
  have heq : exec .compressHc s = exec .compress s :=
    congrArg Host.Outcome.next (State.compressHcWith_eq_compressWith Config.params (State.hcBypass_iff.2 h))
  rw [heq]
  refine ⟨rfl, fun t ht => ?_, exec_compress_empty, fun hcap hn => ?_⟩
  · obtain rfl : State.compressWith Config.params s = t := Host.Outcome.next.inj ht
    obtain ⟨-, hhead, hprev, -⟩ := s.compressWith_frame Config.params
    exact ⟨hhead, hprev⟩
  · obtain ⟨-, -, hfull, -⟩ := spaceTestIsExact s hn
    exact (hfull hcap).1

end Sys2Proof.Machine

/-! # Proofs: a block without its last byte (spec/45_block_decoder.md R182, R184, R196) -/

namespace Sys2Proof.Machine

variable {src : Nat → Byte} {n : Nat} {P : Config.Params} {s : State}

/-- The source check of CopyLiterals, behind the destination check (R184). -/
theorem State.copyLiterals_of_cut (lits : List Byte) (hcap : s.litlen ≤ s.cap - s.op) (hcut : s.n - s.ip < s.litlen) :
    State.copyLiterals s lits = State.failDecode s .inputTruncated :=
  (if_neg (Nat.not_lt.2 hcap)).trans (if_pos hcut)

/-- The last sequence of a block without its last byte: a literal is missing (R184), or the whole sequence was the one byte of its
token (R182). -/
theorem DecodedTo.lastSeq_truncated {a l : Nat} (hs : DecodedTo src n a s) (hl : a + l = n) {bytes : List Byte}
    (hbytes : bytes = encodeLast (slice src a l) 0) (hin : holdsAt s.srcByte s.ip bytes.dropLast)
    (hn : s.ip + bytes.length = s.n + 1) :
    ∃ k v, k ≤ 2 * bytes.length ∧ State.runDecoder k s = v ∧ v.dstate = .failed ∧ FailedWith .inputTruncated v := by
  obtain ⟨hstate, rfl, hroom, -⟩ := hs
  have hlen := slice_length src s.op l
  have hsize : bytes.length = 1 + (lenExt l).length + l := by rw [hbytes, encodeLast_length, hlen]
  rcases Nat.eq_zero_or_pos l with rfl | hpos
  · refine ⟨1, _, by omega, runDecoder_one (by rw [hstate]; rfl), ?_⟩
    have hnone : s.n ≤ s.ip := by rw [lenExt_of_lt (by omega)] at hsize; simp only [List.length_nil] at hsize; omega
    rw [decoderStep_eq_readToken hstate, State.readToken, if_pos hnone]
    exact ⟨rfl, s.failDecode_failedWith _⟩
  · have hlits : slice src s.op l ≠ [] := List.ne_nil_of_length_pos (hpos.trans_eq hlen.symm)
    rw [hbytes, encodeLast, ← List.cons_append, List.dropLast_append_of_ne_nil hlits, hlen] at hin
    have hrun := runDecoder_literalLength hstate (holdsAt_append.1 hin).1 (by omega)
    refine ⟨1 + (lenExt l).length + 1, _, by omega, (runDecoder_add _ _ _).trans (congrArg _ hrun), ?_⟩
    rw [runDecoder_one rfl, decoderStep_copyLiterals rfl, State.copyLiterals_of_cut _ (show l ≤ s.cap - s.op by omega)
      (show s.n - (s.ip + (1 + (lenExt l).length)) < l by omega)]
    exact ⟨rfl, State.failDecode_failedWith _ _⟩

/-- The decoder fails at the end of a parse's block whose last byte is missing. -/
theorem runDecoder_parse_truncated {seqs : List SeqDesc} {a : Nat} (hp : ParseOk src n seqs a)
    (hs : DecodedTo src n a s) (hin : holdsAt s.srcByte s.ip (encodeBlock src seqs).dropLast)
    (hn : s.ip + (encodeBlock src seqs).length = s.n + 1) :
    ∃ k v, k ≤ 2 * (encodeBlock src seqs).length ∧ State.runDecoder k s = v ∧ v.dstate = .failed ∧
      FailedWith .inputTruncated v := by
  induction seqs generalizing a s with
  | nil => exact hp.elim
  | cons q rest ih =>
    cases q with
    | matchSeq b l d m =>
      obtain ⟨rfl, hgood, hrest⟩ := parseOk_matchSeq.1 hp
      have hpos := encodeBlock_length_pos hrest
      rw [encodeBlock_cons] at hin hn ⊢
      rw [List.dropLast_append_of_ne_nil (List.ne_nil_of_length_pos hpos)] at hin
      rw [List.length_append] at hn ⊢
      obtain ⟨hin1, hin2⟩ := holdsAt_append.1 hin
      obtain ⟨j, t, hj, hrunj, ht, hip, hsrc, htn⟩ := hs.matchSeq hgood (encode_matchSeq ..) hin1 (by omega)
      obtain ⟨k, v, hk, hrunk, hfailed⟩ := ih hrest ht (by rwa [hsrc, hip]) (by omega)
      exact ⟨j + k, v, by omega, by rw [runDecoder_add, hrunj, hrunk], hfailed⟩
    | lastSeq b l =>
      cases rest with
      | nil =>
        obtain ⟨rfl, hl⟩ := hp
        exact hs.lastSeq_truncated hl (List.append_nil _) hin hn
      | cons => exact hp.elim

/-- A compressor that ends Ok has passed the size test (R112). -/
theorem le_maxInputSize_of_ok {i : Instr} (hi : i = .compress ∨ i = .compressHc) {t : State} (hexec : execWith P i s = .next t)
    (hok : t.status = .ok) : s.n ≤ P.maxInputSize := by
  by_contra hlarge
  have hraise : execWith P i s = .next (State.raise s .inputTooLarge) := by
    rcases hi with rfl | rfl
    · exact congrArg Host.Outcome.next (if_pos (Nat.not_le.1 hlarge))
    · exact congrArg Host.Outcome.next (if_pos (Nat.not_le.1 hlarge))
  obtain rfl := Host.Outcome.next.inj (hraise.symm.trans hexec)
  exact nomatch hok

/-- Settles O31: the block is that of a well-formed parse, and the decoder fails at its last sequence,
`runDecoder_parse_truncated`. -/
theorem truncatedBlockIsReported : Obligations.TruncatedBlockIsReported := by
  intro P s t u i hi hexec hok hlen hcap hin
  obtain ⟨w, seqs, -, hparse, hblock⟩ := execWith_compressor_emitBlock hi (le_maxInputSize_of_ok hi hexec hok)
  obtain rfl := Host.Outcome.next.inj (hblock.symm.trans hexec)
  obtain ⟨hcount, hholds⟩ := State.emitBlock_ok hok
  have hstart : DecodedTo s.srcByte s.n 0 (State.enterDecoder u) :=
    ⟨rfl, rfl, (congrArg BitVec.toNat hcap).ge, fun x hx => absurd hx (Nat.not_lt_zero x)⟩
  have hbytes : holdsAt u.srcByte 0 (encodeBlock s.srcByte seqs).dropLast := holdsAt_iff.2 fun j hj => by
    rw [List.length_dropLast] at hj
    rw [Nat.zero_add, hin j (by omega), List.getElem_dropLast, ← holdsAt_iff.1 hholds j (by omega), Nat.zero_add]
  obtain ⟨k, v, hk, hrun, hfailed, hend⟩ := runDecoder_parse_truncated hparse hstart hbytes
    (by rw [State.enterDecoder_ip, State.enterDecoder_n]; omega)
  exact ⟨v, congrArg Host.Outcome.next (runDecoder_of_le hrun (by rw [hfailed]; rfl) (by omega)), hend⟩

end Sys2Proof.Machine

/-! # Proofs: every run of DECOMPRESS ends, and what it has written then (spec/45_block_decoder.md R180 to R192) -/

namespace Sys2Proof.Machine

variable {s t u : State}

/-! ## How the decoder ends -/

/-- The two ends of DECOMPRESS (R189, R190): the normal end with the whole input read, or one of its three failures. -/
inductive DecoderEnd : State → Prop where
  | done (s : State) (hip : s.ip = s.n) : DecoderEnd (State.finish { s with dstate := .done } s.ip s.op)
  | failed (s : State) {kind : ResultKind}
      (hkind : kind = .outputOverrun ∨ kind = .inputTruncated ∨ kind = .corruptOffset) :
      DecoderEnd (State.failDecode s kind)

theorem DecoderEnd.of_terminal_ite {c : Prop} [Decidable c] {d e : DState} (hd : d.terminal = false) (he : e.terminal = false)
    (h : (if c then d else e).terminal = true) : DecoderEnd t :=
  absurd h (by rw [DState.terminal_ite hd he]; exact Bool.false_ne_true)

/-- A step into Done or Failed is one of these ends (R185, R189, R190). -/
theorem State.decoderStep_end (hlive : s.dstate.terminal = false) (hend : (State.decoderStep s).dstate.terminal = true) :
    DecoderEnd (State.decoderStep s) := by
  cases hd : s.dstate with
  | readToken =>
    rw [decoderStep_eq_readToken hd] at hend ⊢
    rcases State.readToken_cases s _ _ with ⟨-, h⟩ | ⟨-, h⟩ <;> rw [h] at hend ⊢
    · exact .failed _ (.inr (.inl rfl))
    · exact .of_terminal_ite rfl rfl hend
  | readLiteralExtension | readMatchExtension =>
    rw [decoderStep_eq_readExtension (by simp [hd])] at hend ⊢
    rcases State.readExtension_cases s _ with ⟨-, -, h⟩ | ⟨-, -, h⟩ | ⟨-, -, h⟩ | ⟨-, -, h⟩ <;> rw [h] at hend ⊢
    · exact .of_terminal_ite rfl rfl hend
    · exact .of_terminal_ite rfl rfl hend
    · exact .failed _ (.inr (.inl rfl))
    · exact nomatch hlive.symm.trans hend
  | copyLiterals =>
    rw [decoderStep_copyLiterals hd] at hend ⊢
    rcases State.copyLiterals_cases s _ with ⟨-, h⟩ | ⟨-, -, h⟩ | ⟨-, -, h⟩ <;> rw [h] at hend ⊢
    · exact .failed _ (.inl rfl)
    · exact .failed _ (.inr (.inl rfl))
    · rcases State.endLiterals_cases _ with ⟨hip, h'⟩ | ⟨-, h'⟩ <;> rw [h'] at hend ⊢
      · exact .done _ hip
      · exact nomatch hend
  | readOffset =>
    rw [decoderStep_eq_readOffset hd] at hend ⊢
    rcases State.readOffset_cases s _ with ⟨-, h⟩ | ⟨-, -, h⟩ | ⟨-, -, -, h⟩ <;> rw [h] at hend ⊢
    · exact .failed _ (.inr (.inl rfl))
    · exact .failed _ (.inr (.inr rfl))
    · exact .of_terminal_ite rfl rfl hend
  | copyMatch =>
    rw [decoderStep_copyMatch hd] at hend ⊢
    rcases State.copyMatch_cases s with ⟨-, h⟩ | ⟨-, h⟩ <;> rw [h] at hend ⊢
    · exact .failed _ (.inl rfl)
    · exact nomatch hend
  | done | failed => exact nomatch (congrArg DState.terminal hd).symm.trans hlive

/-- A run with steps enough reaches an end (R192). -/
theorem State.Decoding.runDecoder_end (hs : State.Decoding s) {fuel : Nat} (hfuel : State.stepsLeft s < fuel) :
    DecoderEnd (State.runDecoder fuel s) := by
  induction fuel generalizing s with
  | zero => exact absurd hfuel (Nat.not_lt_zero _)
  | succ fuel ih =>
    rw [State.runDecoder, if_neg (by simp [hs.live])]
    rcases hs.decoderStep with ⟨-, hend⟩ | ⟨hrun, hless⟩
    · rw [runDecoder_terminal hend]
      exact State.decoderStep_end hs.live hend
    · exact ih hrun (by omega)

/-! ## What it has written -/

/-- The output from `s` to `t`: within DST_CAP, nothing beyond DST_CAP changed, and before a failure nothing at or beyond the
output cursor (R51, R238). -/
structure OutputWithin (s t : State) : Prop where
  cap : t.cap = s.cap
  op_le : t.op ≤ s.cap
  beyond : ∀ x, s.cap ≤ x → t.dstByte x = s.dstByte x
  outside : t.dstate ≠ .failed → ∀ x, t.op ≤ x → t.dstByte x = s.dstByte x

/-- Bytes written from the output cursor on, up to where the cursor is then. -/
theorem OutputWithin.extend (h : OutputWithin s t) (hlive : t.dstate ≠ .failed) (hcap : u.cap = t.cap) (hle : t.op ≤ u.op)
    (hroom : u.op ≤ t.cap) (hout : ∀ x, u.op ≤ x → u.dstByte x = t.dstByte x) : OutputWithin s u := by
  have houtside : ∀ x, u.op ≤ x → u.dstByte x = s.dstByte x := fun x hx =>
    (hout x hx).trans (h.outside hlive x (hle.trans hx))
  have hop : u.op ≤ s.cap := h.cap ▸ hroom
  exact ⟨hcap.trans h.cap, hop, fun x hx => houtside x (hop.trans hx), fun _ => houtside⟩

theorem State.endLiterals_output (s : State) : (State.endLiterals s).cap = s.cap ∧ (State.endLiterals s).op = s.op ∧
    (State.endLiterals s).dstByte = s.dstByte := by
  rcases State.endLiterals_cases s with ⟨-, h⟩ | ⟨-, h⟩ <;> rw [h] <;> exact ⟨rfl, rfl, rfl⟩

theorem OutputWithin.decoderMove (h : OutputWithin s t) (hlive : t.dstate.terminal = false) (hmove : DecoderMove t u) :
    OutputWithin s u := by
  have hlive : t.dstate ≠ .failed := fun hf => nomatch (congrArg DState.terminal hf).symm.trans hlive
  have hroom : t.op ≤ t.cap := h.cap.symm ▸ h.op_le
  cases hmove with
  | stay => exact h
  | fail =>
    exact ⟨h.cap, h.op_le, fun x hx => (Memory.read_forget_high _ t.dst (h.cap.trans_le hx)).trans (h.beyond x hx),
      fun hne => absurd rfl hne⟩
  | read => exact h.extend hlive rfl le_rfl hroom fun _ _ => rfl
  | literals bytes hcap _ =>
    obtain ⟨hcap', hop, hdst⟩ := State.endLiterals_output
      { t with dst := Memory.writeList t.dst t.op bytes, ip := t.ip + bytes.length, op := t.op + bytes.length }
    have hfits : t.op + bytes.length ≤ t.cap := by omega
    refine h.extend hlive hcap' ((Nat.le_add_right _ _).trans hop.ge) (hop.trans_le hfits) fun x hx => ?_
    rw [hdst]
    exact Memory.read_writeList_outside _ _ _ _ _ (.inr (hop.ge.trans hx))
  | copy hcap =>
    exact h.extend hlive rfl (Nat.le_add_right _ _) (by show t.op + t.mlen ≤ _; omega) fun x hx =>
      Memory.read_copySerial_outside _ _ _ _ _ _ (.inr hx)

theorem OutputWithin.runDecoder (fuel : Nat) (h : OutputWithin s t) : OutputWithin s (State.runDecoder fuel t) := by
  induction fuel generalizing t with
  | zero => exact h
  | succ fuel ih =>
    unfold State.runDecoder
    split
    · exact h
    · next hlive => exact ih (h.decoderMove (Bool.eq_false_of_not_eq_true hlive) t.decoderStep_move)

theorem OutputWithin.enterDecoder (s : State) : OutputWithin s (State.enterDecoder s) :=
  ⟨rfl, Nat.zero_le _, fun _ _ => rfl, fun _ _ _ => rfl⟩

/-- Settles O32: the fuel is more than `State.stepsLeft`, so the run reaches one of the ends of `DecoderEnd`; the bytes by
`OutputWithin`. -/
theorem decompressAlwaysEnds : Obligations.DecompressAlwaysEnds := by
  intro s
  have hend := s.enterDecoder_decoding.runDecoder_end (fuel := 2 * s.n + 2)
    (by show 2 * (s.n - 0) + 0 < 2 * s.n + 2; omega)
  have hout := (OutputWithin.enterDecoder s).runDecoder (2 * s.n + 2)
  obtain ⟨hoperands, htables, hnti, hanchor⟩ : NoSearch s (State.runDecoder (2 * s.n + 2) (State.enterDecoder s)) :=
    (NoSearch.update s _ _ _ _ _ _ _ _ _ _ _ _).trans (.runDecoder _ (State.enterDecoder s))
  refine ⟨_, rfl, hoperands, htables, hanchor, hnti, ?_⟩
  generalize State.runDecoder (2 * s.n + 2) (State.enterDecoder s) = t at hend hout hoperands
  have hn : t.n = s.n := congrArg BitVec.toNat hoperands.srcLen
  obtain ⟨-, hop, hbeyond, houtside⟩ := hout
  cases hend with
  | done u hip =>
    have hend : u.ip = s.n := hip.trans hn
    have hroom := s.cap_lt
    refine .inl ⟨rfl, ?_, hend, hop, fun x hx => houtside nofun x (by omega)⟩
    rw [← hend]
    exact State.finish_endedOk _ (hip.trans_lt u.srcLen.isLt) (hop.trans_lt hroom)
  | failed u hkind => exact .inr ⟨rfl, _, hkind, u.failDecode_failedWith _, hbeyond⟩

/-! ## The operation and its elementary steps -/

theorem State.Steady.start (hop : s.crOp = 3) : State.Steady (State.start s) :=
  ⟨hop, iff_of_true rfl rfl, nofun⟩

/-- Settles O43: `2n + 2` elementary steps are the decoder's run, `tickRun_eq_runDecoder`; START leaves the decoder where
DECOMPRESS enters it. -/
theorem decompressIsItsSteps : Obligations.DecompressIsItsSteps := fun P s hop =>
  ⟨2 * s.n + 2, le_rfl, tickRun_eq_runDecoder P _ (.start hop)⟩

end Sys2Proof.Machine

/-! # Proofs: a token, a literal run and a match copy as elementary steps (spec/45_block_decoder.md R182, R184, R188) -/

namespace Sys2Proof.Machine

variable {s : State}

/-! ## A literal run (R184, R185) -/

theorem codecTick_copyLiterals (P : Config.Params) (h : State.decoderAt s .copyLiterals = true) :
    codecTick P s = .next (State.copyLiterals s (slice s.srcByte s.ip s.litlen)) := by
  obtain ⟨hb, hop, hd⟩ := State.decoderAt_iff.1 h
  rw [codecTick_eq_decoderStep P hb hop (State.not_stuck_of_dstate hd rfl nofun), decoderStep_copyLiterals hd]

/-- The destination check of CopyLiterals, which comes first (R184, D19). -/
theorem State.copyLiterals_of_full (lits : List Byte) (h : s.cap - s.op < s.litlen) :
    State.copyLiterals s lits = State.failDecode s .outputOverrun := if_pos h

/-- A run that fits leaves these fields, but for those that the end of the run may write. -/
theorem State.copyLiterals_fields (lits : List Byte) (hcap : s.litlen ≤ s.cap - s.op) (hin : s.litlen ≤ s.n - s.ip) :
    ∃ phase status count produced dstate, State.copyLiterals s lits =
      { s with
        dst := Memory.writeList s.dst s.op lits, ip := s.ip + s.litlen, op := s.op + s.litlen
        phase := phase, status := status, count := count, produced := produced, dstate := dstate } := by
  rw [State.copyLiterals_of_fits lits hcap hin]
  exact State.endLiterals_fields _

/-- Settles O37: the two checks, and the run written before the end of the run is looked at. -/
theorem copyLiteralsRule : Obligations.CopyLiteralsRule := by
  intro P s hat hcursors
  obtain ⟨hb, -, -⟩ := State.decoderAt_iff.1 hat
  obtain ⟨-, -, hop⟩ := hcursors hb
  have hkeep := NoSearch.copyLiterals s (slice s.srcByte s.ip s.litlen)
  refine ⟨_, codecTick_copyLiterals P hat, hkeep.operands, hkeep.tables, fun hfull => ?_, fun hcap hcut => ?_,
    fun hcap hin => ?_⟩
  · rw [State.copyLiterals_of_full _ hfull]
    exact ⟨s.failDecode_failedWith _, rfl⟩
  · rw [State.copyLiterals_of_cut _ hcap hcut]
    exact ⟨s.failDecode_failedWith _, rfl⟩
  · have hlen := slice_length s.srcByte s.ip s.litlen
    obtain ⟨_, _, _, _, _, hfields⟩ := State.copyLiterals_fields (slice s.srcByte s.ip s.litlen) hcap hin
    refine ⟨fun i hi => ?_, fun x hx => ?_, hfields ▸ rfl, hfields ▸ rfl, hfields ▸ rfl, hfields ▸ rfl, fun hend => ?_,
      fun hmore => ?_⟩
    · have hi' : i < (slice s.srcByte s.ip s.litlen).length := hlen.symm ▸ hi
      rw [hfields, holdsAt_iff.1 (holdsAt_slice s.srcByte s.ip s.litlen) i hi']
      exact Memory.read_writeList_inside _ _ s.dst s.op i hi'
    · rw [hfields]
      exact Memory.read_writeList_outside _ _ s.dst _ _ (hlen.symm ▸ hx)
    · rw [State.copyLiterals_of_fits _ hcap hin, State.endLiterals_of_end hend]
      have hroom := s.cap_lt
      exact ⟨rfl, State.finish_endedOk _ s.srcLen.isLt (by show s.op + s.litlen < _; omega)⟩
    · rw [State.copyLiterals_of_fits _ hcap hin, State.endLiterals_of_more hmore]
      exact ⟨rfl, rfl, rfl, rfl, rfl⟩

/-! ## A match copy (R188) -/

theorem codecTick_copyMatch (P : Config.Params) (h : State.decoderAt s .copyMatch = true) (hle : s.offset.toNat ≤ s.op) :
    codecTick P s = .next (State.copyMatch s) := by
  obtain ⟨hb, hop, hd⟩ := State.decoderAt_iff.1 h
  have hfree : ¬ State.Stuck s := by
    rintro ⟨-, -, hterm | ⟨-, hlt⟩⟩
    · exact nomatch (congrArg DState.terminal hd).symm.trans hterm
    · exact absurd hle (Nat.not_le.2 hlt)
  rw [codecTick_eq_decoderStep P hb hop hfree, decoderStep_copyMatch hd]

/-- The byte-serial copy repeats the `off` bytes before `o` (R56). -/
theorem read_copySerial_cyclic (free : Nat → Nat → Byte) (m : Memory) {o off : Nat} (hpos : 1 ≤ off) (hle : off ≤ o) {k i : Nat}
    (hi : i < k) : Memory.read free (Memory.copySerial free m o off k) (o + i) =
      Memory.read free m (o - off + i % off) := by
  induction k generalizing i with
  | zero => exact absurd hi (Nat.not_lt_zero i)
  | succ k ih =>
    unfold Memory.copySerial
    rcases Nat.lt_or_ge i k with hik | hik
    · rw [Memory.read_write_other free _ _ (by omega), ih hik]
    · obtain rfl : i = k := by omega
      rw [Memory.read_write_same]
      rcases Nat.lt_or_ge i off with hlow | hhigh
      · rw [Memory.read_copySerial_outside free m _ _ _ _ (.inl (by omega)), Nat.mod_eq_of_lt hlow, Nat.sub_add_comm hle]
      · rw [Nat.add_sub_assoc hhigh, ih (by omega), ← Nat.mod_eq_sub_mod hhigh]

theorem State.copyMatch_of_full (h : s.cap - s.op < s.mlen) : State.copyMatch s = State.failDecode s .outputOverrun := if_pos h

theorem State.copyMatch_of_fits (h : s.mlen ≤ s.cap - s.op) : State.copyMatch s =
    { s with
      dst := Memory.copySerial Config.freeDstByte s.dst s.op s.offset.toNat s.mlen
      op := s.op + s.mlen
      dstate := .readToken } := if_neg (Nat.not_lt.2 h)

/-- Settles O40: the check, and the copy, `read_copySerial_cyclic`. -/
theorem copyMatchRule : Obligations.CopyMatchRule := by
  intro P s hat hpos hle
  obtain ⟨hoperands, htables, -, -⟩ := NoSearch.copyMatch s
  rw [codecTick_copyMatch P hat hle]
  rcases Nat.lt_or_ge (s.cap - s.op) s.mlen with hfull | hfits
  · rw [State.copyMatch_of_full hfull] at hoperands htables ⊢
    exact ⟨_, rfl, hoperands, htables, rfl, rfl, fun _ => ⟨s.failDecode_failedWith _, rfl⟩,
      fun hfits => absurd hfull (Nat.not_lt.2 hfits)⟩
  · rw [State.copyMatch_of_fits hfits] at hoperands htables ⊢
    exact ⟨_, rfl, hoperands, htables, rfl, rfl, fun hfull => absurd hfull (Nat.not_lt.2 hfits), fun _ =>
      ⟨fun i hi => read_copySerial_cyclic _ s.dst hpos hle hi,
        fun x hx => Memory.read_copySerial_outside _ s.dst _ _ _ x hx, rfl, rfl, rfl, rfl, rfl, rfl⟩⟩

/-! ## A token (R182) -/

theorem exec_token (h : State.decoderAt s .readToken = true) (l m : Nibble) :
    exec (.token l m) s = .next (State.readToken s l m) := if_pos h

theorem codecTick_readToken (P : Config.Params) (h : State.decoderAt s .readToken = true) :
    codecTick P s = exec (.token (tokenLit (s.srcByte s.ip)) (tokenMatch (s.srcByte s.ip))) s := by
  obtain ⟨hb, hop, hd⟩ := State.decoderAt_iff.1 h
  rw [codecTick_eq_decoderStep P hb hop (State.not_stuck_of_dstate hd rfl nofun), decoderStep_eq_readToken hd, exec_token h]

/-- Settles O34: `State.readToken` with a byte left and without, which the instruction and the elementary step run. -/
theorem tokenCompletes : Obligations.TokenCompletes := by
  intro P s l m hat
  refine ⟨fun hip => ⟨?_, codecTick_readToken P hat⟩, fun hend => ?_⟩
  · have hnib : l.toNat = Config.nibEsc ↔ l = 15 := BitVec.toNat_inj (y := 15)
    rw [exec_token hat, State.readToken, if_neg (Nat.not_le.2 hip)]
    simp only [hnib]
  · have hfail : ∀ l m, State.readToken s l m = State.failDecode s .inputTruncated := fun _ _ => if_pos hend
    refine ⟨State.failDecode s .inputTruncated, ?_, ?_, s.failDecode_failedWith _, rfl⟩
    · rw [codecTick_readToken P hat, exec_token hat, hfail]
    · rw [exec_token hat, hfail]

end Sys2Proof.Machine

/-! # Proofs: what a step does to PHASE (spec/46_command_interface.md R210 to R213, spec/60_exceptions.md R249) -/

namespace Sys2Proof.Machine

variable {P : Config.Params} {s t : State}

/-! ## The codec never enters IDLE (R210) -/

theorem DecoderMove.phase_ne_idle (h : DecoderMove s t) (hs : s.phase ≠ .idle) : t.phase ≠ .idle := by
  cases h with
  | stay | read | copy => exact hs
  | fail => nofun
  | literals =>
    rcases State.endLiterals_cases _ with ⟨-, h⟩ | ⟨-, h⟩ <;> rw [h]
    · nofun
    · exact hs

theorem State.emitSeq_phase_ne_idle (hs : s.phase ≠ .idle) (bytes : List Byte) : (State.emitSeq s bytes).phase ≠ .idle := by
  rcases State.emitSeq_cases s bytes with ⟨-, h⟩ | ⟨-, h⟩ <;> rw [h]
  · nofun
  · exact hs

theorem State.putLast_phase_ne_idle (hs : s.phase ≠ .idle) (lits : List Byte) : (State.putLast s lits).phase ≠ .idle := by
  rcases State.putLast_cases s lits with h | ⟨k, h⟩ <;> rw [h]
  · exact State.emitSeq_phase_ne_idle hs _
  · nofun

theorem compressTick_phase_ne_idle (hb : s.phase = .busy) (hop : s.crOp = 1 ∨ s.crOp = 2) (h : compressTick P s = .next t) :
    t.phase ≠ .idle := by
  have hrun : ∀ u : State, State.encoding u = true → u.phase ≠ .idle := fun u henc => by simp [State.busy_of_encoding henc]
  rcases compressTick_cases (P := P) hb hop with heq | ⟨henc, ⟨lits, d, m, heq⟩ | ⟨lits, heq⟩⟩ <;>
    obtain rfl := Host.Outcome.next.inj (heq.symm.trans h)
  · nofun
  · exact State.emitSeq_phase_ne_idle (hrun _ henc) _
  · exact State.putLast_phase_ne_idle (hrun _ henc) lits

theorem codecTick_phase_ne_idle (hs : s.phase ≠ .idle) (h : codecTick P s = .next t) : t.phase ≠ .idle := by
  rcases codecTick_cases P s with ⟨-, heq⟩ | ⟨-, -, heq⟩ | ⟨hb, hop, heq⟩ | ⟨hb, hop, heq⟩ <;> rw [heq] at h
  · exact Host.Outcome.next.inj h ▸ hs
  · exact Host.Outcome.next.inj h ▸ nofun
  · exact decompressTick_next hb hop h ▸ s.decoderStep_move.phase_ne_idle hs
  · exact compressTick_phase_ne_idle hb hop h

theorem State.compressWith_phase (P : Config.Params) (s : State) : (State.compressWith P s).phase = .done := by
  rcases State.compressWith_cases P s with ⟨-, h⟩ | ⟨-, h⟩ <;> rw [h]
  · rfl
  · exact State.emitBlock_phase _ _

theorem State.compressHcWith_phase (P : Config.Params) (s : State) : (State.compressHcWith P s).phase = .done := by
  rcases State.compressHcWith_cases P s with ⟨-, h⟩ | ⟨-, -, h⟩ | ⟨-, -, h⟩ <;> rw [h]
  · rfl
  · exact State.emitBlock_phase _ _
  · exact State.emitBlock_phase _ _

theorem exec_decompress_phase (h : exec .decompress s = .next t) : t.phase = .done := by
  obtain ⟨u, hu, -, -, -, -, hend⟩ := decompressAlwaysEnds s
  obtain rfl := Host.Outcome.next.inj (hu.symm.trans h)
  rcases hend with ⟨-, hok, -⟩ | ⟨-, _, -, hfailed, -⟩
  · exact hok.phase
  · exact hfailed.phase

/-- A whole operation ends in DONE (R213). -/
theorem execWith_decodeOp_phase {op : BitVec 2} (h : execWith P (decodeOp op) s = .next t) : t.phase = .done := by
  unfold decodeOp at h
  split_ifs at h
  · exact Host.Outcome.next.inj h ▸ rfl
  · exact Host.Outcome.next.inj h ▸ s.compressWith_phase P
  · exact Host.Outcome.next.inj h ▸ s.compressHcWith_phase P
  · exact exec_decompress_phase h

theorem codecRun_phase_ne_idle (hs : s.phase ≠ .idle) (h : codecRun P s = .next t) : t.phase ≠ .idle := by
  rcases codecRun_cases P s with ⟨-, -, heq⟩ | heq <;> rw [heq] at h
  · simp [execWith_decodeOp_phase h]
  · exact codecTick_phase_ne_idle hs h

/-! ## Outside BUSY the codec stays as it is (R249) -/

theorem codecTick_of_not_busy (P : Config.Params) (hb : s.phase ≠ .busy) : codecTick P s = .next s := if_neg hb

theorem codecRun_of_not_busy (P : Config.Params) (hb : s.phase ≠ .busy) : codecRun P s = .next s := by
  rw [codecRun, if_neg fun h => hb h.1, codecTick_of_not_busy P hb]

/-! ## A step -/

/-- Everything a step can do to PHASE and the results (R210, R211, R213). -/
inductive PhaseStep (s t : State) : Prop where
  /-- Outside BUSY the codec stays; a register write but START, a read, and a byte placed leave the results (R249). -/
  | keeps (hsame : SameResults s t)
  /-- The codec moves, and at the end of the operation writes the results. -/
  | runs (hb : s.phase = .busy) (ht : t.phase ≠ .idle)
  /-- R211. -/
  | starts (v : Word32) (rest : List HostAction) (hb : s.phase ≠ .busy) (hhost : s.host = .writeReg .start v :: rest)
      (hv : v.getLsbD 0 = true) (ht : t.phase = .busy)
  /-- R35, R261. -/
  | resets (rest : List HostAction) (hhost : s.host = .reset :: rest) (ht : t.phase = .idle)

/-- A move `o` of the codec from `u`, which may differ from `s` in what the host has left to do. -/
theorem PhaseStep.of_codec {u : State} {o : Host.Outcome State Fault Refusal} (hu : SameResults s u) (h : o = .next t)
    (hstay : u.phase ≠ .busy → o = .next u) (hrun : u.phase ≠ .idle → t.phase ≠ .idle) : PhaseStep s t := by
  by_cases hb : u.phase = .busy
  · exact .runs (hu.phase ▸ hb) (hrun (by simp [hb]))
  · exact .keeps (Host.Outcome.next.inj ((hstay hb).symm.trans h) ▸ hu)

theorem SameResults.withHost (s : State) (rest : List HostAction) : SameResults s { s with host := rest } := by
  constructor <;> rfl

theorem PhaseStep.codecTick {u : State} (hu : SameResults s u) (h : codecTick P u = .next t) : PhaseStep s t :=
  .of_codec hu h (codecTick_of_not_busy P) fun hs => codecTick_phase_ne_idle hs h

theorem PhaseStep.codecRun (h : codecRun P s = .next t) : PhaseStep s t :=
  .of_codec ⟨rfl, rfl, rfl, rfl⟩ h (codecRun_of_not_busy P) fun hs => codecRun_phase_ne_idle hs h

theorem PhaseStep.writeReg {r : CReg} {v : Word32} {rest : List HostAction} (hhost : s.host = .writeReg r v :: rest) :
    PhaseStep s (State.writeReg { s with host := rest } r v) := by
  rcases State.writeReg_cases { s with host := rest } r v with
    h | ⟨hb, ⟨-, h⟩ | ⟨-, h⟩ | ⟨-, h⟩ | ⟨-, h⟩ | ⟨rfl, hv, h⟩⟩ <;> rw [h]
  case inr.inr.inr.inr.inr => exact .starts v rest hb hhost hv rfl
  all_goals exact .keeps ⟨rfl, rfl, rfl, rfl⟩

theorem State.hostReadDst_sameResults (s : State) (rest : List HostAction) (a : Word32) :
    SameResults s (State.hostReadDst { s with host := rest } a) := by
  unfold State.hostReadDst
  split <;> constructor <;> rfl

theorem PhaseStep.hostStep {a : HostAction} {rest : List HostAction} (hhost : s.host = a :: rest)
    (h : hostStep P s rest a = .next t) : PhaseStep s t := by
  cases a with
  | writeReg r v => exact Host.Outcome.next.inj h ▸ .writeReg hhost
  | readReg r => exact Host.Outcome.next.inj h ▸ .keeps ⟨rfl, rfl, rfl, rfl⟩
  | writeSrc a b =>
    rcases hostWriteSrc_cases { s with host := rest } a b with ⟨-, -, heq⟩ | ⟨-, heq⟩
    · exact nomatch heq.symm.trans h
    · exact Host.Outcome.next.inj (heq.symm.trans h) ▸ .keeps ⟨rfl, rfl, rfl, rfl⟩
  | writeDst a b =>
    rcases hostWriteDst_cases { s with host := rest } a b with ⟨-, -, heq⟩ | ⟨-, heq⟩
    · exact nomatch heq.symm.trans h
    · exact Host.Outcome.next.inj (heq.symm.trans h) ▸ .keeps ⟨rfl, rfl, rfl, rfl⟩
  | readDst a => exact Host.Outcome.next.inj h ▸ .keeps (s.hostReadDst_sameResults rest a)
  | reset => exact Host.Outcome.next.inj h ▸ .resets rest hhost rfl
  | await =>
    change hostAwait P s rest = .next t at h
    unfold hostAwait at h
    split at h
    · exact .codecRun h
    · exact Host.Outcome.next.inj h ▸ .keeps (.withHost s rest)
  | tick => exact .codecTick (.withHost s rest) h

theorem PhaseStep.step (h : step s = .next t) : PhaseStep s t := by
  rcases step_cases s with ⟨-, heq⟩ | ⟨a, rest, hhost, heq⟩ <;> rw [heq] at h
  · exact .codecRun h
  · exact .hostStep hhost h

/-- Settles O52: each clause from the four cases of `PhaseStep`. -/
theorem phaseTransitions : Obligations.PhaseTransitions := by
  refine ⟨fun s t h => ?_, fun s hb hhost => ?_⟩
  · cases PhaseStep.step h with
    | keeps hsame =>
      exact ⟨fun hs ht => absurd (hsame.phase ▸ ht) hs, fun hs ht => absurd (hsame.phase ▸ ht) hs,
        fun hs => by simp [hsame.phase, hs], fun _ _ => hsame⟩
    | runs hb ht =>
      exact ⟨fun hs => absurd hb hs, fun _ hidle => absurd hidle ht, fun hs => by simp [hs] at hb,
        fun hs => by simp [hs] at hb⟩
    | starts v rest _ hhost hv ht =>
      exact ⟨fun _ _ => ⟨v, rest, hhost, hv⟩, fun _ hidle => by simp [ht] at hidle, fun _ => by simp [ht],
        fun _ hdone => by simp [ht] at hdone⟩
    | resets rest hhost ht =>
      exact ⟨fun _ hbusy => by simp [ht] at hbusy, fun _ _ => ⟨rest, hhost⟩, fun _ => by simp [ht],
        fun _ hdone => by simp [ht] at hdone⟩
  · rw [step_of_no_host hhost, codecRun_of_not_busy _ hb]

end Sys2Proof.Machine

/-! # Proofs: DST after an operation (spec/60_exceptions.md R238) -/

namespace Sys2Proof.Machine

variable {s t : State}

/-- What R238 says of DST for an operation that goes from `s` to `t`. -/
structure DstEnd (s t : State) : Prop where
  failed : t.status ≠ .ok → State.dstDrawn s t
  ended : t.status = .ok → ∀ x, t.produced.toNat ≤ x → t.dstByte x = s.dstByte x

/-- `raise` draws DST[0..DST_CAP) anew (R236, R238). -/
theorem State.raise_dstDrawn (s : State) (kind : ResultKind) : State.dstDrawn s (State.raise s kind) :=
  ⟨fun _ hx => Memory.read_forget_low _ s.dst hx, fun _ hx => Memory.read_forget_high _ s.dst hx⟩

theorem State.failDecode_dstDrawn (s : State) (kind : ResultKind) : State.dstDrawn s (State.failDecode s kind) :=
  State.raise_dstDrawn { s with dstate := .failed } kind

theorem DstEnd.raise (s : State) {kind : ResultKind} (hkind : kind ≠ .ok) : DstEnd s (State.raise s kind) :=
  ⟨fun _ => s.raise_dstDrawn kind, fun hok => absurd hok hkind⟩

/-! ## The compressors -/

theorem DstEnd.emitBlock (s : State) (block : List Byte) : DstEnd s (State.emitBlock s block) := by
  rcases State.emitBlock_cases s block with ⟨-, h⟩ | ⟨hfits, h⟩ <;> rw [h]
  · exact .raise s nofun
  · refine ⟨fun hne => absurd rfl hne, fun _ x hx => Memory.read_writeList_outside _ _ _ _ _ (.inr ?_)⟩
    have hproduced : (BitVec.ofNat 32 block.length).toNat = block.length :=
      Nat.mod_eq_of_lt (hfits.trans_lt s.cap_lt)
    rw [State.finish_produced, hproduced] at hx
    omega

theorem DstEnd.compressFast (P : Config.Params) (s : State) : DstEnd s (State.compressFast P s) :=
  have h := DstEnd.emitBlock (State.withFast s _) _
  ⟨h.failed, h.ended⟩

theorem DstEnd.compressChained (P : Config.Params) (s : State) : DstEnd s (State.compressChained P s) :=
  have h := DstEnd.emitBlock (State.withHc s _) _
  ⟨h.failed, h.ended⟩

theorem DstEnd.compressWith (P : Config.Params) (s : State) : DstEnd s (State.compressWith P s) := by
  rcases State.compressWith_cases P s with ⟨-, h⟩ | ⟨-, h⟩ <;> rw [h]
  · exact .raise s nofun
  · exact .compressFast P s

theorem DstEnd.compressHcWith (P : Config.Params) (s : State) : DstEnd s (State.compressHcWith P s) := by
  rcases State.compressHcWith_cases P s with ⟨-, h⟩ | ⟨-, -, h⟩ | ⟨-, -, h⟩ <;> rw [h]
  · exact .raise s nofun
  · exact .compressFast P s
  · exact .compressChained P s

/-! ## DECOMPRESS -/

@[simp] theorem Memory.writeList_draws (bytes : List Byte) (m : Memory) (a : Nat) :
    (Memory.writeList m a bytes).draws = m.draws := by
  induction bytes generalizing m a with
  | nil => rfl
  | cons b bytes ih => exact ih _ _

@[simp] theorem Memory.copySerial_draws (free : Nat → Nat → Byte) (m : Memory) (o off k : Nat) :
    (Memory.copySerial free m o off k).draws = m.draws := by
  induction k with
  | zero => rfl
  | succ k ih => exact ih

/-- As long as the decoder does not fail, DST is not drawn anew. -/
theorem DecoderMove.draws_eq (hmove : DecoderMove s t) (hlive : t.dstate ≠ .failed) :
    t.cap = s.cap ∧ t.dst.draws = s.dst.draws := by
  cases hmove with
  | stay | read => exact ⟨rfl, rfl⟩
  | fail => exact absurd rfl hlive
  | literals bytes =>
    rcases State.endLiterals_cases _ with ⟨-, h⟩ | ⟨-, h⟩ <;> rw [h] <;>
      exact ⟨rfl, Memory.writeList_draws bytes s.dst s.op⟩
  | copy => exact ⟨rfl, Memory.copySerial_draws _ _ _ _ _⟩

theorem DState.ite_ne_failed {c : Prop} [Decidable c] {d e : DState} (hd : d.terminal = false) (he : e.terminal = false) :
    (if c then d else e) ≠ .failed := fun h =>
  nomatch (DState.terminal_ite hd he).symm.trans (congrArg DState.terminal h)

/-- A step of the decoder into Failed is a `raise` (R190), which draws DST[0..DST_CAP) anew. -/
theorem State.decoderStep_dstDrawn (hlive : s.dstate.terminal = false) (hfail : (State.decoderStep s).dstate = .failed) :
    State.dstDrawn s (State.decoderStep s) := by
  cases hd : s.dstate with
  | readToken =>
    rw [decoderStep_eq_readToken hd] at hfail ⊢
    rcases State.readToken_cases s _ _ with ⟨-, h⟩ | ⟨-, h⟩ <;> rw [h] at hfail ⊢
    · exact s.failDecode_dstDrawn _
    · exact absurd hfail (DState.ite_ne_failed rfl rfl)
  | readLiteralExtension | readMatchExtension =>
    rw [decoderStep_eq_readExtension (by simp [hd])] at hfail ⊢
    rcases State.readExtension_cases s _ with ⟨-, -, h⟩ | ⟨-, -, h⟩ | ⟨-, -, h⟩ | ⟨-, -, h⟩ <;> rw [h] at hfail ⊢
    · exact absurd hfail (DState.ite_ne_failed rfl rfl)
    · exact absurd hfail (DState.ite_ne_failed rfl rfl)
    · exact s.failDecode_dstDrawn _
    · exact nomatch hd.symm.trans hfail
  | copyLiterals =>
    rw [decoderStep_copyLiterals hd] at hfail ⊢
    rcases State.copyLiterals_cases s _ with ⟨-, h⟩ | ⟨-, -, h⟩ | ⟨-, -, h⟩ <;> rw [h] at hfail ⊢
    · exact s.failDecode_dstDrawn _
    · exact s.failDecode_dstDrawn _
    · rcases State.endLiterals_cases _ with ⟨-, h'⟩ | ⟨-, h'⟩ <;> rw [h'] at hfail <;> exact nomatch hfail
  | readOffset =>
    rw [decoderStep_eq_readOffset hd] at hfail ⊢
    rcases State.readOffset_cases s _ with ⟨-, h⟩ | ⟨-, -, h⟩ | ⟨-, -, -, h⟩ <;> rw [h] at hfail ⊢
    · exact s.failDecode_dstDrawn _
    · exact s.failDecode_dstDrawn .corruptOffset
    · exact absurd hfail (DState.ite_ne_failed rfl rfl)
  | copyMatch =>
    rw [decoderStep_copyMatch hd] at hfail ⊢
    rcases State.copyMatch_cases s with ⟨-, h⟩ | ⟨-, h⟩ <;> rw [h] at hfail ⊢
    · exact s.failDecode_dstDrawn _
    · exact nomatch hfail
  | done | failed => exact nomatch (congrArg DState.terminal hd).symm.trans hlive

/-- A run of the decoder into Failed has drawn DST[0..DST_CAP) anew once, in its last step. -/
theorem State.runDecoder_drawn (fuel : Nat) (hlive : s.dstate.terminal = false)
    (hfail : (State.runDecoder fuel s).dstate = .failed) {x : Nat} (hx : x < s.cap) :
    (State.runDecoder fuel s).dstByte x = Config.freeDstByte (s.dst.draws.length + 1) x := by
  induction fuel generalizing s with
  | zero => exact nomatch hlive.symm.trans (congrArg DState.terminal hfail)
  | succ fuel ih =>
    rw [State.runDecoder, if_neg (by simp [hlive])] at hfail ⊢
    cases hend : (State.decoderStep s).dstate.terminal with
    | true =>
      rw [runDecoder_terminal hend] at hfail ⊢
      obtain ⟨hdrawn, -⟩ := State.decoderStep_dstDrawn hlive hfail
      exact hdrawn x hx
    | false =>
      have hrun : (State.decoderStep s).dstate ≠ .failed := fun h => nomatch hend.symm.trans (congrArg DState.terminal h)
      obtain ⟨hcap, hdraws⟩ := s.decoderStep_move.draws_eq hrun
      rw [ih hend hfail (hcap ▸ hx), hdraws]

theorem DstEnd.decompress (h : exec .decompress s = .next t) : DstEnd s t := by
  obtain ⟨t', hexec, -, -, -, -, hends⟩ := decompressAlwaysEnds s
  obtain rfl := Host.Outcome.next.inj (hexec.symm.trans h)
  rcases hends with ⟨-, hended, -, -, houtside⟩ | ⟨hdstate, kind, hkind, hfailed, hbeyond⟩
  · refine ⟨fun hne => absurd hended.status hne, fun _ x hx => houtside x (.inr ?_)⟩
    rw [hended.produced] at hx
    omega
  · refine ⟨fun _ => ⟨fun x hx => ?_, hbeyond⟩, fun hok => ?_⟩
    · obtain rfl := Host.Outcome.next.inj h
      exact State.runDecoder_drawn (s := State.enterDecoder s) _ rfl hdstate hx
    · rw [hfailed.status] at hok
      rcases hkind with rfl | rfl | rfl <;> exact nomatch hok

/-! ## The operations -/

theorem exec_bound_dstByte (h : exec .bound s = .next t) : t.dstByte = s.dstByte :=
  Host.Outcome.next.inj h ▸ rfl

theorem DstEnd.bound (h : exec .bound s = .next t) : DstEnd s t := by
  refine ⟨fun hne => absurd ?_ hne, fun _ x _ => congrFun (exec_bound_dstByte h) x⟩
  exact Host.Outcome.next.inj h ▸ rfl

theorem DstEnd.exec {i : Instr} (hi : isCommand i = true) (h : exec i s = .next t) : DstEnd s t := by
  cases i with
  | bound => exact .bound h
  | compress => exact Host.Outcome.next.inj h ▸ .compressWith Config.params s
  | compressHc => exact Host.Outcome.next.inj h ▸ .compressHcWith Config.params s
  | decompress => exact .decompress h
  | token | lenextCont | lenextTerm | offset | literal | seqMatch | seqLast => exact absurd hi Bool.false_ne_true

/-- Settles O46: `DstEnd` holds of each of the four operations; BOUND touches no byte of DST (R140). -/
theorem dstAfterAnOperation : Obligations.DstAfterAnOperation := by
  intro i s t hi h
  obtain ⟨hfailed, hended⟩ := DstEnd.exec hi h
  refine ⟨hfailed, hended, ?_⟩
  rintro rfl x
  exact congrFun (exec_bound_dstByte h) x

end Sys2Proof.Machine
